-- ==== Sys2Proof/Word.lean ====
section
/-! DEFINITION. The word types of XBC-FRAMER (00_scope.md R6): bytes, and the 16-bit length and offset values. A time or an interval is a plain Nat, a number of ticks of the open unit `TICK` (R5, R42; D9). -/

namespace Sys2Proof

/-- A byte, an unsigned integer 0 to 255 (R6). -/
abbrev Byte := BitVec 8

/-- A 16-bit unsigned value: the length field, `RXCNT`, `ARG_LEN`, a payload offset (R22, R34, R36, R92). -/
abbrev Half := BitVec 16

end Sys2Proof
end

