-- ==== Sys2Proof/Machine/Agents.lean ====
section
/-! DEFINITION. The plain data that agents, outcomes and phases are named with: `PHASE`, `OP`, `RES`, a LogicalFrame, a line of a host program and a turn of an agent. -/

namespace Sys2Proof.Machine

/-- `PHASE` (R27): the state of the sequencer. -/
inductive Phase where
  | idle | hunt | collect | check
deriving DecidableEq, Repr, Inhabited

/-- `OP` (R38): which multi-step operation is running. -/
inductive Op where
  | none | decode | await
deriving DecidableEq, Repr, Inhabited

/-- `RES` (R270): the outcome of the last completed operation. Codes 12 to 15 are reserved and never produced. -/
inductive Res where
  | none | ok | okFrame | noStartDelimiter | frameTimeout | frameTooLarge | checksumMismatch | badLength
  | matched | timedOut | encodeTooLong | illegalCommand
deriving DecidableEq, Repr, Inhabited

/-- A LogicalFrame (R170): its type and its payload, the length being that of the payload. Equality is structural (R171). -/
structure LogicalFrame where
  type : Byte
  payload : List Byte
deriving DecidableEq, Repr, Inhabited

/-- One line of a host program: the host's lines of the listing notation of R109, the reads of the two byte
memories (R254, R255), and what a workflow of 43_host_sequences.md does between them. `CMD mnemonic` is the line
`wr 0 opcode` (R109). -/
inductive HostLine where
  /-- `WR reg, value`: write a register by number; register 0 is `CMD`. -/
  | wr (reg value : Nat)
  /-- `WRBUF [b0, b1, …]`: write the bytes to `ARGBUF[0..]`. -/
  | wrBuf (bytes : List Byte)
  /-- Write one byte of `ARGBUF`. -/
  | wrArg (index : Nat) (value : Byte)
  /-- `RD reg`: read a register by number. -/
  | rd (reg : Nat)
  /-- Read one byte of `RXBUF`. -/
  | rdRxBuf (index : Nat)
  /-- Read one byte of `ARGBUF`. -/
  | rdArgBuf (index : Nat)
  /-- `WAIT`: read `STATUS` until `BUSY = 0`. -/
  | wait
  /-- Copy the LogicalFrame out of the view (R173). -/
  | copyFrame
  /-- Keep the value just read: `t_start <- RD NOW` (R226). -/
  | keep
  /-- `WR reg, t_start` (R226). -/
  | wrKept (reg : Nat)
  /-- Go on with the next line if `RES = MATCHED`, else pass over `n` lines (the `if` of R226). -/
  | skipUnlessMatched (n : Nat)
  /-- Pass over `n` lines (the end of a branch of R226). -/
  | skip (n : Nat)
  /-- `return (RES = MATCHED)` (R221). -/
  | answer
deriving DecidableEq, Repr, Inhabited

/-- One turn of one agent (R8, R70, R71). -/
inductive Turn where
  /-- The host does the next line of its program. -/
  | host
  /-- The sequencer takes one micro-step (`step` of R109). -/
  | sequencer
  /-- `rx [b0, b1, …]`: the environment appends bytes to `RXQ`. -/
  | arrive (bytes : List Byte)
  /-- `tick d`: the environment adds `d` to `NOW`. -/
  | tick (d : Nat)
  /-- Bytes arrive together and the sequencer takes micro-steps until it has read them or its operation ended:
  the schedule under which a whole wire frame is one instruction. -/
  | wire (bytes : List Byte)
  /-- The reset input (R310, R311). -/
  | reset
  /-- The caller gives the host further lines to do. -/
  | call (lines : List HostLine)
deriving DecidableEq, Repr, Inhabited

end Sys2Proof.Machine
end

