-- ==== Sys2Proof/Config.lean ====
section
/-! DEFINITION. The parameters of 00_scope.md R5, the named constants of 30_encoding.md R98 and R103, and the values the spec leaves open (opaque: nothing in Lean can evaluate them). -/

namespace Sys2Proof.Config

/-- `START`, the start marker byte (R5, R91). -/
def start : Byte := 0x7E

/-- `CAP`, capacity of the receive buffer in bytes (R5). -/
def cap : Nat := 1800

/-- `MAXPAY`, the largest payload `encode` accepts (R5). -/
def maxPay : Nat := 0xFFFE

/-- `OVERHEAD`, bytes buffered besides type and payload (R5). -/
def overhead : Nat := 3

/-- `MAXRXPAY`, the largest payload the deframer can deliver (R5). -/
def maxRxPay : Nat := cap - 4

/-- `ARGCAP`, size of the operand memory `ARGBUF` (R5). -/
def argCap : Nat := 0xFFFF

/-- `NCMP`, number of comparators of the match unit (R5). -/
def nCmp : Nat := 4

/-- `CHKEN_RESET` (R5). -/
def chkEnReset : Bool := true

/-- `FID_WORKFLOW`, the frame id of the host sequences (R5, R232). -/
def fidWorkflow : Byte := 0x01

/-- Frame type AT Command (R98). -/
def typeAtCommand : Byte := 0x08

/-- Frame type Local AT Response (R98). -/
def typeAtResponse : Byte := 0x88

/-- Frame type TX Request (R98). -/
def typeTxRequest : Byte := 0x20

/-- Frame type Modem Status (R98). -/
def typeModemStatus : Byte := 0x8A

/-- Characters of the AT commands "AI", "SD", "FR" (R103). `S`, `D`, `F`, `R` are ASCII, from general knowledge (G1). -/
def charA : Byte := 0x41
def charI : Byte := 0x49
def charS : Byte := 0x53
def charD : Byte := 0x44
def charF : Byte := 0x46
def charR : Byte := 0x52

/-- "AI" status connected, and "SD" status success (R103). -/
def statusZero : Byte := 0x00

/-- "AI" status shut down (R103). -/
def statusShutDown : Byte := 0x2D

/-- Modem status watchdog reset (R103). -/
def watchdogReset : Byte := 0x02

/-- `T_INACT_POLL` (R5, D23): OPEN, the inactivity timeout the host sequences write. Log 23. -/
opaque tInactPoll : Nat

/-- What `ARGBUF[index]` holds after the reset event number `resets` while nothing has written it: any value
(R35, R48, U9). Log 6. -/
opaque argBufUnwritten (resets index : Nat) : Byte

/-- What the `n`-th read of anything but `STATUS` made while `BUSY = 1` returns: any value (R75, U7). Log 8. -/
opaque busyRead (n : Nat) : Nat

/-- The schedule (R71): the `n`-th turn that is not already decided in the state. Every interleaving of host,
sequencer, environment and reset is one such function. Log 1. -/
opaque freeTurn (n : Nat) : Machine.Turn

end Sys2Proof.Config
end

