-- ==== Sys2Proof/Syntax.lean ====
section
/-! DEFINITION. The instructions: one constructor per row of spec/opcode_table.json. -/

namespace Sys2Proof

/-- The rows of the opcode table. A host command has no operand field (R106). A wire frame is its header word
`H = (START << 24) | (LEN << 8) | type` (R96) and the `LEN` bytes after it: the payload and, last, the checksum byte
(R90); a named row fixes the type. -/
inductive Instr where
  /-- ENCODE, opcode 0x01 (R134). -/
  | cmdEncode
  /-- DECODE, opcode 0x02 (R150). -/
  | cmdDecode
  /-- SEND_COMMAND, opcode 0x03 (R190). -/
  | sendCommand
  /-- AWAIT_MATCH, opcode 0x04 (R196). -/
  | awaitMatch
  /-- AWAIT_MATCH_T0, opcode 0x05 (R197). -/
  | awaitMatchT0
  /-- TEARDOWN, opcode 0x06 (R252). -/
  | teardown
  /-- FRAME, any type that has no row of its own (R90, R104). -/
  | frame (len : Half) (type : Byte) (body : List Byte)
  /-- FRAME.AT_COMMAND, type 0x08 (R99). -/
  | atCommand (len : Half) (body : List Byte)
  /-- FRAME.AT_RESPONSE, type 0x88 (R100). -/
  | atResponse (len : Half) (body : List Byte)
  /-- FRAME.TX_REQUEST, type 0x20 (R102). -/
  | txRequest (len : Half) (body : List Byte)
  /-- FRAME.MODEM_STATUS, type 0x8A (R101). -/
  | modemStatus (len : Half) (body : List Byte)
deriving DecidableEq, Repr

end Sys2Proof
end

