-- ==== Sys2Proof/WellFormed.lean ====
section
/-! DEFINITION. Well-formed instructions: what the bytes of an instruction can say. -/

namespace Sys2Proof

/-- The types that have a row of their own (R98, R111). -/
def namedTypes : List Byte :=
  [Config.typeAtCommand, Config.typeAtResponse, Config.typeTxRequest, Config.typeModemStatus]

/-- The bytes after the header word are the `LEN` bytes the length field counts, less the type byte, plus the
checksum byte (R90, R92). -/
def bodyFits (len : Half) (body : List Byte) : Bool := body.length == len.toNat

/-- A host command is always well formed. A frame is when its body has the length its length field says, and a
frame with a named type stands under that type's row, not under FRAME (R96, R111). Its checksum may be wrong and its
length field may be 0: such frames arrive, and the deframer answers them (R105). -/
def Instr.wellFormed : Instr → Bool
  | .cmdEncode => true
  | .cmdDecode => true
  | .sendCommand => true
  | .awaitMatch => true
  | .awaitMatchT0 => true
  | .teardown => true
  | .frame len type body => bodyFits len body && !namedTypes.contains type
  | .atCommand len body => bodyFits len body
  | .atResponse len body => bodyFits len body
  | .txRequest len body => bodyFits len body
  | .modemStatus len body => bodyFits len body

end Sys2Proof
end

