-- ==== Sys2Proof/Decode.lean ====
section
/-! DEFINITION. The decoder of host commands and wire frames, total and refusing by name, the encoder beside it, and the big-endian byte order both use. -/

namespace Sys2Proof

/-- The header fields and the bytes after the header of a frame; `none` for a host command. -/
def Instr.frameParts : Instr → Option (Half × Byte × List Byte)
  | .cmdEncode => none
  | .cmdDecode => none
  | .sendCommand => none
  | .awaitMatch => none
  | .awaitMatchT0 => none
  | .teardown => none
  | .frame len type body => some (len, type, body)
  | .atCommand len body => some (len, Config.typeAtCommand, body)
  | .atResponse len body => some (len, Config.typeAtResponse, body)
  | .txRequest len body => some (len, Config.typeTxRequest, body)
  | .modemStatus len body => some (len, Config.typeModemStatus, body)

/-- How many bytes the instruction has: one for a command (R106), `LEN + 4` for a frame (R92). -/
def Instr.byteCount (i : Instr) : Nat :=
  match i.frameParts with
  | none => 1
  | some (len, _, _) => len.toNat + 4

/-- `be16(h, l) = (h << 8) | l` (R6, R92). -/
def be16 (h l : Byte) : Half := h ++ l

/-- `u16_be(n)`: most significant byte first (R6, R61). -/
def u16be (n : Half) : List Byte := [n.extractLsb' 8 8, n.extractLsb' 0 8]

/-- `u32_be(n)`: most significant byte first (R6, R61). -/
def u32be (n : BitVec 32) : List Byte :=
  [n.extractLsb' 24 8, n.extractLsb' 16 8, n.extractLsb' 8 8, n.extractLsb' 0 8]

/-- Where an instruction is written: the byte written to `CMD` (R106), or bytes on the wire (R90). -/
inductive Encoding where
  | command (opcode : Byte)
  | wire (bytes : List Byte)
deriving DecidableEq, Repr

/-- The bytes of an encoding, in the order they are stored or sent. -/
def Encoding.bytes : Encoding → List Byte
  | .command c => [c]
  | .wire bs => bs

/-- Why bytes are no instruction. -/
inductive DecodeError where
  /-- Opcodes 0x00 and 0x07 to 0xFF (R108). -/
  | reservedOpcode (opcode : Byte)
  /-- The first byte is not `START` (R62, R91). -/
  | noStartMarker
  /-- Fewer than the four bytes of the header word (R96). -/
  | shortHeader
  /-- Fewer than the `LEN` bytes after the header (R97). -/
  | shortBody
  /-- Bytes behind the frame. -/
  | bytesLeft
deriving DecidableEq, Repr

/-- The opcodes of R107; every other byte is reserved (R108). -/
def decodeCommand (c : Byte) : Except DecodeError Instr :=
  if c = 0x01 then .ok .cmdEncode
  else if c = 0x02 then .ok .cmdDecode
  else if c = 0x03 then .ok .sendCommand
  else if c = 0x04 then .ok .awaitMatch
  else if c = 0x05 then .ok .awaitMatchT0
  else if c = 0x06 then .ok .teardown
  else .error (.reservedOpcode c)

/-- The row a header belongs to: a named type's row, else FRAME (R96, R111). -/
def frameOf (len : Half) (type : Byte) (body : List Byte) : Instr :=
  if type = Config.typeAtCommand then .atCommand len body
  else if type = Config.typeAtResponse then .atResponse len body
  else if type = Config.typeTxRequest then .txRequest len body
  else if type = Config.typeModemStatus then .modemStatus len body
  else .frame len type body

/-- One frame at the head of a byte sequence, and the bytes behind it (R90, R97). -/
def decodeFrame : List Byte → Except DecodeError (Instr × List Byte)
  | s :: h :: l :: type :: rest =>
    if s = Config.start then
      if rest.length < (be16 h l).toNat then .error .shortBody
      else .ok (frameOf (be16 h l) type (rest.take (be16 h l).toNat), rest.drop (be16 h l).toNat)
    else .error .noStartMarker
  | s :: _ => if s = Config.start then .error .shortHeader else .error .noStartMarker
  | [] => .error .shortHeader

/-- The decoder: a command byte, or bytes that are exactly one frame. -/
def decode : Encoding → Except DecodeError Instr
  | .command c => decodeCommand c
  | .wire bs =>
    match decodeFrame bs with
    | .ok (i, []) => .ok i
    | .ok (_, _ :: _) => .error .bytesLeft
    | .error e => .error e

/-- The bytes of a frame on the wire (R90). -/
def wireBytes (len : Half) (type : Byte) (body : List Byte) : List Byte :=
  Config.start :: (u16be len ++ type :: body)

/-- The encoder, from the same tables (R90, R107). -/
def encode : Instr → Encoding
  | .cmdEncode => .command 0x01
  | .cmdDecode => .command 0x02
  | .sendCommand => .command 0x03
  | .awaitMatch => .command 0x04
  | .awaitMatchT0 => .command 0x05
  | .teardown => .command 0x06
  | .frame len type body => .wire (wireBytes len type body)
  | .atCommand len body => .wire (wireBytes len Config.typeAtCommand body)
  | .atResponse len body => .wire (wireBytes len Config.typeAtResponse body)
  | .txRequest len body => .wire (wireBytes len Config.typeTxRequest body)
  | .modemStatus len body => .wire (wireBytes len Config.typeModemStatus body)

/-- The encoding whose bits, numbered as the opcode table numbers them (R111), are `w`: an 8-bit row is the byte
written to `CMD`; a 32-bit row is the header word `H`, most significant byte first on the wire (R96), and the `LEN`
bytes after it are 0. Any other width has no row. -/
def tableEncoding (nbits w : Nat) : Option Encoding :=
  if nbits = 8 then some (.command (BitVec.ofNat 8 w))
  else if nbits = 32 then
    some (.wire (u32be (BitVec.ofNat 32 w) ++ List.replicate ((BitVec.ofNat 32 w).extractLsb' 8 16).toNat 0x00))
  else none

/-- What the decoder reads from an instruction whose table bits are `w`. -/
def decodeTableWord (nbits w : Nat) : Option Instr :=
  match tableEncoding nbits w with
  | none => none
  | some e =>
    match decode e with
    | .ok i => some i
    | .error _ => none

end Sys2Proof
end

