-- ==== Sys2Proof/Machine/State.lean ====
section
/-! DEFINITION. The state of the machine as plain data, its reset value, and the reasons a step can stop. -/

namespace Sys2Proof.Machine

/-- A byte memory: (address, byte) pairs at strictly rising addresses, none equal to what an unlisted address reads
as (`Memory.wf`). -/
abbrev Memory := List Host.Cell

/-- The operand registers, registers 3 to 9 (R34). -/
structure ArgRegs where
  /-- `ARG_TYPE`. -/
  type : Byte
  /-- `ARG_FID`. -/
  fid : Byte
  /-- `ARG_CMD0`. -/
  cmd0 : Byte
  /-- `ARG_CMD1`. -/
  cmd1 : Byte
  /-- `ARG_LEN`. -/
  len : Half
  /-- `ARG_INACT`. -/
  inact : Nat
  /-- `ARG_TO`. -/
  timeout : Nat
deriving DecidableEq, Repr

/-- The match registers, registers 10 to 19 (R36). -/
structure MatchRegs where
  /-- `M_TYPE`. -/
  type : Byte
  /-- `M_N`. -/
  n : BitVec 3
  /-- `M_OFF[0..3]`. -/
  off : Vector Half 4
  /-- `M_VAL[0..3]`. -/
  val : Vector Byte 4
deriving DecidableEq, Repr

/-- The host: its program and its own variables. Fields of the model, not of the spec (log 12). -/
structure HostAgent where
  /-- The lines still to do, in the host's order (R68). -/
  prog : List HostLine
  /-- The value the last read returned. -/
  rdata : Nat
  /-- `t_start` of R226. -/
  kept : Nat
  /-- The result of the last workflow that returned one (R221). -/
  result : Option Bool
  /-- The frame last copied out of the view (R173). -/
  frame : Option LogicalFrame
deriving DecidableEq, Repr

/-- The complete state (R20): block state (R21 to R38), environment (R40, R42), records (R41, R43), and the model's
own fields (`host`, `turns`, `freeTurns`, `freeReads`, `resets`). -/
structure State where
  /-- `RXBUF` (R21). -/
  rxBuf : Memory
  /-- `RXCNT` (R22). -/
  rxCnt : Half
  /-- `LASTPROG` (R25). -/
  lastProg : Nat
  /-- `T0` (R26). -/
  t0 : Nat
  /-- `PHASE` (R27). -/
  phase : Phase
  /-- `BUSY` (R28). -/
  busy : Bool
  /-- `FVALID` (R29). -/
  fvalid : Bool
  /-- `RES` (R30). -/
  res : Res
  /-- `RXCHK` (R31). -/
  rxChk : Byte
  /-- `CTRL.CHKEN` (R32); the other bits of `CTRL` are reserved and hold nothing. -/
  chkEn : Bool
  /-- The operand registers (R34). -/
  args : ArgRegs
  /-- `ARGBUF` (R35). -/
  argBuf : Memory
  /-- The match registers (R36). -/
  matchRegs : MatchRegs
  /-- `OP` (R38). -/
  op : Op
  /-- `RXQ`, oldest byte first (R40). -/
  rxq : List Byte
  /-- `TXQ`, oldest byte first (R41). -/
  txq : List Byte
  /-- `NOW` (R42). -/
  now : Nat
  /-- `ENCOUT`, oldest byte first (R43). -/
  encOut : List Byte
  /-- The host agent (log 12). -/
  host : HostAgent
  /-- The turns already decided, next first (R71; log 1). -/
  turns : List Turn
  /-- How many turns were drawn from the free schedule (log 1). -/
  freeTurns : Nat
  /-- How many reads while busy were given a free value (U7; log 8). -/
  freeReads : Nat
  /-- How many reset events there were: `ARGBUF` is unspecified anew after each (log 6). -/
  resets : Nat
deriving DecidableEq, Repr

/-- The reasons the machine stops with a fault. All are safe: the model stops where it has no rule to go on by. -/
inductive Fault where
  /-- Raised by a host access to `ARGBUF` at an index of `ARGCAP` or above, an address the space does not have
  (R35, R60; log 7). Safe. -/
  | argBufIndex
  /-- Raised by a `COLLECT` micro-step that would store at index `CAP` or above, which no run reaches (R23, R157;
  log 14). Safe. -/
  | rxBufOverrun
  /-- Raised by the sequencer with `BUSY = 1` and a pair (`OP`, `PHASE`) that has no micro-step, which no run reaches
  (R38; log 14). Safe. -/
  | noMicroStep
  /-- Raised by a `COLLECT` micro-step with `LASTPROG` after `NOW`, which no run reaches (R42; log 14). Safe. -/
  | clockBehind
deriving DecidableEq, Repr

/-- The reasons the model gives no meaning. All are safe. -/
inductive Refusal where
  /-- Raised by an arm of `exec` whose instruction has no meaning yet. Safe. -/
  | notModelled (mnemonic : String)
  /-- Raised by a write to `CMD` while `BUSY = 1` (R256, U6; log 9). Safe. -/
  | commandWhileBusy
  /-- Raised by a write to another register or to `ARGBUF` while `BUSY = 1` (R256, U6; log 9). Safe. -/
  | writeWhileBusy
  /-- Raised by AWAIT_MATCH_T0 with `T0 > NOW`, and by a `CHECK` micro-step in such a state (R197, U8; log 10). Safe. -/
  | startAfterNow
  /-- Raised by a host that uses `RXBUF` as a frame while `FVALID = 0` (R318, U5; log 22). Safe. -/
  | noFrameToView
deriving DecidableEq, Repr

/-- The machine right after reset (R48, R310). `RXQ` and `NOW` belong to the environment and have no reset value:
empty and 0 are this model's choice (log 4, log 5); the host agent and the counters are the model's own (log 12). -/
def State.reset : State where
  rxBuf := []
  rxCnt := 0
  lastProg := 0
  t0 := 0
  phase := .idle
  busy := false
  fvalid := false
  res := .none
  rxChk := 0
  chkEn := Config.chkEnReset
  args := { type := 0, fid := 0, cmd0 := 0, cmd1 := 0, len := 0, inact := 0, timeout := 0 }
  argBuf := []
  matchRegs := { type := 0, n := 0, off := #v[0, 0, 0, 0], val := #v[0, 0, 0, 0] }
  op := .none
  rxq := []
  txq := []
  now := 0
  encOut := []
  host := { prog := [], rdata := 0, kept := 0, result := none, frame := none }
  turns := []
  freeTurns := 0
  freeReads := 0
  resets := 0

end Sys2Proof.Machine
end

