-- ==== Sys2Proof/Machine/Ops.lean ====
section
/-! DEFINITION. The named operations: byte memories, the receive buffer, the streams, the clock, the end of an operation (`complete`, the raise of this hardware), command issue and reset. -/

namespace Sys2Proof.Machine

/-! ### Byte memories -/

/-- The listed byte at an address. -/
def Memory.read : Memory → Nat → Option Byte
  | [], _ => none
  | (k, v) :: m, a => if k = a then some v else Memory.read m a

/-- List a byte at an address, keeping the addresses rising. -/
def Memory.insert : Memory → Nat → Byte → Memory
  | [], a, b => [(a, b)]
  | (k, v) :: m, a, b =>
    if a < k then (a, b) :: (k, v) :: m
    else if a = k then (a, b) :: m
    else (k, v) :: Memory.insert m a b

/-- Unlist an address. -/
def Memory.erase : Memory → Nat → Memory
  | [], _ => []
  | (k, v) :: m, a => if k = a then m else (k, v) :: Memory.erase m a

/-- Write a byte to a memory whose unlisted addresses read as `unlisted` (`none`: they have no value). -/
def Memory.write (unlisted : Option Byte) (m : Memory) (a : Nat) (b : Byte) : Memory :=
  if unlisted = some b then Memory.erase m a else Memory.insert m a b

/-- The addresses rise strictly. -/
def Memory.rising : Memory → Bool
  | [] => true
  | [_] => true
  | (a, _) :: (b, v) :: m => decide (a < b) && Memory.rising ((b, v) :: m)

/-- Every listed address is below a bound. -/
def Memory.below (bound : Nat) (m : Memory) : Bool := m.all fun c => decide (c.1 < bound)

/-- The canonical form: addresses strictly rising, no entry equal to what an unlisted address reads as. -/
def Memory.wf (unlisted : Option Byte) (m : Memory) : Bool :=
  Memory.rising m && m.all fun c => decide (unlisted ≠ some c.2)

/-- What an unlisted byte of `RXBUF` reads as: 0x00 (R24, R48). -/
def rxUnlisted : Option Byte := some 0x00

/-- What an unlisted byte of `ARGBUF` reads as: it has no value of its own (R35, R48); `State.argByte` gives the
free value. -/
def argUnlisted : Option Byte := none

/-! ### The receive buffer -/

/-- `RXBUF[i]` (R6); an index of `CAP` or above reads 0 (R255). -/
def State.rxByte (s : State) (i : Nat) : Byte :=
  if i < Config.cap then (Memory.read s.rxBuf i).getD 0x00 else 0x00

/-- `clear_rxbuf()` (R24). -/
def State.clearRxBuf (s : State) : State := { s with rxBuf := [], rxCnt := 0 }

/-- `be16(RXBUF[0], RXBUF[1])`, the length field of the frame in the buffer (R65, R92). -/
def State.lenField (s : State) : Nat := (be16 (s.rxByte 0) (s.rxByte 1)).toNat

/-- `total()` (R155): the length field counts as 0 while fewer than two bytes are buffered. -/
def State.total (s : State) : Nat :=
  if s.rxCnt.toNat < 2 then 0 + Config.overhead else s.lenField + Config.overhead

/-- The append of R156 and R157: the byte at index `RXCNT`, the count, the time of progress. -/
def State.append (b : Byte) (s : State) : State :=
  { s with
    rxBuf := Memory.write rxUnlisted s.rxBuf s.rxCnt.toNat b
    rxCnt := s.rxCnt + 1
    lastProg := s.now }

/-- The append, where there is room. Storing at `CAP` or above has no rule (R23 says it never happens) and is a
fault. -/
def State.storeByte (b : Byte) (s : State) : Host.Outcome State Fault Refusal :=
  if s.rxCnt.toNat < Config.cap then .next (s.append b) else .fault .rxBufOverrun

/-! ### `ARGBUF` -/

/-- `ARGBUF[i]`: the byte written last since reset, else any value (R35, U9). -/
def State.argByte (s : State) (i : Nat) : Byte :=
  (Memory.read s.argBuf i).getD (Config.argBufUnwritten s.resets i)

/-- The operand sequence `ARGBUF[0 .. n-1]` (R35). -/
def State.argBytes (s : State) (n : Nat) : List Byte := (List.range n).map s.argByte

/-- The host stores one byte of `ARGBUF`. -/
def State.storeArg (s : State) (i : Nat) (b : Byte) : State :=
  { s with argBuf := Memory.write argUnlisted s.argBuf i b }

/-- The host stores bytes from an index on. -/
def State.storeArgs (s : State) : Nat → List Byte → State
  | _, [] => s
  | i, b :: bs => State.storeArgs (s.storeArg i b) (i + 1) bs

/-! ### Streams and clock -/

/-- `rx_pop()` (R6) on a stream `b :: q`: the head is taken and `q` stays. -/
def State.popped (q : List Byte) (s : State) : State := { s with rxq := q }

/-- The environment appends to the tail of `RXQ` (R40). -/
def State.arrive (bytes : List Byte) (s : State) : State := { s with rxq := s.rxq ++ bytes }

/-- The environment advances `NOW` (R42). -/
def State.advance (d : Nat) (s : State) : State := { s with now := s.now + d }

/-- `tx_push` (R6, R41). -/
def State.txPush (bytes : List Byte) (s : State) : State := { s with txq := s.txq ++ bytes }

/-- `enc_push` (R6, R43). -/
def State.encPush (bytes : List Byte) (s : State) : State := { s with encOut := s.encOut ++ bytes }

/-- The time elapsed since a stored time (R7); it is not defined when that time lies after `NOW` (U8). -/
def State.elapsedSince (s : State) (since : Nat) : Option Nat :=
  if since ≤ s.now then some (s.now - since) else none

/-! ### Outcomes -/

/-- `complete(code)` (R6, R274): the running operation ends. This is the raise of this hardware: no outcome
transfers control, saves state or changes a mode. -/
def State.complete (code : Res) (s : State) : State :=
  { s with res := code, busy := false, phase := .idle, op := .none }

/-- The refusal of an illegal command (R251): `RES` and nothing else. -/
def State.illegalCommand (s : State) : State := { s with res := .illegalCommand }

/-- The issue of a multi-step operation (R151, R196, R197). -/
def State.issue (op : Op) (phase : Phase) (s : State) : State :=
  { s with fvalid := false, op := op, busy := true, phase := phase }

/-- A command is accepted only while `BUSY = 0` (R250); a write to `CMD` while `BUSY = 1` has no meaning (R256, U6). -/
def whenIdle (s : State) (effect : Host.Outcome State Fault Refusal) : Host.Outcome State Fault Refusal :=
  if s.busy then .refused .commandWhileBusy else effect

/-! ### Reset -/

/-- The reset event (R310, R311): block state to the values of R48 whatever was running, the records empty, `RXQ` and
`NOW` kept, `ARGBUF` unspecified anew. -/
def State.afterReset (s : State) : State :=
  { State.reset with
    rxq := s.rxq
    now := s.now
    host := s.host
    turns := s.turns
    freeTurns := s.freeTurns
    freeReads := s.freeReads
    resets := s.resets + 1 }

end Sys2Proof.Machine
end

