-- ==== Sys2Proof/Machine/Framer.lean ====
section
/-! DEFINITION. The framer (40_encode.md): the checksum, encode, and the meaning of ENCODE. -/

namespace Sys2Proof.Machine

/-- `checksum(type, payload)` (R130): 0xFF minus the sum, in 8-bit arithmetic. -/
def checksum (type : Byte) (payload : List Byte) : Byte := 0xFF - payload.foldl (· + ·) type

/-- The bytes `[START] ++ u16_be(len(payload) + 1) ++ [type] ++ payload ++ [checksum]` (R133). -/
def frameBytes (type : Byte) (payload : List Byte) : List Byte :=
  wireBytes (BitVec.ofNat 16 (payload.length + 1)) type (payload ++ [checksum type payload])

/-- `encode(type, payload)` (R133): it has no value for a payload longer than `MAXPAY` (U3). -/
def encodeFrame (type : Byte) (payload : List Byte) : Option (List Byte) :=
  if payload.length ≤ Config.maxPay then some (frameBytes type payload) else none

/-- ENCODE (R134, R135). -/
def execEncode (s : State) : Host.Outcome State Fault Refusal :=
  whenIdle s <| .next <|
    if s.args.len.toNat > Config.maxPay then { s with res := .encodeTooLong }
    else { s.encPush (frameBytes s.args.type (s.argBytes s.args.len.toNat)) with res := .ok }

end Sys2Proof.Machine
end

