-- ==== Sys2Proof/Machine/Operands.lean ====
section
/-! DEFINITION. Operand forms: the four payload layouts (30_encoding.md R99 to R102), the payload SEND_COMMAND builds, the TX Request payload, and the LogicalFrame view of the receive buffer. -/

namespace Sys2Proof.Machine

/-- AT Command payload (R99). -/
structure AtCommandPayload where
  frameId : Byte
  cmdChar0 : Byte
  cmdChar1 : Byte
  param : List Byte
deriving DecidableEq, Repr

/-- Local AT Response payload (R100). -/
structure AtResponsePayload where
  frameId : Byte
  cmdChar0 : Byte
  cmdChar1 : Byte
  status : Byte
  data : List Byte
deriving DecidableEq, Repr

/-- Modem Status payload (R101). -/
structure ModemStatusPayload where
  statusCode : Byte
  rest : List Byte
deriving DecidableEq, Repr

/-- TX Request payload (R102). -/
structure TxRequestPayload where
  frameId : Byte
  addr : BitVec 32
  destPort : Half
  sourcePort : Half
  protocol : Byte
  options : Byte
  data : List Byte
deriving DecidableEq, Repr

/-- Payload offsets 0, 1, 2 and 3 onward (R99). -/
def AtCommandPayload.bytes (p : AtCommandPayload) : List Byte :=
  p.frameId :: p.cmdChar0 :: p.cmdChar1 :: p.param

/-- Payload offsets 0 to 3 and 4 onward (R100). -/
def AtResponsePayload.bytes (p : AtResponsePayload) : List Byte :=
  p.frameId :: p.cmdChar0 :: p.cmdChar1 :: p.status :: p.data

/-- Payload offset 0 and 1 onward (R101). -/
def ModemStatusPayload.bytes (p : ModemStatusPayload) : List Byte := p.statusCode :: p.rest

/-- Payload offsets 0 to 10 and 11 onward, the multi-byte fields big-endian (R102). -/
def TxRequestPayload.bytes (p : TxRequestPayload) : List Byte :=
  p.frameId :: (u32be p.addr ++ u16be p.destPort ++ u16be p.sourcePort ++ p.protocol :: p.options :: p.data)

/-- An AT Command payload read back; too short a payload has no such layout (R99). -/
def AtCommandPayload.ofBytes : List Byte → Option AtCommandPayload
  | f :: c0 :: c1 :: param => some ⟨f, c0, c1, param⟩
  | _ => none

/-- A Local AT Response payload read back (R100). -/
def AtResponsePayload.ofBytes : List Byte → Option AtResponsePayload
  | f :: c0 :: c1 :: st :: data => some ⟨f, c0, c1, st, data⟩
  | _ => none

/-- A Modem Status payload read back (R101). -/
def ModemStatusPayload.ofBytes : List Byte → Option ModemStatusPayload
  | st :: rest => some ⟨st, rest⟩
  | _ => none

/-- A TX Request payload read back (R102). -/
def TxRequestPayload.ofBytes : List Byte → Option TxRequestPayload
  | f :: a0 :: a1 :: a2 :: a3 :: d0 :: d1 :: s0 :: s1 :: pr :: op :: data =>
    some ⟨f, be16 a0 a1 ++ be16 a2 a3, be16 d0 d1, be16 s0 s1, pr, op, data⟩
  | _ => none

/-- The payload SEND_COMMAND builds from its registers and `n` bytes of `ARGBUF` (R190). -/
def State.commandPayload (s : State) (n : Nat) : AtCommandPayload :=
  ⟨s.args.fid, s.args.cmd0, s.args.cmd1, s.argBytes n⟩

/-- The frame payload of BUILD_TCP_FRAME (R229): frame id 0 and the 11-byte header. -/
def tcpPayload (address : BitVec 32) (destPort sourcePort : Half) (protocol options : Byte) (data : List Byte) :
    List Byte :=
  TxRequestPayload.bytes ⟨0x00, address, destPort, sourcePort, protocol, options, data⟩

/-- The type byte of the frame in the buffer, `RXBUF[2]` (R65, R170). -/
def State.frameType (s : State) : Byte := s.rxByte 2

/-- The payload length of the frame in the buffer, the length field less one (R170). -/
def State.payloadLen (s : State) : Nat := s.lenField - 1

/-- The payload bytes `RXBUF[3 .. LEN+1]` (R65, R170). -/
def State.framePayload (s : State) : List Byte := (List.range s.payloadLen).map fun i => s.rxByte (3 + i)

/-- The checksum byte of the frame in the buffer, `RXBUF[LEN+2]` (R65). -/
def State.wireChecksum (s : State) : Byte := s.rxByte (s.lenField + 2)

/-- The LogicalFrame view (R170): there is one only while `FVALID = 1`. -/
def State.view (s : State) : Option LogicalFrame :=
  if s.fvalid then some ⟨s.frameType, s.framePayload⟩ else none

end Sys2Proof.Machine
end

