-- ==== Sys2Proof/Machine/Flags.lean ====
section
/-! DEFINITION. The flags `BUSY`, `FVALID`, `RES` (10_state.md R46): their numbers in `STATUS`, and the match unit and `decode_done`, which decide the flags at the end of a decode (41_decode.md R150, 42_correlator.md R193, R200). -/

namespace Sys2Proof.Machine

/-- The number of a phase (R27). -/
def Phase.code : Phase → Nat
  | .idle => 0
  | .hunt => 1
  | .collect => 2
  | .check => 3

/-- The number of an outcome (R270). -/
def Res.code : Res → Nat
  | .none => 0
  | .ok => 1
  | .okFrame => 2
  | .noStartDelimiter => 3
  | .frameTimeout => 4
  | .frameTooLarge => 5
  | .checksumMismatch => 6
  | .badLength => 7
  | .matched => 8
  | .timedOut => 9
  | .encodeTooLong => 10
  | .illegalCommand => 11

/-- `STATUS` (R33, R257): `(RES << 4) | (PHASE << 2) | (FVALID << 1) | BUSY`. -/
def State.status (s : State) : Nat :=
  s.res.code * 16 + s.phase.code * 4 + s.fvalid.toNat * 2 + s.busy.toNat

/-- Comparator `i` (R193, R194): it passes if it is not active; an active one requires a payload byte, never a byte
outside the payload. -/
def State.comparator (s : State) (i : Fin 4) : Bool :=
  if i.val < s.matchRegs.n.toNat then
    decide ((s.matchRegs.off[i]).toNat < s.payloadLen)
      && decide (s.rxByte (3 + (s.matchRegs.off[i]).toNat) = s.matchRegs.val[i])
  else true

/-- The predicate `P()` of the match unit (R193): the type and every active comparator. -/
def State.matches (s : State) : Bool :=
  decide (s.frameType = s.matchRegs.type)
    && (s.comparator 0 && s.comparator 1 && s.comparator 2 && s.comparator 3)

/-- `correlate(code)` (R200): the end of a decode inside the correlator. -/
def State.correlate (code : Res) (s : State) : State :=
  if code = .okFrame && s.matches then State.complete .matched { s with fvalid := true }
  else { s with fvalid := false, phase := .check }

/-- `decode_done(code)` (R150). With `OP = NONE` no decode is running and neither branch applies. -/
def State.decodeDone (code : Res) (s : State) : State :=
  match s.op with
  | .decode => State.complete code { s with fvalid := decide (code = .okFrame) }
  | .await => s.correlate code
  | .none => s

end Sys2Proof.Machine
end

