-- ==== Sys2Proof/Machine/Deframer.lean ====
section
/-! DEFINITION. The deframer (41_decode.md): the micro-steps HUNT and COLLECT, frame completion, and the meaning of DECODE. -/

namespace Sys2Proof.Machine

/-- DECODE (R150, R151): its issue; the micro-steps that follow are the sequencer's. -/
def execDecode (s : State) : Host.Outcome State Fault Refusal :=
  whenIdle s (.next (s.issue .decode .hunt))

/-- Micro-step HUNT (R152, R153, R154). -/
def State.huntStep (s : State) : State :=
  match s.rxq with
  | [] => s.decodeDone .noStartDelimiter
  | b :: q =>
    if b = Config.start then { (s.popped q).clearRxBuf with lastProg := s.now, phase := .collect }
    else s.popped q

/-- `finish_frame()` (R161): `BAD_LENGTH` (R162), `CHECKSUM_MISMATCH` (R163) or `OK_FRAME` (R164). -/
def State.finishFrame (s : State) : State :=
  if s.lenField = 0 then s.clearRxBuf.decodeDone .badLength
  else
    let computed := checksum s.frameType s.framePayload
    if s.chkEn && decide (computed ≠ s.wireChecksum) then
      (State.clearRxBuf { s with rxChk := computed }).decodeDone .checksumMismatch
    else State.decodeDone .okFrame { s with rxChk := computed }

/-- What follows an append in COLLECT (R156, R273): the oversize test when the second length byte is in (R160), then
the completion test (R158). -/
def State.afterStore (s : State) : State :=
  if s.rxCnt = 2 ∧ s.lenField + Config.overhead > Config.cap then s.clearRxBuf.decodeDone .frameTooLarge
  else if s.rxCnt.toNat = s.total then s.finishFrame
  else s

/-- Micro-step COLLECT (R156): an available byte is taken before the inactivity timeout is looked at (R159, R273). -/
def State.collectStep (s : State) : Host.Outcome State Fault Refusal :=
  match s.rxq with
  | b :: q =>
    match (s.popped q).storeByte b with
    | .next s' => .next s'.afterStore
    | .fault f => .fault f
    | .refused r => .refused r
  | [] =>
    match s.elapsedSince s.lastProg with
    | none => .fault .clockBehind
    | some e => if e > s.args.inact then .next (s.clearRxBuf.decodeDone .frameTimeout) else .next s

end Sys2Proof.Machine
end

