-- ==== Sys2Proof/Machine/Correlator.lean ====
section
/-! DEFINITION. The correlator (42_correlator.md): the meanings of SEND_COMMAND, AWAIT_MATCH and AWAIT_MATCH_T0, and the micro-step CHECK. -/

namespace Sys2Proof.Machine

/-- SEND_COMMAND (R190, R191): it writes one AT Command frame to the transport, and neither waits nor reads (R192). -/
def execSendCommand (s : State) : Host.Outcome State Fault Refusal :=
  whenIdle s <| .next <|
    if 3 + s.args.len.toNat > Config.maxPay then { s with res := .encodeTooLong }
    else
      { s.txPush (frameBytes Config.typeAtCommand (s.commandPayload s.args.len.toNat).bytes) with res := .ok }

/-- `M_N` names more comparators than there are (R36, R251). -/
def State.badComparators (s : State) : Bool := decide (Config.nCmp < s.matchRegs.n.toNat)

/-- AWAIT_MATCH (R196): its issue; with `M_N >= 5` it is an illegal command (R251). -/
def execAwaitMatch (s : State) : Host.Outcome State Fault Refusal :=
  whenIdle s <| .next <|
    if s.badComparators then s.illegalCommand else { s.issue .await .check with t0 := s.now }

/-- AWAIT_MATCH_T0 (R197): the issue without the write of `T0`; it has no meaning with `T0 > NOW` (U8). -/
def execAwaitMatchT0 (s : State) : Host.Outcome State Fault Refusal :=
  whenIdle s <|
    if s.badComparators then .next s.illegalCommand
    else if s.now < s.t0 then .refused .startAfterNow
    else .next (s.issue .await .check)

/-- Micro-step CHECK (R198, R203): the deadline test before every decode, strict (R7). -/
def State.checkStep (s : State) : Host.Outcome State Fault Refusal :=
  match s.elapsedSince s.t0 with
  | none => .refused .startAfterNow
  | some e =>
    if e > s.args.timeout then .next (State.complete .timedOut { s with fvalid := false })
    else .next { s with phase := .hunt }

end Sys2Proof.Machine
end

