-- ==== Sys2Proof/Machine/Sequencer.lean ====
section
/-! DEFINITION. The sequencer (10_state.md R27, 20_memory.md R70): one micro-step, and micro-steps taken until the receive stream is read. -/

namespace Sys2Proof.Machine

/-- One micro-step, selected by `OP` and `PHASE` while `BUSY = 1` (R8, R27). An idle sequencer has none to take. -/
def State.microStep (s : State) : Host.Outcome State Fault Refusal :=
  if s.busy then
    match s.op, s.phase with
    | .decode, .hunt => .next s.huntStep
    | .await, .hunt => .next s.huntStep
    | .decode, .collect => s.collectStep
    | .await, .collect => s.collectStep
    | .await, .check => s.checkStep
    | .decode, .check => .fault .noMicroStep
    | .decode, .idle => .fault .noMicroStep
    | .await, .idle => .fault .noMicroStep
    | .none, _ => .fault .noMicroStep
  else .next s

/-- `step n` of R109: `n` micro-steps with nothing of the environment between them. -/
def State.microSteps : Nat → State → Host.Outcome State Fault Refusal
  | 0, s => .next s
  | n + 1, s =>
    match s.microStep with
    | .next s' => State.microSteps n s'
    | .fault f => .fault f
    | .refused r => .refused r

/-- Micro-steps until the operation has ended or `RXQ` is empty, at most `n` of them. -/
def State.drain : Nat → State → Host.Outcome State Fault Refusal
  | 0, s => .next s
  | n + 1, s =>
    if s.busy && !s.rxq.isEmpty then
      match s.microStep with
      | .next s' => State.drain n s'
      | .fault f => .fault f
      | .refused r => .refused r
    else .next s

/-- Every byte takes one micro-step and before it at most one CHECK, so this many micro-steps read a stream of `n`
bytes. -/
def drainFuel (n : Nat) : Nat := 2 * n + 1

/-- Bytes arrive together at the tail of `RXQ` and the sequencer, if it is running, takes micro-steps until it has
read all of `RXQ` or its operation has ended: one admitted schedule of R71. -/
def State.receive (bytes : List Byte) (s : State) : Host.Outcome State Fault Refusal :=
  State.drain (drainFuel (s.rxq.length + bytes.length)) (s.arrive bytes)

end Sys2Proof.Machine
end

