-- ==== Sys2Proof/Machine/Frames.lean ====
section
/-! DEFINITION. The meanings of the FRAME rows: the frame arrives on the wire and the deframer reads it. -/

namespace Sys2Proof.Machine

/-- FRAME (R90, R104): a frame of a type without a row of its own is carried like any other. -/
def execFrame (len : Half) (type : Byte) (body : List Byte) (s : State) : Host.Outcome State Fault Refusal :=
  s.receive (wireBytes len type body)

/-- FRAME.AT_COMMAND (R99). -/
def execAtCommand (len : Half) (body : List Byte) (s : State) : Host.Outcome State Fault Refusal :=
  s.receive (wireBytes len Config.typeAtCommand body)

/-- FRAME.AT_RESPONSE (R100). -/
def execAtResponse (len : Half) (body : List Byte) (s : State) : Host.Outcome State Fault Refusal :=
  s.receive (wireBytes len Config.typeAtResponse body)

/-- FRAME.TX_REQUEST (R102). -/
def execTxRequest (len : Half) (body : List Byte) (s : State) : Host.Outcome State Fault Refusal :=
  s.receive (wireBytes len Config.typeTxRequest body)

/-- FRAME.MODEM_STATUS (R101). -/
def execModemStatus (len : Half) (body : List Byte) (s : State) : Host.Outcome State Fault Refusal :=
  s.receive (wireBytes len Config.typeModemStatus body)

end Sys2Proof.Machine
end

