-- ==== Sys2Proof/Machine/System.lean ====
section
/-! DEFINITION. The meaning of TEARDOWN (44_system_ops.md R252). -/

namespace Sys2Proof.Machine

/-- TEARDOWN (R252): receive state, timestamps and `RES` cleared; configuration, operands and streams kept. -/
def execTeardown (s : State) : Host.Outcome State Fault Refusal :=
  whenIdle s <| .next { s.clearRxBuf with fvalid := false, rxChk := 0, lastProg := 0, t0 := 0, res := .none }

end Sys2Proof.Machine
end

