-- ==== Sys2Proof/Machine/Dispatch.lean ====
section
/-! DEFINITION. exec: one arm per constructor of Instr, each one call of that instruction's meaning. -/

namespace Sys2Proof.Machine

def exec (i : Instr) (s : State) : Host.Outcome State Fault Refusal :=
  match i with
  | .cmdEncode => Sys2Proof.Machine.execEncode s
  | .cmdDecode => Sys2Proof.Machine.execDecode s
  | .sendCommand => Sys2Proof.Machine.execSendCommand s
  | .awaitMatch => Sys2Proof.Machine.execAwaitMatch s
  | .awaitMatchT0 => Sys2Proof.Machine.execAwaitMatchT0 s
  | .teardown => Sys2Proof.Machine.execTeardown s
  | .frame len type body => Sys2Proof.Machine.execFrame len type body s
  | .atCommand len body => Sys2Proof.Machine.execAtCommand len body s
  | .atResponse len body => Sys2Proof.Machine.execAtResponse len body s
  | .txRequest len body => Sys2Proof.Machine.execTxRequest len body s
  | .modemStatus len body => Sys2Proof.Machine.execModemStatus len body s

end Sys2Proof.Machine
end

