-- ==== Sys2Proof/Machine/Registers.lean ====
section
/-! DEFINITION. The register file, numbers 0 to 26 (10_state.md R39), and the host's accesses to it, to RXBUF and to ARGBUF (44_system_ops.md R250 to R257). -/

namespace Sys2Proof.Machine

/-- The registers (R39). -/
inductive Reg where
  | cmd | ctrl | status | argType | argFid | argCmd0 | argCmd1 | argLen | argInact | argTo | mType | mN
  | mOff (i : Fin 4)
  | mVal (i : Fin 4)
  | rxCnt | fType | fLen | rxChk | lastProg | t0 | now
deriving DecidableEq, Repr

/-- The register of a number; 27 and above do not exist (R39). -/
def Reg.ofNumber (n : Nat) : Option Reg :=
  match n with
  | 0 => some .cmd
  | 1 => some .ctrl
  | 2 => some .status
  | 3 => some .argType
  | 4 => some .argFid
  | 5 => some .argCmd0
  | 6 => some .argCmd1
  | 7 => some .argLen
  | 8 => some .argInact
  | 9 => some .argTo
  | 10 => some .mType
  | 11 => some .mN
  | 12 => some (.mOff 0)
  | 13 => some (.mOff 1)
  | 14 => some (.mOff 2)
  | 15 => some (.mOff 3)
  | 16 => some (.mVal 0)
  | 17 => some (.mVal 1)
  | 18 => some (.mVal 2)
  | 19 => some (.mVal 3)
  | 20 => some .rxCnt
  | 21 => some .fType
  | 22 => some .fLen
  | 23 => some .rxChk
  | 24 => some .lastProg
  | 25 => some .t0
  | 26 => some .now
  | _ => none

/-- The value of a register while `BUSY = 0` (R254). `CMD` is write-only and reads 0; the reserved bits of `CTRL` read
0 (R32); `F_TYPE` and `F_LEN` read 0 while `FVALID = 0` (R37). -/
def Reg.read (r : Reg) (s : State) : Nat :=
  match r with
  | .cmd => 0
  | .ctrl => s.chkEn.toNat
  | .status => s.status
  | .argType => s.args.type.toNat
  | .argFid => s.args.fid.toNat
  | .argCmd0 => s.args.cmd0.toNat
  | .argCmd1 => s.args.cmd1.toNat
  | .argLen => s.args.len.toNat
  | .argInact => s.args.inact
  | .argTo => s.args.timeout
  | .mType => s.matchRegs.type.toNat
  | .mN => s.matchRegs.n.toNat
  | .mOff i => (s.matchRegs.off[i]).toNat
  | .mVal i => (s.matchRegs.val[i]).toNat
  | .rxCnt => s.rxCnt.toNat
  | .fType => if s.fvalid then s.frameType.toNat else 0
  | .fLen => if s.fvalid then (be16 (s.rxByte 0) (s.rxByte 1) - 1).toNat else 0
  | .rxChk => s.rxChk.toNat
  | .lastProg => s.lastProg
  | .t0 => s.t0
  | .now => s.now

/-- The effect of a write to a register other than `CMD` while `BUSY = 0`: the value truncated to the register's width
(R254), bit 0 for `CTRL` (R253); a read-only register ignores it (R254). -/
def Reg.write (r : Reg) (v : Nat) (s : State) : State :=
  match r with
  | .cmd => s
  | .ctrl => { s with chkEn := decide (v % 2 = 1) }
  | .status => s
  | .argType => { s with args := { s.args with type := BitVec.ofNat 8 v } }
  | .argFid => { s with args := { s.args with fid := BitVec.ofNat 8 v } }
  | .argCmd0 => { s with args := { s.args with cmd0 := BitVec.ofNat 8 v } }
  | .argCmd1 => { s with args := { s.args with cmd1 := BitVec.ofNat 8 v } }
  | .argLen => { s with args := { s.args with len := BitVec.ofNat 16 v } }
  | .argInact => { s with args := { s.args with inact := v } }
  | .argTo => { s with args := { s.args with timeout := v } }
  | .mType => { s with matchRegs := { s.matchRegs with type := BitVec.ofNat 8 v } }
  | .mN => { s with matchRegs := { s.matchRegs with n := BitVec.ofNat 3 v } }
  | .mOff i => { s with matchRegs := { s.matchRegs with off := s.matchRegs.off.set i (BitVec.ofNat 16 v) } }
  | .mVal i => { s with matchRegs := { s.matchRegs with val := s.matchRegs.val.set i (BitVec.ofNat 8 v) } }
  | .rxCnt => s
  | .fType => s
  | .fLen => s
  | .rxChk => s
  | .lastProg => s
  | .t0 => { s with t0 := v }
  | .now => s

/-- A write of a byte to `CMD` (R250): the command it decodes to; a reserved opcode is an illegal command (R251), and
while `BUSY = 1` no write to `CMD` has a meaning (U6). -/
def issueCommand (c : Byte) (s : State) : Host.Outcome State Fault Refusal :=
  match decodeCommand c with
  | .ok i => exec i s
  | .error _ => whenIdle s (.next s.illegalCommand)

/-- The host writes a register by number (R254): `CMD` starts an operation, a missing register ignores the write,
and while `BUSY = 1` no write has a meaning (R256, U6). -/
def State.hostWrite (reg value : Nat) (s : State) : Host.Outcome State Fault Refusal :=
  if reg = 0 then issueCommand (BitVec.ofNat 8 value) s
  else if s.busy then .refused .writeWhileBusy
  else
    match Reg.ofNumber reg with
    | some r => .next (r.write value s)
    | none => .next s

/-- The host receives a value it read. -/
def State.returnRead (v : Nat) (s : State) : State := { s with host := { s.host with rdata := v } }

/-- A read of anything but `STATUS` while `BUSY = 1` returns any value (R75, U7). -/
def State.returnFree (s : State) : State :=
  State.returnRead (Config.busyRead s.freeReads) { s with freeReads := s.freeReads + 1 }

/-- The host reads a register by number: `STATUS` at any time (R257); the others, and 0 for a missing one, while
`BUSY = 0` (R254). -/
def State.hostRead (reg : Nat) (s : State) : State :=
  if reg = 2 then s.returnRead s.status
  else if s.busy then s.returnFree
  else
    match Reg.ofNumber reg with
    | some r => s.returnRead (r.read s)
    | none => s.returnRead 0

/-- The host reads a byte of `RXBUF` (R255). -/
def State.hostReadRxBuf (i : Nat) (s : State) : State :=
  if s.busy then s.returnFree else s.returnRead (s.rxByte i).toNat

/-- The host reads a byte of `ARGBUF` (R35); an index of `ARGCAP` or above is outside the space. -/
def State.hostReadArgBuf (i : Nat) (s : State) : Host.Outcome State Fault Refusal :=
  if s.busy then .next s.returnFree
  else if i < Config.argCap then .next (s.returnRead (s.argByte i).toNat)
  else .fault .argBufIndex

/-- The host writes bytes of `ARGBUF` from an index on (R35); an index of `ARGCAP` or above is outside the space. -/
def State.hostWriteArgBuf (i : Nat) (bytes : List Byte) (s : State) : Host.Outcome State Fault Refusal :=
  if s.busy then .refused .writeWhileBusy
  else if i + bytes.length ≤ Config.argCap then .next (s.storeArgs i bytes)
  else .fault .argBufIndex

end Sys2Proof.Machine
end

