-- ==== Sys2Proof/Machine/HostAgent.lean ====
section
/-! DEFINITION. The host's turn: the effect of one line of its program (30_encoding.md R109), and the turns of all agents. -/

namespace Sys2Proof.Machine

/-- The host passes over lines of its program. -/
def State.skipLines (n : Nat) (s : State) : State :=
  { s with host := { s.host with prog := s.host.prog.drop n } }

/-- The host copies the LogicalFrame out of the view (R173); without a view the bytes are no frame (R318, U5). -/
def State.copyView (s : State) : Host.Outcome State Fault Refusal :=
  match s.busy, s.view with
  | false, some f => .next { s with host := { s.host with frame := some f } }
  | false, none => .refused .noFrameToView
  | true, _ => .refused .noFrameToView

/-- `WAIT` (R109): the host reads `STATUS`, and reads it again at its next turn while `BUSY = 1`. -/
def State.pollStatus (s : State) : State :=
  let s' := s.returnRead s.status
  if s.busy then { s' with host := { s'.host with prog := HostLine.wait :: s'.host.prog } } else s'

/-- The effect of one host line, which has been taken off the program. -/
def State.hostLine (line : HostLine) (s : State) : Host.Outcome State Fault Refusal :=
  match line with
  | .wr reg value => s.hostWrite reg value
  | .wrBuf bytes => s.hostWriteArgBuf 0 bytes
  | .wrArg index value => s.hostWriteArgBuf index [value]
  | .rd reg => .next (s.hostRead reg)
  | .rdRxBuf index => .next (s.hostReadRxBuf index)
  | .rdArgBuf index => s.hostReadArgBuf index
  | .wait => .next s.pollStatus
  | .copyFrame => s.copyView
  | .keep => .next { s with host := { s.host with kept := s.host.rdata } }
  | .wrKept reg => s.hostWrite reg s.host.kept
  | .skipUnlessMatched n => .next (if s.res = .matched then s else s.skipLines n)
  | .skip n => .next (s.skipLines n)
  | .answer => .next { s with host := { s.host with result := some (decide (s.res = .matched)) } }

/-- The host's turn: the next line of its program, if it has one (R68). -/
def State.hostTurn (s : State) : Host.Outcome State Fault Refusal :=
  match s.host.prog with
  | [] => .next s
  | line :: rest => State.hostLine line { s with host := { s.host with prog := rest } }

/-- Bytes that arrive together and are read: a whole frame is executed; other bytes are read all the same. -/
def State.wireTurn (bytes : List Byte) (s : State) : Host.Outcome State Fault Refusal :=
  match decode (.wire bytes) with
  | .ok i => exec i s
  | .error _ => s.receive bytes

/-- One turn of one agent (R8, R70). -/
def State.takeTurn (t : Turn) (s : State) : Host.Outcome State Fault Refusal :=
  match t with
  | .host => s.hostTurn
  | .sequencer => s.microStep
  | .arrive bytes => .next (s.arrive bytes)
  | .tick d => .next (s.advance d)
  | .wire bytes => s.wireTurn bytes
  | .reset => .next s.afterReset
  | .call lines => .next { s with host := { s.host with prog := s.host.prog ++ lines } }

/-- Turns taken one after the other: a piece of a schedule (R71). -/
def State.takeTurns : List Turn → State → Host.Outcome State Fault Refusal
  | [], s => .next s
  | t :: ts, s =>
    match s.takeTurn t with
    | .next s' => State.takeTurns ts s'
    | .fault f => .fault f
    | .refused r => .refused r

/-- The turn taken next (R71): the first one already decided, else one of the free schedule; and the state from
which it is taken. -/
def State.nextTurn (s : State) : Turn × State :=
  match s.turns with
  | t :: ts => (t, { s with turns := ts })
  | [] => (Config.freeTurn s.freeTurns, { s with freeTurns := s.freeTurns + 1 })

/-- The state whose next turn runs an instruction: a command byte is the host's next line, a frame arrives next. -/
def State.place (e : Encoding) (s : State) : State :=
  match e with
  | .command c =>
    { s with host := { s.host with prog := HostLine.wr 0 c.toNat :: s.host.prog }, turns := Turn.host :: s.turns }
  | .wire bytes => { s with turns := Turn.wire bytes :: s.turns }

end Sys2Proof.Machine
end

