-- ==== Sys2Proof/Machine/HostSequences.lean ====
section
/-! DEFINITION. The host sequences (43_host_sequences.md): each a list of host lines that runs on the block. -/

namespace Sys2Proof.Machine

/-- Register numbers the sequences write (R39). -/
def regCmd : Nat := 0
def regArgType : Nat := 3
def regArgFid : Nat := 4
def regArgCmd0 : Nat := 5
def regArgCmd1 : Nat := 6
def regArgLen : Nat := 7
def regArgInact : Nat := 8
def regArgTo : Nat := 9
def regMType : Nat := 10
def regMN : Nat := 11
def regMOff (i : Nat) : Nat := 12 + i
def regMVal (i : Nat) : Nat := 16 + i
def regT0 : Nat := 25
def regNow : Nat := 26

/-- `CMD mnemonic` (R109): the line that writes the opcode of a command to register 0. -/
def cmdLine (i : Instr) : HostLine :=
  match encode i with
  | .command c => .wr regCmd c.toNat
  | .wire _ => .wr regCmd 0

/-- `WRBUF` of an operand sequence: its bytes, as many as `ARGBUF` has room for (R35). More than that no operation
encodes (R133), so the bytes left out are read by none (log 29). -/
def bufLine (bytes : List Byte) : HostLine := .wrBuf (bytes.take Config.argCap)

/-- `WR ARG_LEN, n` (R221, R230). The register has 16 bits; a length that does not fit is written as 0xFFFF, for which
ENCODE and SEND_COMMAND answer `ENCODE_TOO_LONG` as R231, R191 and R135 say of every longer one (log 29). -/
def lenLine (n : Nat) : HostLine := .wr regArgLen (min n 0xFFFF)

/-- The lines that send an AT command (first half of R221). -/
def sendLines (c0 c1 : Byte) (param : List Byte) : List HostLine :=
  [.wr regArgFid Config.fidWorkflow.toNat, .wr regArgCmd0 c0.toNat, .wr regArgCmd1 c1.toNat,
   bufLine param, lenLine param.length, cmdLine .sendCommand]

/-- The match registers for an AT response to `c0 c1` with status `st` (R195, R221). -/
def responseLines (c0 c1 st : Byte) : List HostLine :=
  [.wr regMType Config.typeAtResponse.toNat, .wr regMN 3,
   .wr (regMOff 0) 1, .wr (regMVal 0) c0.toNat,
   .wr (regMOff 1) 2, .wr (regMVal 1) c1.toNat,
   .wr (regMOff 2) 3, .wr (regMVal 2) st.toNat]

/-- The match registers for a Modem Status frame with indicator `k` (R195, R226). -/
def statusLines (k : Byte) : List HostLine :=
  [.wr regMType Config.typeModemStatus.toNat, .wr regMN 1, .wr (regMOff 0) 0, .wr (regMVal 0) k.toNat]

/-- The timeouts of a wait (R221). -/
def timeoutLines (timeout : Nat) : List HostLine :=
  [.wr regArgTo timeout, .wr regArgInact Config.tInactPoll]

/-- `AT_QUERY(c0, c1, param, s, timeout)` up to its `WAIT` (R221). -/
def atQuery (c0 c1 : Byte) (param : List Byte) (st : Byte) (timeout : Nat) : List HostLine :=
  sendLines c0 c1 param ++ responseLines c0 c1 st ++ timeoutLines timeout ++ [cmdLine .awaitMatch, .wait]

/-- `IS_SHUT_DOWN(timeout)` (R222). -/
def isShutDown (timeout : Nat) : List HostLine :=
  atQuery Config.charA Config.charI [] Config.statusShutDown timeout ++ [.answer]

/-- `IS_CONNECTED(timeout)` (R223). -/
def isConnected (timeout : Nat) : List HostLine :=
  atQuery Config.charA Config.charI [] Config.statusZero timeout ++ [.answer]

/-- `SHUTDOWN(timeout, reboot)` (R225): the result is discarded. -/
def shutdown (timeout : Nat) (reboot : Bool) : List HostLine :=
  atQuery Config.charS Config.charD [if reboot then 0x01 else 0x00] Config.statusZero timeout

/-- The branch of `SAFE_RESET` taken when the modem is shut down: send "FR" and await no response (R226). -/
def forceReset : List HostLine :=
  [.wr regArgFid Config.fidWorkflow.toNat, .wr regArgCmd0 Config.charF.toNat, .wr regArgCmd1 Config.charR.toNat,
   .wr regArgLen 0, cmdLine .sendCommand]

/-- The last wait of `SAFE_RESET`, its deadline measured from `t_start` (R226). -/
def awaitWatchdog (timeout : Nat) : List HostLine :=
  statusLines Config.watchdogReset ++ timeoutLines timeout ++ [.wrKept regT0, cmdLine .awaitMatchT0, .wait]

/-- `SAFE_RESET(timeout)` (R226, R227): inner calls measure from their own start, the last wait from `t_start`. -/
def safeReset (timeout : Nat) : List HostLine :=
  [.rd regNow, .keep]
    ++ atQuery Config.charA Config.charI [] Config.statusShutDown timeout
    ++ [.skipUnlessMatched (forceReset.length + 1)]
    ++ forceReset ++ [.skip (shutdown timeout true).length]
    ++ shutdown timeout true
    ++ awaitWatchdog timeout

/-- `BUILD_TCP_FRAME` (R230): the frame is appended to `ENCOUT`, or, for more than 0xFFF3 bytes of data, ENCODE answers
`ENCODE_TOO_LONG` (R231). -/
def buildTcpFrame (address : BitVec 32) (destPort sourcePort : Half) (protocol options : Byte) (data : List Byte) :
    List HostLine :=
  [bufLine (tcpPayload address destPort sourcePort protocol options data),
   .wr regArgType Config.typeTxRequest.toNat, lenLine (11 + data.length), cmdLine .cmdEncode]

end Sys2Proof.Machine
end

