-- ==== Sys2Proof/Machine/QuietStream.lean ====
section
/-! DEFINITION. `decode_quiet` (41_decode.md R168): the result of a DECODE on a stream to which nothing is added. -/

namespace Sys2Proof.Machine

/-- What is left behind the first `START` of a stream; `none` when it has none. -/
def afterMarker : List Byte → Option (List Byte)
  | [] => none
  | b :: q => if b = Config.start then some q else afterMarker q

/-- The result of `decode_quiet`: an outcome, what is left of `RXQ`, and the frame where the outcome is `OK_FRAME`. -/
structure QuietResult where
  res : Res
  left : List Byte
  frame : Option LogicalFrame
deriving DecidableEq, Repr

/-- `decode_quiet` for the bytes behind the start marker (R168). -/
def decodeBehind (chkEn : Bool) : List Byte → QuietResult
  | h :: l :: r =>
    let len := (be16 h l).toNat
    if len + Config.overhead > Config.cap then ⟨.frameTooLarge, r, none⟩
    else
      match r.drop len with
      | [] => ⟨.frameTimeout, [], none⟩
      | c :: left =>
        match r.take len with
        | [] => ⟨.badLength, left, none⟩
        | type :: payload =>
          if chkEn && decide (c ≠ checksum type payload) then ⟨.checksumMismatch, left, none⟩
          else ⟨.okFrame, left, some ⟨type, payload⟩⟩
  | _ => ⟨.frameTimeout, [], none⟩

/-- `decode_quiet(q)` (R168). -/
def decodeQuiet (chkEn : Bool) (q : List Byte) : QuietResult :=
  match afterMarker q with
  | none => ⟨.noStartDelimiter, [], none⟩
  | some r => decodeBehind chkEn r

end Sys2Proof.Machine
end

