-- ==== Sys2Proof/Machine/Step.lean ====
section
/-! DEFINITION. The step: one turn of one agent; and a state whose next step runs a given instruction. -/

namespace Sys2Proof.Machine

/-- One step (R70, R71): the next turn is taken from the state without it. -/
def step (s : State) : Host.Outcome State Fault Refusal :=
  State.takeTurn s.nextTurn.1 s.nextTurn.2

/-- `s` with an instruction where `step` takes its next one: `nbits` and `w` as in `decodeTableWord`. -/
def State.withFetchWord (s : State) (nbits w : Nat) : State :=
  match tableEncoding nbits w with
  | some e => s.place e
  | none => s

end Sys2Proof.Machine
end

