-- ==== Sys2Proof/Safety.lean ====
section
/-! DEFINITION. What counts as a safe state: the invariants of the spec's prose, in the terms claims use. -/

namespace Sys2Proof.Safety

open Sys2Proof.Machine

/-- `OP = NONE` exactly when `BUSY = 0` exactly when `PHASE = IDLE` (R38), and `CHECK` belongs to the correlator
(R198). -/
abbrev Coherent (s : State) : Prop :=
  (s.op = .none ↔ s.busy = false) ∧ (s.phase = .idle ↔ s.busy = false) ∧ (s.phase = .check → s.op = .await)

/-- `RXBUF` is canonical, holds nothing at or above `RXCNT`, and `RXCNT <= CAP` (R22, R23, R65); while a frame is
collected it is not complete and fits (R157, R158). -/
abbrev ReceiveOk (s : State) : Prop :=
  Memory.wf rxUnlisted s.rxBuf = true ∧ Memory.below s.rxCnt.toNat s.rxBuf = true ∧ s.rxCnt.toNat ≤ Config.cap ∧
    (s.phase = .collect → s.rxCnt.toNat < s.total ∧ s.total ≤ Config.cap)

/-- `ARGBUF` is canonical and holds nothing at or above `ARGCAP` (R35). -/
abbrev OperandsOk (s : State) : Prop :=
  Memory.wf argUnlisted s.argBuf = true ∧ Memory.below Config.argCap s.argBuf = true

/-- No stored time in use lies after `NOW` (R42, U8), and a running wait has at most `NCMP` comparators (R251). -/
abbrev ClockOk (s : State) : Prop :=
  s.lastProg ≤ s.now ∧ (s.op = .await → s.t0 ≤ s.now ∧ s.badComparators = false)

/-- The outcomes that may stand while a frame is valid (R29, R164, R202, R251; 95_test_vectors.md S9 item 5). -/
def viewOutcomes : List Res := [.okFrame, .matched, .ok, .encodeTooLong, .illegalCommand]

/-- `FVALID = 1` only with no operation running, after an outcome that leaves a frame, with the whole frame in the
buffer and its checksum in `RXCHK` (R29, R164). -/
abbrev ViewOk (s : State) : Prop :=
  s.fvalid = true →
    s.busy = false ∧ s.res ∈ viewOutcomes ∧ 1 ≤ s.lenField ∧ s.rxCnt.toNat = s.lenField + Config.overhead ∧
      s.rxChk = checksum s.frameType s.framePayload

/-- A safe state. -/
abbrev Inv (s : State) : Prop := Coherent s ∧ ReceiveOk s ∧ OperandsOk s ∧ ClockOk s ∧ ViewOk s

end Sys2Proof.Safety
end

