-- ==== Sys2Proof/Certificates/Slice0/Obligations.lean ====
section
/-! DEFINITION. The statements for the provers. -/

open Sys2Proof Sys2Proof.Machine Sys2Proof.Safety

/-! ### The step and the decoder -/

/-- A step runs the decoded instruction. When the host's turn is next and its next line writes to `CMD` a byte that
decodes to `i` (R250), the step is `exec i` on the state without that turn and that line; when the bytes that arrive
next decode to `i` (R90), it is `exec i` on the state without that turn. -/
def Obligations.StepRunsDecodedInstruction : Prop :=
  (∀ (s : State) (ts : List Turn) (prog : List HostLine) (v : Nat) (i : Instr),
    s.turns = .host :: ts → s.host.prog = .wr 0 v :: prog → decodeCommand (BitVec.ofNat 8 v) = .ok i →
      step s = exec i { s with turns := ts, host := { s.host with prog := prog } }) ∧
  (∀ (s : State) (ts : List Turn) (bytes : List Byte) (i : Instr),
    s.turns = .wire bytes :: ts → decode (.wire bytes) = .ok i → step s = exec i { s with turns := ts })

/-- The other turns (R8, R70, R71): a micro-step of the sequencer, an arrival, a tick, a reset, lines for the host;
and with no turn decided the turn is the next one of the free schedule (log 1). -/
def Obligations.StepTakesTheNextTurn : Prop :=
  ∀ (s : State) (ts : List Turn),
    (s.turns = .sequencer :: ts → step s = State.microStep { s with turns := ts }) ∧
    (∀ bytes, s.turns = .arrive bytes :: ts → step s = .next { s with turns := ts, rxq := s.rxq ++ bytes }) ∧
    (∀ d, s.turns = .tick d :: ts → step s = .next { s with turns := ts, now := s.now + d }) ∧
    (s.turns = .reset :: ts → step s = .next (State.afterReset { s with turns := ts })) ∧
    (∀ lines, s.turns = .call lines :: ts →
      step s = .next { s with turns := ts, host := { s.host with prog := s.host.prog ++ lines } }) ∧
    (s.turns = .host :: ts → s.host.prog = [] → step s = .next { s with turns := ts }) ∧
    (s.turns = [] →
      step s = State.takeTurn (Config.freeTurn s.freeTurns) { s with freeTurns := s.freeTurns + 1 })

/-- An instruction that is placed where the step takes its next one is the one the step runs. -/
def Obligations.PlacedInstructionRuns : Prop :=
  ∀ (s : State) (nbits w : Nat) (i : Instr),
    decodeTableWord nbits w = some i → step (s.withFetchWord nbits w) = exec i s

/-- A few words written out from R107 and R90 decode to the instructions they stand for. -/
def Obligations.SpecWordsDecode : Prop :=
  decode (.command 0b00000001) = .ok .cmdEncode ∧
  decode (.command 0b00000010) = .ok .cmdDecode ∧
  decode (.command 0b00000011) = .ok .sendCommand ∧
  decode (.command 0b00000100) = .ok .awaitMatch ∧
  decode (.command 0b00000101) = .ok .awaitMatchT0 ∧
  decode (.command 0b00000110) = .ok .teardown ∧
  decode (.wire [0x7E, 0x00, 0x02, 0x33, 0xAB, 0x21]) = .ok (.frame 2 0x33 [0xAB, 0x21]) ∧
  decode (.wire [0x7E, 0x00, 0x04, 0x08, 0x01, 0x41, 0x49, 0x6C]) = .ok (.atCommand 4 [0x01, 0x41, 0x49, 0x6C]) ∧
  decode (.wire [0x7E, 0x00, 0x05, 0x88, 0x01, 0x41, 0x49, 0x00, 0xEC])
    = .ok (.atResponse 5 [0x01, 0x41, 0x49, 0x00, 0xEC]) ∧
  decode (.wire [0x7E, 0x00, 0x01, 0x20, 0xDF]) = .ok (.txRequest 1 [0xDF]) ∧
  decode (.wire [0x7E, 0x00, 0x02, 0x8A, 0x02, 0x73]) = .ok (.modemStatus 2 [0x02, 0x73])

/-- Decode and encode agree: every well-formed instruction, with every operand at every value, is read back from the
bytes that encode it. -/
def Obligations.DecodeOfEncode : Prop :=
  ∀ i : Instr, i.wellFormed = true → decode (encode i) = .ok i

/-- The other direction: what decodes to an instruction is that instruction's encoding, and the instruction is well
formed. No byte sequence has two readings and no reserved one has any. -/
def Obligations.EncodeOfDecode : Prop :=
  ∀ (e : Encoding) (i : Instr), decode e = .ok i → encode i = e ∧ i.wellFormed = true

/-- R92: the bytes on the wire are `LEN + 4`, the start marker, the length field most significant byte first, and
the `LEN` bytes it counts besides the checksum. -/
def Obligations.WireBytesLayout : Prop :=
  ∀ (len : Half) (type : Byte) (body : List Byte), bodyFits len body = true →
    (wireBytes len type body).length = len.toNat + 4 ∧
    wireBytes len type body =
      0x7E :: BitVec.ofNat 8 (len.toNat / 256) :: BitVec.ofNat 8 (len.toNat % 256) :: type :: body

/-! ### Reset -/

/-- R310, R311: the reset event puts every piece of block state to its reset value whatever is running, empties the
records, and leaves `RXQ` and `NOW`; a byte of `ARGBUF` then reads as an unconstrained value (log 6). -/
def Obligations.ResetEventValues : Prop :=
  ∀ s t : State, t = s.afterReset →
    (∀ i, t.rxByte i = 0x00) ∧ t.rxCnt = 0 ∧ t.lastProg = 0 ∧ t.t0 = 0 ∧ t.phase = .idle ∧ t.op = .none ∧
    t.busy = false ∧ t.fvalid = false ∧ t.res = .none ∧ t.rxChk = 0 ∧ t.chkEn = true ∧
    Reg.read .ctrl t = 0x01 ∧ t.status = 0x00 ∧
    (t.args.type = 0 ∧ t.args.fid = 0 ∧ t.args.cmd0 = 0 ∧ t.args.cmd1 = 0 ∧ t.args.len = 0 ∧ t.args.inact = 0 ∧
      t.args.timeout = 0) ∧
    (t.matchRegs.type = 0 ∧ t.matchRegs.n = 0 ∧ ∀ i : Fin 4, t.matchRegs.off[i] = 0 ∧ t.matchRegs.val[i] = 0) ∧
    (∀ i, t.argByte i = Config.argBufUnwritten (s.resets + 1) i) ∧
    t.txq = [] ∧ t.encOut = [] ∧ t.rxq = s.rxq ∧ t.now = s.now

/-- The machine right after reset (R48). The values the spec gives, and the two it leaves open: `RXQ` empty and
`NOW = 0` are the model's choice (log 4, log 5); ARGBUF reads as free values (log 6). -/
def Obligations.ResetStateValues : Prop :=
  (∀ i, State.reset.rxByte i = 0x00) ∧ State.reset.rxCnt = 0 ∧ State.reset.lastProg = 0 ∧ State.reset.t0 = 0 ∧
  State.reset.status = 0x00 ∧ State.reset.op = .none ∧ State.reset.rxChk = 0 ∧ State.reset.chkEn = true ∧
  (∀ n, 3 ≤ n → n ≤ 19 → (State.reset.hostRead n).host.rdata = 0) ∧
  (∀ i, State.reset.argByte i = Config.argBufUnwritten 0 i) ∧
  State.reset.txq = [] ∧ State.reset.encOut = [] ∧ State.reset.rxq = [] ∧ State.reset.now = 0

/-- U12: the choices for `RXQ` and `NOW` at reset lose nothing. One arrival and one tick lead from the reset state to
the same state with any stream and any clock. -/
def Obligations.AnyInitialStreamAndClock : Prop :=
  ∀ (q : List Byte) (n : Nat),
    State.reset.takeTurns [.arrive q, .tick n] = .next { State.reset with rxq := q, now := n }

/-! ### The framer -/

/-- R130: 0xFF minus the sum of the type and payload bytes mod 256, itself taken mod 256. -/
def Obligations.ChecksumIsComplementOfSum : Prop :=
  ∀ (type : Byte) (payload : List Byte),
    (checksum type payload).toNat = (0xFF - (type.toNat + (payload.map BitVec.toNat).sum) % 256) % 256

/-- R131: the verification identity. -/
def Obligations.ChecksumVerification : Prop :=
  ∀ (c type : Byte) (payload : List Byte),
    c = checksum type payload ↔ (type.toNat + (payload.map BitVec.toNat).sum + c.toNat) % 256 = 0xFF

/-- R133: what `encode` returns, that it has `len(payload) + 5` bytes, and that it has no value for a payload longer
than 0xFFFE. -/
def Obligations.EncodeFrameLayout : Prop :=
  ∀ (type : Byte) (payload : List Byte),
    (payload.length ≤ 0xFFFE → ∃ bytes, encodeFrame type payload = some bytes ∧
      bytes = [0x7E, BitVec.ofNat 8 ((payload.length + 1) / 256), BitVec.ofNat 8 ((payload.length + 1) % 256), type]
        ++ payload ++ [checksum type payload] ∧
      bytes.length = payload.length + 5) ∧
    (0xFFFE < payload.length → encodeFrame type payload = none)

/-- R134, R135: ENCODE appends the encoding of its operands to `ENCOUT` and sets `RES`, or, for `ARG_LEN = 0xFFFF`,
only sets `RES`; nothing else changes. A write of 0x01 to `CMD` is that step. -/
def Obligations.EncodeResult : Prop :=
  ∀ s : State, s.busy = false →
    s.hostWrite 0 0x01 = exec .cmdEncode s ∧
    (s.args.len ≠ 0xFFFF → ∃ bytes, encodeFrame s.args.type (s.argBytes s.args.len.toNat) = some bytes ∧
      exec .cmdEncode s = .next { s with encOut := s.encOut ++ bytes, res := .ok }) ∧
    (s.args.len = 0xFFFF → exec .cmdEncode s = .next { s with res := .encodeTooLong })

/-- R190, R191: SEND_COMMAND appends the AT Command frame of its operands to `TXQ` and sets `RES`, or, for
`ARG_LEN > 0xFFFB`, only sets `RES`; nothing else changes, so it neither reads nor waits (R192). The frame has
`ARG_LEN + 8` bytes and the length field `ARG_LEN + 4`. A write of 0x03 to `CMD` is that step. -/
def Obligations.SendCommandResult : Prop :=
  ∀ s : State, s.busy = false →
    s.hostWrite 0 0x03 = exec .sendCommand s ∧
    (s.args.len.toNat ≤ 0xFFFB → ∃ bytes,
      encodeFrame 0x08 ([s.args.fid, s.args.cmd0, s.args.cmd1] ++ s.argBytes s.args.len.toNat) = some bytes ∧
      bytes.length = s.args.len.toNat + 8 ∧
      bytes[1]? = some (BitVec.ofNat 8 ((s.args.len.toNat + 4) / 256)) ∧
      bytes[2]? = some (BitVec.ofNat 8 ((s.args.len.toNat + 4) % 256)) ∧
      exec .sendCommand s = .next { s with txq := s.txq ++ bytes, res := .ok }) ∧
    (0xFFFB < s.args.len.toNat → exec .sendCommand s = .next { s with res := .encodeTooLong })

/-- R99: the frame SEND_COMMAND transmits is an instruction of the row FRAME.AT_COMMAND with `LEN = 4 + len(param)`,
whose payload reads back as frame id, command characters and parameter. -/
def Obligations.SentFrameIsAtCommand : Prop :=
  ∀ p : AtCommandPayload, p.param.length ≤ 0xFFFB →
    decode (.wire (frameBytes Config.typeAtCommand p.bytes)) =
      .ok (.atCommand (BitVec.ofNat 16 (4 + p.param.length)) (p.bytes ++ [checksum Config.typeAtCommand p.bytes])) ∧
    AtCommandPayload.ofBytes p.bytes = some p

/-- R99 to R102: each payload layout reads back what it lays out, and lays out again what it read. -/
def Obligations.PayloadLayoutsReadBack : Prop :=
  (∀ p bs, AtCommandPayload.ofBytes bs = some p ↔ p.bytes = bs) ∧
  (∀ p bs, AtResponsePayload.ofBytes bs = some p ↔ p.bytes = bs) ∧
  (∀ p bs, ModemStatusPayload.ofBytes bs = some p ↔ p.bytes = bs) ∧
  (∀ p bs, TxRequestPayload.ofBytes bs = some p ↔ p.bytes = bs)

/-- R229: the frame payload of BUILD_TCP_FRAME has exactly `11 + len(payload)` bytes, every multi-byte field most
significant byte first, and the encoded frame has `16 + len(payload)` bytes. R231: there is none for more than 0xFFF3
bytes of data. R230: the host lines of BUILD_TCP_FRAME, done turn by turn, append that encoding to `ENCOUT`; for longer
data of any length ENCODE answers `ENCODE_TOO_LONG` and nothing is emitted. `ARG_TYPE` and `ARG_LEN` are written, the
bytes of `ARGBUF` behind the frame payload read as before, and nothing else changes. How the host writes more bytes than `ARGBUF` or `ARG_LEN` can hold is the model's choice (log 29). -/
def Obligations.TcpPayloadLayout : Prop :=
  ∀ (address : BitVec 32) (destPort sourcePort : Half) (protocol options : Byte) (data : List Byte),
    tcpPayload address destPort sourcePort protocol options data =
      [0x00, BitVec.ofNat 8 (address.toNat / 16777216), BitVec.ofNat 8 (address.toNat / 65536),
        BitVec.ofNat 8 (address.toNat / 256), BitVec.ofNat 8 address.toNat,
        BitVec.ofNat 8 (destPort.toNat / 256), BitVec.ofNat 8 destPort.toNat,
        BitVec.ofNat 8 (sourcePort.toNat / 256), BitVec.ofNat 8 sourcePort.toNat, protocol, options] ++ data ∧
    (tcpPayload address destPort sourcePort protocol options data).length = 11 + data.length ∧
    (data.length ≤ 0xFFF3 →
      ∃ bytes, encodeFrame 0x20 (tcpPayload address destPort sourcePort protocol options data) = some bytes ∧
        bytes.length = 16 + data.length) ∧
    (0xFFF3 < data.length → encodeFrame 0x20 (tcpPayload address destPort sourcePort protocol options data) = none) ∧
    ∀ (s : State) (rest : List HostLine), s.busy = false →
      s.host.prog = buildTcpFrame address destPort sourcePort protocol options data ++ rest →
      ∃ t, s.takeTurns (List.replicate 4 .host) = .next t ∧
        t = { s with args := { s.args with type := 0x20, len := BitVec.ofNat 16 (min (11 + data.length) 0xFFFF) },
                     argBuf := t.argBuf, encOut := t.encOut, res := t.res, host := { s.host with prog := rest } } ∧
        (∀ j, t.argByte j =
          (((tcpPayload address destPort sourcePort protocol options data).take 0xFFFF)[j]?).getD (s.argByte j)) ∧
        (data.length ≤ 0xFFF3 → t.res = .ok ∧
          ∃ bytes, encodeFrame 0x20 (tcpPayload address destPort sourcePort protocol options data) = some bytes ∧
            t.encOut = s.encOut ++ bytes) ∧
        (0xFFF3 < data.length → t.res = .encodeTooLong ∧ t.encOut = s.encOut)

/-! ### Issue of commands -/

/-- R151: the issue of DECODE, by a write of 0x02 to `CMD`; nothing else changes, neither `RXBUF` and `RXCNT` nor
`RES`. -/
def Obligations.DecodeIssue : Prop :=
  ∀ s : State, s.busy = false →
    s.hostWrite 0 0x02 = exec .cmdDecode s ∧
    exec .cmdDecode s = .next { s with fvalid := false, op := .decode, busy := true, phase := .hunt }

/-- R196: the issue of AWAIT_MATCH with at most four comparators, by a write of 0x04 to `CMD`; nothing else changes. -/
def Obligations.AwaitMatchIssue : Prop :=
  ∀ s : State, s.busy = false → s.matchRegs.n.toNat ≤ 4 →
    s.hostWrite 0 0x04 = exec .awaitMatch s ∧
    exec .awaitMatch s =
      .next { s with fvalid := false, t0 := s.now, op := .await, busy := true, phase := .check }

/-- R197: the issue of AWAIT_MATCH_T0 leaves `T0`; a deadline already passed ends it with `TIMED_OUT` at the first
micro-step without reading a byte; with `T0 > NOW` it has no meaning (U8, log 10). -/
def Obligations.AwaitMatchT0Issue : Prop :=
  ∀ s : State, s.busy = false → s.matchRegs.n.toNat ≤ 4 →
    s.hostWrite 0 0x05 = exec .awaitMatchT0 s ∧
    (s.t0 ≤ s.now →
      exec .awaitMatchT0 s = .next { s with fvalid := false, op := .await, busy := true, phase := .check }) ∧
    (s.t0 ≤ s.now → s.args.timeout < s.now - s.t0 →
      State.microStep { s with fvalid := false, op := .await, busy := true, phase := .check } =
        .next { s with fvalid := false, op := .none, busy := false, phase := .idle, res := .timedOut }) ∧
    (s.now < s.t0 → exec .awaitMatchT0 s = .refused .startAfterNow)

/-- R252: TEARDOWN, by a write of 0x06 to `CMD`; the configuration, the operand and match registers, `ARGBUF` and the streams are not changed. -/
def Obligations.TeardownResult : Prop :=
  ∀ s : State, s.busy = false → s.hostWrite 0 0x06 = exec .teardown s ∧ ∃ t, exec .teardown s = .next t ∧
    (∀ i, t.rxByte i = 0x00) ∧
    t = { s with rxBuf := [], rxCnt := 0, fvalid := false, rxChk := 0, lastProg := 0, t0 := 0, res := .none }

/-- R251: a write to `CMD` of a reserved opcode, or of a wait with `M_N >= 5`, sets `RES` and changes nothing else. -/
def Obligations.IllegalCommandOnlySetsRes : Prop :=
  ∀ s : State, s.busy = false →
    (∀ c : Byte, c = 0x00 ∨ 0x07 ≤ c.toNat →
      s.hostWrite 0 c.toNat = .next { s with res := .illegalCommand }) ∧
    (5 ≤ s.matchRegs.n.toNat →
      exec .awaitMatch s = .next { s with res := .illegalCommand } ∧
      exec .awaitMatchT0 s = .next { s with res := .illegalCommand } ∧
      s.hostWrite 0 0x04 = .next { s with res := .illegalCommand } ∧
      s.hostWrite 0 0x05 = .next { s with res := .illegalCommand })

/-- U6: while `BUSY = 1` the model gives no meaning to a write to `CMD`, to another register or to `ARGBUF` (log 9). -/
def Obligations.BusyWritesAreRefused : Prop :=
  ∀ s : State, s.busy = true →
    (∀ v, s.hostWrite 0 v = .refused .commandWhileBusy) ∧
    (∀ reg v, reg ≠ 0 → s.hostWrite reg v = .refused .writeWhileBusy) ∧
    (∀ i bytes, s.hostWriteArgBuf i bytes = .refused .writeWhileBusy)

/-- R75, U7: while `BUSY = 1` a read of `STATUS` is defined, and a read of anything else, of another register, of `RXBUF`
or of `ARGBUF`, returns an unconstrained value (log 8) and changes nothing of the block. -/
def Obligations.BusyReads : Prop :=
  ∀ s : State, s.busy = true →
    s.hostRead 2 = { s with host := { s.host with rdata := s.status } } ∧
    (∀ reg, reg ≠ 2 → s.hostRead reg =
      { s with host := { s.host with rdata := Config.busyRead s.freeReads }, freeReads := s.freeReads + 1 }) ∧
    (∀ i, s.hostReadRxBuf i =
      { s with host := { s.host with rdata := Config.busyRead s.freeReads }, freeReads := s.freeReads + 1 }) ∧
    (∀ i, s.hostReadArgBuf i =
      .next { s with host := { s.host with rdata := Config.busyRead s.freeReads }, freeReads := s.freeReads + 1 })

/-! ### Registers and memories as the host sees them -/

/-- R254, R253: a read changes nothing of the block; the read-only registers read their values; a write to a read-write
register stores the value truncated to the register's width; a write to a read-only register is ignored; `CMD` reads 0; a
register number of 27 and above reads 0 and ignores writes. That the time registers 8, 9 and 25 keep the value whole is
the model's choice, since their width `TW` is open (R5, D9; log 11). -/
def Obligations.RegisterReadBack : Prop :=
  ∀ (s : State) (v : Nat), s.busy = false →
    (∀ n ∈ [3, 4, 5, 6, 10, 16, 17, 18, 19], ∃ t, s.hostWrite n v = .next t ∧ (t.hostRead n).host.rdata = v % 256) ∧
    (∀ n ∈ [7, 12, 13, 14, 15], ∃ t, s.hostWrite n v = .next t ∧ (t.hostRead n).host.rdata = v % 65536) ∧
    (∀ n ∈ [8, 9, 25], ∃ t, s.hostWrite n v = .next t ∧ (t.hostRead n).host.rdata = v) ∧
    (∃ t, s.hostWrite 11 v = .next t ∧ (t.hostRead 11).host.rdata = v % 8) ∧
    (∃ t, s.hostWrite 1 v = .next t ∧ (t.hostRead 1).host.rdata = v % 2) ∧
    (∀ n ∈ [2, 20, 21, 22, 23, 24, 26], s.hostWrite n v = .next s) ∧
    ((s.hostRead 20).host.rdata = s.rxCnt.toNat ∧ (s.hostRead 23).host.rdata = s.rxChk.toNat ∧
      (s.hostRead 24).host.rdata = s.lastProg ∧ (s.hostRead 26).host.rdata = s.now) ∧
    (∀ n, s.hostRead n = { s with host := { s.host with rdata := (s.hostRead n).host.rdata } }) ∧
    (∀ n, 27 ≤ n → s.hostWrite n v = .next s ∧ (s.hostRead n).host.rdata = 0) ∧
    (s.hostRead 0).host.rdata = 0

/-- The frame of a register write while `BUSY = 0`: every other register reads as before, and no memory, stream,
timestamp or flag changes. -/
def Obligations.RegisterWriteFrame : Prop :=
  ∀ (s t : State) (n v : Nat), s.busy = false → n ≠ 0 → s.hostWrite n v = .next t →
    (∀ m, m ≠ n → (t.hostRead m).host.rdata = (s.hostRead m).host.rdata) ∧
    t.rxBuf = s.rxBuf ∧ t.argBuf = s.argBuf ∧ t.rxq = s.rxq ∧ t.txq = s.txq ∧ t.encOut = s.encOut ∧
    t.op = s.op ∧ t.phase = s.phase ∧ t.busy = s.busy ∧ t.fvalid = s.fvalid ∧ t.res = s.res ∧
    t.host = s.host ∧ t.turns = s.turns

/-- R257, R33: what a read of `STATUS` returns, at any time; and the numbers of the outcomes (R270) and of the phases
(R27) in it. -/
def Obligations.StatusFields : Prop :=
  (∀ s : State,
    (s.hostRead 2).host.rdata =
      (s.res.code <<< 4) ||| (s.phase.code <<< 2) ||| (s.fvalid.toNat <<< 1) ||| s.busy.toNat) ∧
  (Phase.code .idle = 0 ∧ Phase.code .hunt = 1 ∧ Phase.code .collect = 2 ∧ Phase.code .check = 3) ∧
  (Res.code .none = 0 ∧ Res.code .ok = 1 ∧ Res.code .okFrame = 2 ∧ Res.code .noStartDelimiter = 3 ∧
    Res.code .frameTimeout = 4 ∧ Res.code .frameTooLarge = 5 ∧ Res.code .checksumMismatch = 6 ∧
    Res.code .badLength = 7 ∧ Res.code .matched = 8 ∧ Res.code .timedOut = 9 ∧ Res.code .encodeTooLong = 10 ∧
    Res.code .illegalCommand = 11)

/-- R37: in a safe state `F_TYPE` and `F_LEN` read the frame's type and payload length while `FVALID = 1`, and 0 while
`FVALID = 0`; a write to them is ignored. -/
def Obligations.ViewRegisters : Prop :=
  ∀ s : State, Inv s → s.busy = false →
    (∀ v, s.hostWrite 21 v = .next s ∧ s.hostWrite 22 v = .next s) ∧
    (s.fvalid = true →
      (s.hostRead 21).host.rdata = (s.rxByte 2).toNat ∧
      (s.hostRead 22).host.rdata = (be16 (s.rxByte 0) (s.rxByte 1)).toNat - 1) ∧
    (s.fvalid = false → (s.hostRead 21).host.rdata = 0 ∧ (s.hostRead 22).host.rdata = 0)

/-- R170, U5: the host copies the frame out of the view while `FVALID = 1`, byte `3 + i` of the buffer as payload byte
`i`; without a valid frame the bytes are no frame (log 22). -/
def Obligations.CopyOfTheView : Prop :=
  ∀ s : State, s.busy = false →
    (s.fvalid = true → ∃ f, s.copyView = .next { s with host := { s.host with frame := some f } } ∧
      f.type = s.rxByte 2 ∧ f.payload.length = s.lenField - 1 ∧
      ∀ i, i < s.lenField - 1 → f.payload[i]? = some (s.rxByte (3 + i))) ∧
    (s.fvalid = false → s.copyView = .refused .noFrameToView)

/-- R255: a host read of `RXBUF` while `BUSY = 0` returns the byte and changes nothing of the block; an index of `CAP`
or above reads 0. -/
def Obligations.ReceiveBufferReads : Prop :=
  ∀ (s : State) (i : Nat), s.busy = false →
    s.hostReadRxBuf i = { s with host := { s.host with rdata := (s.rxByte i).toNat } } ∧
    (1800 ≤ i → (s.hostReadRxBuf i).host.rdata = 0)

/-- R35, R63: bytes written to `ARGBUF` read back, the others read as before and nothing but `ARGBUF` changes, and a byte nothing has written since reset
is an unconstrained value (U9, log 6). A host read returns the byte and changes nothing of the block. An access at an
index of 0xFFFF or above, which the memory does not have, is a fault; that is the model's choice (log 7). -/
def Obligations.OperandMemory : Prop :=
  (∀ (s t : State) (i : Nat) (bytes : List Byte), s.hostWriteArgBuf i bytes = .next t →
    t = { s with argBuf := t.argBuf } ∧
    ∀ j, t.argByte j = (bytes[j - i]?.filter fun _ => decide (i ≤ j)).getD (s.argByte j)) ∧
  (∀ (s : State) (i : Nat), Memory.read s.argBuf i = none → s.argByte i = Config.argBufUnwritten s.resets i) ∧
  (∀ (s : State) (i : Nat) (bytes : List Byte), s.busy = false → i + bytes.length ≤ 0xFFFF →
    ∃ t, s.hostWriteArgBuf i bytes = .next t) ∧
  (∀ (s : State) (i : Nat) (bytes : List Byte), s.busy = false → 0xFFFF < i + bytes.length →
    s.hostWriteArgBuf i bytes = .fault .argBufIndex) ∧
  (∀ (s : State) (i : Nat), s.busy = false → i < 0xFFFF →
    s.hostReadArgBuf i = .next { s with host := { s.host with rdata := (s.argByte i).toNat } }) ∧
  (∀ (s : State) (i : Nat), s.busy = false → 0xFFFF ≤ i → s.hostReadArgBuf i = .fault .argBufIndex)

/-- R67, R255: the host cannot write `RXBUF`. A turn of the host leaves it and `RXCNT` as they are, unless it is a
write of TEARDOWN to `CMD`, which clears them (R252). -/
def Obligations.HostCannotWriteReceiveBuffer : Prop :=
  ∀ s t : State, s.hostTurn = .next t →
    (t.rxBuf = s.rxBuf ∧ t.rxCnt = s.rxCnt) ∨
    (t.rxBuf = [] ∧ t.rxCnt = 0 ∧ ∃ rest,
      (∃ v, v % 256 = 0x06 ∧ s.host.prog = .wr 0 v :: rest) ∨
      (s.host.kept % 256 = 0x06 ∧ s.host.prog = .wrKept 0 :: rest))

/-! ### Micro-steps -/

/-- R152, R153: the micro-step HUNT. -/
def Obligations.HuntMicroStep : Prop :=
  ∀ s : State, s.busy = true → s.phase = .hunt →
    (s.rxq = [] → s.op = .decode →
      s.microStep = .next { s with fvalid := false, res := .noStartDelimiter, busy := false, phase := .idle, op := .none }) ∧
    (s.rxq = [] → s.op = .await → s.microStep = .next { s with fvalid := false, phase := .check }) ∧
    (∀ b q, s.rxq = b :: q → b ≠ 0x7E → s.op ≠ .none → s.microStep = .next { s with rxq := q }) ∧
    (∀ q, s.rxq = 0x7E :: q → s.op ≠ .none →
      s.microStep = .next { s with rxq := q, rxBuf := [], rxCnt := 0, lastProg := s.now, phase := .collect })

/-- R156, R157: a COLLECT micro-step with a byte available stores it at index `RXCNT` whatever the time, and goes on
collecting when the frame is neither too large nor complete. -/
def Obligations.CollectMicroStepStores : Prop :=
  ∀ (s u : State) (b : Byte) (q : List Byte),
    Inv s → s.busy = true → s.phase = .collect → s.rxq = b :: q →
    u = { s with rxq := q, rxBuf := Memory.write rxUnlisted s.rxBuf s.rxCnt.toNat b, rxCnt := s.rxCnt + 1,
                 lastProg := s.now } →
    (∀ i, u.rxByte i = if i = s.rxCnt.toNat then b else s.rxByte i) ∧
    u.rxCnt.toNat = s.rxCnt.toNat + 1 ∧
    (¬ (u.rxCnt = 2 ∧ u.lenField + 3 > 1800) → u.rxCnt.toNat ≠ u.total → s.microStep = .next u)

/-- R160: a length field of 1798 or more ends the decode in the micro-step that stores its second byte, with
`FRAME_TOO_LARGE` for a DECODE and without a record inside a wait; the rest of the frame stays in `RXQ`. A length field
of 1797 or less is collected. -/
def Obligations.OversizedFrameEnds : Prop :=
  ∀ (s : State) (h l : Byte) (q : List Byte),
    s.busy = true → s.phase = .collect → s.rxCnt = 1 → s.rxBuf = Memory.write rxUnlisted [] 0 h → s.rxq = l :: q →
    (1798 ≤ (be16 h l).toNat → s.op = .decode →
      s.microStep = .next { s with rxq := q, rxBuf := [], rxCnt := 0, lastProg := s.now, fvalid := false,
                                   res := .frameTooLarge, busy := false, phase := .idle, op := .none }) ∧
    (1798 ≤ (be16 h l).toNat → s.op = .await →
      s.microStep = .next { s with rxq := q, rxBuf := [], rxCnt := 0, lastProg := s.now, fvalid := false,
                                   phase := .check }) ∧
    ((be16 h l).toNat ≤ 1797 → s.op ≠ .none →
      s.microStep = .next { s with rxq := q, rxBuf := Memory.write rxUnlisted s.rxBuf 1 l, rxCnt := 2,
                                   lastProg := s.now })

/-- R161 to R164, R200: the end of a frame in a DECODE and inside a wait, with `u` the state after its last byte is
stored and `v` the same state with the computed checksum in `RXCHK`. -/
def Obligations.FrameCompletion : Prop :=
  ∀ (s u v : State) (b : Byte) (q : List Byte),
    s.busy = true → s.phase = .collect → s.rxCnt.toNat < 1800 → s.rxq = b :: q →
    u = { s with rxq := q, rxBuf := Memory.write rxUnlisted s.rxBuf s.rxCnt.toNat b, rxCnt := s.rxCnt + 1,
                 lastProg := s.now } →
    v = { u with rxChk := checksum (u.rxByte 2) u.framePayload } →
    u.rxCnt.toNat = u.lenField + 3 →
    (u.lenField = 0 →
      (s.op = .decode → s.microStep = .next { u with rxBuf := [], rxCnt := 0, fvalid := false, res := .badLength,
                                                     busy := false, phase := .idle, op := .none }) ∧
      (s.op = .await → s.microStep = .next { u with rxBuf := [], rxCnt := 0, fvalid := false, phase := .check })) ∧
    (u.lenField ≠ 0 → s.chkEn = true → v.rxChk ≠ u.rxByte (u.lenField + 2) →
      (s.op = .decode → s.microStep = .next { v with rxBuf := [], rxCnt := 0, fvalid := false, res := .checksumMismatch,
                                                     busy := false, phase := .idle, op := .none }) ∧
      (s.op = .await → s.microStep = .next { v with rxBuf := [], rxCnt := 0, fvalid := false, phase := .check })) ∧
    (u.lenField ≠ 0 → s.chkEn = false ∨ v.rxChk = u.rxByte (u.lenField + 2) →
      (s.op = .decode → s.microStep = .next { v with fvalid := true, res := .okFrame, busy := false, phase := .idle,
                                                     op := .none }) ∧
      (s.op = .await → u.matches = true →
        s.microStep = .next { v with fvalid := true, res := .matched, busy := false, phase := .idle, op := .none }) ∧
      (s.op = .await → u.matches = false → s.microStep = .next { v with fvalid := false, phase := .check }))

/-- R159, R7: a COLLECT micro-step that finds `RXQ` empty ends the decode when more than `ARG_INACT` ticks have passed
since `LASTPROG`, with `FRAME_TIMEOUT` for a DECODE and without a record inside a wait, and changes nothing otherwise. -/
def Obligations.CollectTimesOut : Prop :=
  ∀ s : State, s.busy = true → s.phase = .collect → s.op ≠ .none → s.rxq = [] → s.lastProg ≤ s.now →
    (s.args.inact < s.now - s.lastProg → s.op = .decode →
      s.microStep = .next { s with rxBuf := [], rxCnt := 0, fvalid := false, res := .frameTimeout, busy := false,
                                   phase := .idle, op := .none }) ∧
    (s.args.inact < s.now - s.lastProg → s.op = .await →
      s.microStep = .next { s with rxBuf := [], rxCnt := 0, fvalid := false, phase := .check }) ∧
    (s.now - s.lastProg ≤ s.args.inact → s.microStep = .next s)

/-- R198, R203: the micro-step CHECK. -/
def Obligations.CheckMicroStep : Prop :=
  ∀ s : State, s.busy = true → s.phase = .check → s.op = .await → s.t0 ≤ s.now →
    (s.args.timeout < s.now - s.t0 →
      s.microStep = .next { s with fvalid := false, res := .timedOut, busy := false, phase := .idle, op := .none }) ∧
    (s.now - s.t0 ≤ s.args.timeout → s.microStep = .next { s with phase := .hunt })

/-- R150, R200, R201: `decode_done(code)`. A DECODE completes with the code; a wait is matched, or the decode's outcome
is dropped and the next deadline test follows. -/
def Obligations.EndOfDecode : Prop :=
  ∀ (s : State) (code : Res),
    (s.op = .decode → s.decodeDone code =
      { s with fvalid := decide (code = .okFrame), res := code, busy := false, phase := .idle, op := .none }) ∧
    (s.op = .await → code = .okFrame → s.matches = true →
      s.decodeDone code = { s with fvalid := true, res := .matched, busy := false, phase := .idle, op := .none }) ∧
    (s.op = .await → code ≠ .okFrame ∨ s.matches = false →
      s.decodeDone code = { s with fvalid := false, phase := .check })

/-- R193, R194: the predicate of the match unit, as a statement about the type and the payload alone. -/
def Obligations.PredicateMeaning : Prop :=
  ∀ s : State, s.matchRegs.n.toNat ≤ 4 →
    (s.matches = true ↔
      s.frameType = s.matchRegs.type ∧
      ∀ i : Fin 4, i.val < s.matchRegs.n.toNat →
        s.framePayload[(s.matchRegs.off[i]).toNat]? = some s.matchRegs.val[i])

/-- R195: the two register settings of the source's predicates, in terms of the payload layouts of R100 and R101. -/
def Obligations.SourcePredicates : Prop :=
  (∀ (s : State) (c0 c1 st x : Byte) (y : Half),
    s.matchRegs = { type := 0x88, n := 3, off := #v[1, 2, 3, y], val := #v[c0, c1, st, x] } →
    (s.matches = true ↔ s.frameType = 0x88 ∧ ∃ p, AtResponsePayload.ofBytes s.framePayload = some p ∧
      p.cmdChar0 = c0 ∧ p.cmdChar1 = c1 ∧ p.status = st)) ∧
  (∀ (s : State) (k x1 x2 x3 : Byte) (y1 y2 y3 : Half),
    s.matchRegs = { type := 0x8A, n := 1, off := #v[0, y1, y2, y3], val := #v[k, x1, x2, x3] } →
    (s.matches = true ↔ s.frameType = 0x8A ∧ ∃ p, ModemStatusPayload.ofBytes s.framePayload = some p ∧
      p.statusCode = k))

/-- R70, R34, R41: what a micro-step leaves alone. It takes at most one byte, from the head of `RXQ`, and changes
neither the clock nor an operand, a match register, `CTRL`, `T0`, `ARGBUF`, a record, the host or the schedule. -/
def Obligations.MicroStepFrame : Prop :=
  ∀ s t : State, s.microStep = .next t →
    (t.rxq = s.rxq ∨ ∃ b, s.rxq = b :: t.rxq) ∧
    t.now = s.now ∧ t.args = s.args ∧ t.matchRegs = s.matchRegs ∧ t.chkEn = s.chkEn ∧ t.t0 = s.t0 ∧
    t.argBuf = s.argBuf ∧ t.txq = s.txq ∧ t.encOut = s.encOut ∧ t.host = s.host ∧ t.turns = s.turns ∧
    t.freeTurns = s.freeTurns ∧ t.freeReads = s.freeReads ∧ t.resets = s.resets

/-- R167, R205: the transitions of `PHASE` a micro-step makes while an operation runs; there is no other. -/
def Obligations.PhaseTransitions : Prop :=
  ∀ s t : State, s.busy = true → s.microStep = .next t →
    (s.op = .decode → s.phase = .hunt → t.phase = .idle ∨ t.phase = .hunt ∨ t.phase = .collect) ∧
    (s.op = .decode → s.phase = .collect → t.phase = .idle ∨ t.phase = .collect) ∧
    (s.op = .await → s.phase = .hunt → t.phase = .check ∨ t.phase = .hunt ∨ t.phase = .collect) ∧
    (s.op = .await → s.phase = .collect →
      t.phase = .check ∨ t.phase = .collect ∨ (t.phase = .idle ∧ t.res = .matched)) ∧
    (s.op = .await → s.phase = .check → t.phase = .hunt ∨ (t.phase = .idle ∧ t.res = .timedOut)) ∧
    (t.phase = .idle ↔ t.busy = false)

/-! ### Frames as instructions -/

/-- R68, R317: with no operation running, a frame that arrives waits in `RXQ`, whatever its type, and changes nothing
else. -/
def Obligations.FrameWaitsWhileIdle : Prop :=
  ∀ (s : State) (i : Instr) (len : Half) (type : Byte) (body : List Byte),
    s.busy = false → i.frameParts = some (len, type, body) →
    exec i s = .next { s with rxq := s.rxq ++ wireBytes len type body }

/-- R71: the meaning of a frame is one admitted schedule: its bytes arrive, and the sequencer takes some number of
micro-steps, going on until `RXQ` is read or the operation has ended. -/
def Obligations.FrameIsMicroSteps : Prop :=
  ∀ (s : State) (i : Instr) (len : Half) (type : Byte) (body : List Byte),
    i.frameParts = some (len, type, body) →
    (∃ n, exec i s = State.microSteps n { s with rxq := s.rxq ++ wireBytes len type body }) ∧
    ∀ t, exec i s = .next t → t.busy = false ∨ t.rxq = []

/-- No outcome of this hardware is a stop: in every safe state a frame of any row, length, type and checksum is
answered with a next state. -/
def Obligations.EveryFrameCompletes : Prop :=
  ∀ (s : State) (i : Instr), Inv s → i.frameParts ≠ none → ∃ t, exec i s = .next t

/-- R164: a whole frame that arrives while a DECODE hunts on an empty stream, with a length field of 1 to 1797 and a
checksum that is right or not checked, is delivered; nothing else changes. -/
def Obligations.GoodFrameIsDelivered : Prop :=
  ∀ (s : State) (i : Instr) (len : Half) (type c : Byte) (payload : List Byte),
    s.busy = true → s.op = .decode → s.phase = .hunt → s.rxq = [] →
    i.frameParts = some (len, type, payload ++ [c]) → i.wellFormed = true → len.toNat ≤ 1797 →
    s.chkEn = false ∨ c = checksum type payload →
    ∃ t, exec i s = .next t ∧ t.res = .okFrame ∧ t.fvalid = true ∧ t.busy = false ∧ t.phase = .idle ∧ t.op = .none ∧
      t.lenField = len.toNat ∧ t.frameType = type ∧ t.framePayload = payload ∧ t.wireChecksum = c ∧
      t.rxCnt.toNat = len.toNat + 3 ∧ (∀ k, len.toNat + 3 ≤ k → t.rxByte k = 0x00) ∧
      t.rxChk = checksum type payload ∧ t.rxq = [] ∧ t.lastProg = s.now ∧
      { t with res := s.res, fvalid := s.fvalid, busy := s.busy, phase := s.phase, op := s.op, rxBuf := s.rxBuf,
               rxCnt := s.rxCnt, rxChk := s.rxChk, lastProg := s.lastProg } = s

/-- R162, R163, R160: the frames a DECODE refuses, and what stays in `RXQ`. -/
def Obligations.BadFrameIsReported : Prop :=
  ∀ (s : State) (i : Instr) (len : Half) (type : Byte) (body : List Byte),
    s.busy = true → s.op = .decode → s.phase = .hunt → s.rxq = [] →
    i.frameParts = some (len, type, body) → i.wellFormed = true →
    (len = 0 → exec i s =
      .next { s with rxBuf := [], rxCnt := 0, lastProg := s.now, fvalid := false, res := .badLength, busy := false,
                     phase := .idle, op := .none }) ∧
    (∀ payload c, body = payload ++ [c] → len.toNat ≤ 1797 → s.chkEn = true → c ≠ checksum type payload → exec i s =
      .next { s with rxBuf := [], rxCnt := 0, lastProg := s.now, rxChk := checksum type payload, fvalid := false,
                     res := .checksumMismatch, busy := false, phase := .idle, op := .none }) ∧
    (1798 ≤ len.toNat → exec i s =
      .next { s with rxq := type :: body, rxBuf := [], rxCnt := 0, lastProg := s.now, fvalid := false,
                     res := .frameTooLarge, busy := false, phase := .idle, op := .none })

/-- R200 to R202: a good frame inside a wait whose deadline has not passed is matched or dropped by its type and
payload alone; either way `RXBUF` holds exactly that frame, with its checksum byte as it arrived (R164). -/
def Obligations.FrameInsideWait : Prop :=
  ∀ (s : State) (i : Instr) (len : Half) (type c : Byte) (payload : List Byte),
    s.busy = true → s.op = .await → s.phase = .check → s.rxq = [] → s.t0 ≤ s.now → s.now - s.t0 ≤ s.args.timeout →
    s.matchRegs.n.toNat ≤ 4 →
    i.frameParts = some (len, type, payload ++ [c]) → i.wellFormed = true → len.toNat ≤ 1797 →
    s.chkEn = false ∨ c = checksum type payload →
    ∃ t, exec i s = .next t ∧ t.rxq = [] ∧ t.lenField = len.toNat ∧ t.frameType = type ∧ t.framePayload = payload ∧
      t.wireChecksum = c ∧ t.rxCnt.toNat = len.toNat + 3 ∧ (∀ k, len.toNat + 3 ≤ k → t.rxByte k = 0x00) ∧
      t.rxChk = checksum type payload ∧ t.lastProg = s.now ∧
      { t with res := s.res, fvalid := s.fvalid, busy := s.busy, phase := s.phase, op := s.op, rxBuf := s.rxBuf,
               rxCnt := s.rxCnt, rxChk := s.rxChk, lastProg := s.lastProg } = s ∧
      (type = s.matchRegs.type ∧
          (∀ k : Fin 4, k.val < s.matchRegs.n.toNat →
            payload[(s.matchRegs.off[k]).toNat]? = some s.matchRegs.val[k]) →
        t.res = .matched ∧ t.fvalid = true ∧ t.busy = false ∧ t.phase = .idle ∧ t.op = .none) ∧
      (¬ (type = s.matchRegs.type ∧
          (∀ k : Fin 4, k.val < s.matchRegs.n.toNat →
            payload[(s.matchRegs.off[k]).toNat]? = some s.matchRegs.val[k])) →
        t.res = s.res ∧ t.fvalid = false ∧ t.busy = true ∧ t.phase = .check ∧ t.op = .await)

/-- R168: a DECODE on a quiet stream. Under every schedule of micro-steps and clock advances the operation, when it has
ended, has the result of `decode_quiet`, which depends on the stream and `CHKEN` alone; and some schedule ends it. -/
def Obligations.QuietDecode : Prop :=
  ∀ s s1 : State, s.busy = false → exec .cmdDecode s = .next s1 →
    (∀ (ts : List Turn) (t : State),
      (∀ x ∈ ts, x = .sequencer ∨ ∃ d, x = .tick d) → s1.takeTurns ts = .next t → t.busy = false →
      t.res = (decodeQuiet s.chkEn s.rxq).res ∧ t.rxq = (decodeQuiet s.chkEn s.rxq).left ∧
      t.view = (decodeQuiet s.chkEn s.rxq).frame) ∧
    (∃ (ts : List Turn) (t : State),
      (∀ x ∈ ts, x = .sequencer ∨ ∃ d, x = .tick d) ∧ s1.takeTurns ts = .next t ∧ t.busy = false)

/-- R174: the round trip through the deframer, for payloads of at most 1796 bytes and either `CHKEN`; a longer payload
that `encode` accepts is answered `FRAME_TOO_LARGE`. Nothing arrives meanwhile; the micro-steps and clock advances fall
as they may, the operation has that result when it has ended, and it can end. -/
def Obligations.RoundTripThroughDeframer : Prop :=
  ∀ (s s1 : State) (type : Byte) (payload bytes : List Byte),
    s.busy = false → encodeFrame type payload = some bytes → s.rxq = bytes → exec .cmdDecode s = .next s1 →
    (∃ n t, s1.microSteps n = .next t ∧ t.busy = false) ∧
    ∀ (ts : List Turn) (t : State),
      (∀ x ∈ ts, x = .sequencer ∨ ∃ d, x = .tick d) → s1.takeTurns ts = .next t → t.busy = false →
      (payload.length ≤ 1796 →
        t.res = .okFrame ∧ t.rxq = [] ∧ t.view = some ⟨type, payload⟩ ∧
        (t.hostRead 21).host.rdata = type.toNat ∧ (t.hostRead 22).host.rdata = payload.length) ∧
      (1797 ≤ payload.length → t.res = .frameTooLarge ∧ t.fvalid = false)

/-- 95_test_vectors.md S9 item 4: with `CHKEN = 1`, one changed byte among type, payload and checksum of an encoded
frame gives `CHECKSUM_MISMATCH`. -/
def Obligations.OneChangedByteIsDetected : Prop :=
  ∀ (type : Byte) (payload : List Byte) (k : Nat) (b : Byte),
    payload.length ≤ 1796 → k < payload.length + 2 →
    some b ≠ (type :: payload ++ [checksum type payload])[k]? →
    decodeQuiet true
      (0x7E :: u16be (BitVec.ofNat 16 (payload.length + 1))
        ++ (type :: payload ++ [checksum type payload]).set k b)
      = ⟨.checksumMismatch, [], none⟩

/-- R204: a wait on a stream that has fallen silent ends with `TIMED_OUT`: once more than `ARG_TO` ticks have passed
since `T0` and more than `ARG_INACT` since `LASTPROG`, two micro-steps are enough from any phase. -/
def Obligations.SilentWaitTimesOut : Prop :=
  ∀ (s : State) (d : Nat), Inv s → s.busy = true → s.op = .await → s.rxq = [] →
    s.args.timeout < s.now + d - s.t0 → s.args.inact < s.now + d - s.lastProg →
    ∃ t, State.microSteps 2 { s with now := s.now + d } = .next t ∧ t.res = .timedOut ∧ t.busy = false ∧
      t.fvalid = false ∧ t.rxq = []

/-! ### Host sequences -/

/-- R221, R232: the lines of `AT_QUERY` before its wait transmit the AT command with frame id 1, set the match registers
to the predicate of R195 and the timeouts of the wait (`T_INACT_POLL` is open, log 23); a host that does them turn by turn is then at the lines that
follow. The fourth comparator and the bytes of `ARGBUF` behind the parameter are as before, and nothing else changes. -/
def Obligations.AtQuerySendsAndSetsPredicate : Prop :=
  ∀ (s : State) (c0 c1 st : Byte) (param : List Byte) (timeout : Nat) (rest : List HostLine),
    s.busy = false → param.length ≤ 0xFFFB →
    s.host.prog = sendLines c0 c1 param ++ responseLines c0 c1 st ++ timeoutLines timeout ++ rest →
    ∃ t bytes, s.takeTurns (List.replicate 16 .host) = .next t ∧
      encodeFrame 0x08 ([0x01, c0, c1] ++ param) = some bytes ∧
      t = { s with args := { s.args with fid := 0x01, cmd0 := c0, cmd1 := c1, len := BitVec.ofNat 16 param.length,
                                         timeout := timeout, inact := Config.tInactPoll },
                   argBuf := t.argBuf, matchRegs := t.matchRegs, txq := s.txq ++ bytes, res := .ok,
                   host := { s.host with prog := rest } } ∧
      (∀ j, t.argByte j = (param[j]?).getD (s.argByte j)) ∧
      t.matchRegs.type = 0x88 ∧ t.matchRegs.n = 3 ∧
      t.matchRegs.off[0] = 1 ∧ t.matchRegs.off[1] = 2 ∧ t.matchRegs.off[2] = 3 ∧
      t.matchRegs.off[3] = s.matchRegs.off[3] ∧
      t.matchRegs.val[0] = c0 ∧ t.matchRegs.val[1] = c1 ∧ t.matchRegs.val[2] = st ∧
      t.matchRegs.val[3] = s.matchRegs.val[3]

/-! ### Rules of the whole machine -/

/-- Reset is safe. -/
def Obligations.ResetIsSafe : Prop := Inv State.reset

/-- Every step of every agent keeps a safe state safe: the memories stay canonical and in their bounds,
`RXCNT <= CAP` (R23), `OP = NONE` exactly when `BUSY = 0` exactly when `PHASE = IDLE` (R38), no stored time in use lies
after `NOW`, and a valid frame is whole (R29, R164). -/
def Obligations.StepKeepsSafe : Prop :=
  ∀ s t : State, Inv s → step s = .next t → Inv t

/-- R34, R35, R36: no instruction writes an operand register, a match register, `CTRL` or `ARGBUF`, nor advances the
clock or touches the host. -/
def Obligations.NoInstructionWritesOperands : Prop :=
  ∀ (i : Instr) (s t : State), exec i s = .next t →
    t.args = s.args ∧ t.matchRegs = s.matchRegs ∧ t.chkEn = s.chkEn ∧ t.argBuf = s.argBuf ∧
    (∀ a, t.argByte a = s.argByte a) ∧ t.now = s.now ∧
    t.host = s.host ∧ t.turns = s.turns ∧ t.freeTurns = s.freeTurns ∧ t.freeReads = s.freeReads ∧
    t.resets = s.resets

/-- R41, R43, R42, R40, R45: until a reset the records only grow; `NOW` grows by the ticks of a tick and moves at no
other turn, so it never runs back; and `RXQ` gains exactly the bytes that arrive, at its tail, and loses bytes only at its
head: at most one at a turn of the sequencer, any number at a turn that reads what arrives, none at any other turn. -/
def Obligations.StreamsAndClockMoveForward : Prop :=
  ∀ s t : State, step s = .next t →
    (s.nextTurn.1 ≠ .reset → ∃ a b, t.txq = s.txq ++ a ∧ t.encOut = s.encOut ++ b) ∧
    (∀ d, s.nextTurn.1 = .tick d → t.now = s.now + d) ∧
    ((∀ d, s.nextTurn.1 ≠ .tick d) → t.now = s.now) ∧
    (∀ bytes, s.nextTurn.1 = .arrive bytes → t.rxq = s.rxq ++ bytes) ∧
    (∀ bytes, s.nextTurn.1 = .wire bytes → ∃ k, t.rxq = (s.rxq ++ bytes).drop k) ∧
    (s.nextTurn.1 = .sequencer → ∃ k, k ≤ 1 ∧ t.rxq = s.rxq.drop k) ∧
    ((∀ bytes, s.nextTurn.1 ≠ .arrive bytes) → (∀ bytes, s.nextTurn.1 ≠ .wire bytes) → s.nextTurn.1 ≠ .sequencer →
      t.rxq = s.rxq)

/-- R29: a frame becomes valid only by a completion of the sequencer, with `OK_FRAME` or `MATCHED`. -/
def Obligations.FrameBecomesValidOnlyByReceipt : Prop :=
  ∀ s t : State, step s = .next t → s.fvalid = false → t.fvalid = true →
    s.busy = true ∧ t.busy = false ∧ (t.res = .okFrame ∨ t.res = .matched) ∧
    (s.nextTurn.1 = .sequencer ∨ ∃ bytes, s.nextTurn.1 = .wire bytes)
end

