-- ==== Sys2Proof/Laws/Decode.lean ====
section
/-! SUPPORT. The laws of the byte order and of the decoder: be16 and u16be are inverse, a frame's bytes are read back, and what the decoder accepts. -/

namespace Sys2Proof

theorem be16_toNat (h l : Byte) : (be16 h l).toNat = h.toNat * 256 + l.toNat := by
  unfold be16
  rw [BitVec.toNat_append, ← Nat.shiftLeft_add_eq_or_of_lt l.isLt, Nat.shiftLeft_eq]

theorem u16be_eq (n : Half) :
    u16be n = [BitVec.ofNat 8 (n.toNat / 256), BitVec.ofNat 8 (n.toNat % 256)] := by
  have := n.isLt
  simp only [u16be, List.cons.injEq, and_true]
  constructor <;>
  · apply BitVec.eq_of_toNat_eq
    simp [BitVec.extractLsb'_toNat, Nat.shiftRight_eq_div_pow]

/-- The two bytes of a length field read back. -/
theorem be16_bytes (n : Half) :
    be16 (BitVec.ofNat 8 (n.toNat / 256)) (BitVec.ofNat 8 (n.toNat % 256)) = n := by
  have := n.isLt
  apply BitVec.eq_of_toNat_eq
  rw [be16_toNat]
  simp
  omega

theorem u16be_be16 (h l : Byte) : u16be (be16 h l) = [h, l] := by
  rw [u16be_eq, be16_toNat]
  have h1 := h.isLt
  have h2 := l.isLt
  simp only [List.cons.injEq, and_true]
  constructor <;>
  · apply BitVec.eq_of_toNat_eq
    simp
    omega

/-- The bytes of a frame, byte by byte. -/
theorem wireBytes_eq (len : Half) (type : Byte) (body : List Byte) :
    wireBytes len type body =
      Config.start :: BitVec.ofNat 8 (len.toNat / 256) :: BitVec.ofNat 8 (len.toNat % 256) :: type :: body := by
  simp [wireBytes, u16be_eq]

/-- A frame whose body has its declared length is read back under its type's row, with what stands behind it. -/
theorem decodeFrame_wireBytes (len : Half) (type : Byte) (body rest : List Byte) (h : body.length = len.toNat) :
    decodeFrame (wireBytes len type body ++ rest) = .ok (frameOf len type body, rest) := by
  rw [wireBytes_eq]
  simp only [List.cons_append, decodeFrame, be16_bytes, if_true]
  rw [if_neg (by simp [h])]
  simp [← h]

/-- What the frame decoder accepts is a frame, with a body of its declared length, and what stands behind it. -/
theorem decodeFrame_ok {bs : List Byte} {i : Instr} {rest : List Byte} (h : decodeFrame bs = .ok (i, rest)) :
    ∃ len type body, body.length = len.toNat ∧ bs = wireBytes len type body ++ rest ∧ i = frameOf len type body := by
  match bs with
  | [] => simp [decodeFrame] at h
  | [s] => simp only [decodeFrame] at h; split at h <;> simp at h
  | [s, b] => simp only [decodeFrame] at h; split at h <;> simp at h
  | [s, b, c] => simp only [decodeFrame] at h; split at h <;> simp at h
  | s :: b :: c :: type :: more =>
    simp only [decodeFrame] at h
    split at h
    · rename_i hs
      split at h
      · simp at h
      · rename_i hl
        simp only [Except.ok.injEq, Prod.mk.injEq] at h
        refine ⟨be16 b c, type, more.take (be16 b c).toNat, by simp; omega, ?_, h.1.symm⟩
        rw [← h.2]
        simp [wireBytes, u16be_be16, hs]
    · simp at h

/-- The row of a header has the header's parts. -/
theorem frameOf_frameParts (len : Half) (type : Byte) (body : List Byte) :
    (frameOf len type body).frameParts = some (len, type, body) := by
  unfold frameOf
  repeat' split
  all_goals simp_all [Instr.frameParts]

/-- The encoding of a frame is its bytes. -/
theorem encode_of_frameParts {i : Instr} {len : Half} {type : Byte} {body : List Byte}
    (h : i.frameParts = some (len, type, body)) : encode i = .wire (wireBytes len type body) := by
  cases i <;> simp_all [Instr.frameParts, encode]

/-- The body of a well-formed frame has its declared length. -/
theorem body_length_of_wellFormed {i : Instr} {len : Half} {type : Byte} {body : List Byte}
    (h : i.frameParts = some (len, type, body)) (hw : i.wellFormed = true) : body.length = len.toNat := by
  cases i <;> simp_all [Instr.frameParts, Instr.wellFormed, bodyFits]

/-- The row of a header with a fitting body is well formed. -/
theorem frameOf_wellFormed {len : Half} {type : Byte} {body : List Byte} (h : body.length = len.toNat) :
    (frameOf len type body).wellFormed = true := by
  unfold frameOf
  repeat' split
  all_goals simp_all [Instr.wellFormed, bodyFits, namedTypes]

/-- A well-formed frame is the row of its header. -/
theorem eq_frameOf {i : Instr} {len : Half} {type : Byte} {body : List Byte}
    (h : i.frameParts = some (len, type, body)) (hw : i.wellFormed = true) : i = frameOf len type body := by
  cases i
  case frame len' type' body' =>
    simp only [Instr.frameParts, Option.some.injEq, Prod.mk.injEq] at h
    obtain ⟨rfl, rfl, rfl⟩ := h
    simp only [Instr.wellFormed, namedTypes, Bool.and_eq_true, List.contains_cons, List.contains_nil,
      Bool.not_eq_true', Bool.or_eq_false_iff, beq_eq_false_iff_ne] at hw
    obtain ⟨_, h1, h2, h3, h4, _⟩ := hw
    simp [frameOf, h1, h2, h3, h4]
  all_goals first
    | (simp [Instr.frameParts] at h; done)
    | (simp only [Instr.frameParts, Option.some.injEq, Prod.mk.injEq] at h
       obtain ⟨rfl, rfl, rfl⟩ := h
       simp [frameOf, Config.typeAtCommand, Config.typeAtResponse, Config.typeTxRequest, Config.typeModemStatus])

/-- What the command decoder accepts is an opcode. -/
theorem decodeCommand_ok {c : Byte} {i : Instr} (h : decodeCommand c = .ok i) :
    encode i = .command c ∧ i.wellFormed = true ∧ i.frameParts = none := by
  unfold decodeCommand at h
  repeat' split at h
  all_goals first
    | (simp at h; done)
    | (simp only [Except.ok.injEq] at h
       subst h
       simp_all [encode, Instr.wellFormed, Instr.frameParts])

/-- The reserved opcodes (R108). -/
theorem decodeCommand_reserved {c : Byte} (h : c = 0x00 ∨ 0x07 ≤ c.toNat) :
    decodeCommand c = .error (.reservedOpcode c) := by
  have hc : ∀ k : Byte, k.toNat < 7 → k ≠ 0 → c ≠ k := by
    rintro k hk hk0 rfl
    rcases h with h | h
    · exact hk0 h
    · omega
  unfold decodeCommand
  rw [if_neg (hc _ (by decide) (by decide)), if_neg (hc _ (by decide) (by decide)),
    if_neg (hc _ (by decide) (by decide)), if_neg (hc _ (by decide) (by decide)),
    if_neg (hc _ (by decide) (by decide)), if_neg (hc _ (by decide) (by decide))]

end Sys2Proof
end

