-- ==== Sys2Proof/Laws/Memory.lean ====
section
/-! SUPPORT. The laws of the byte memories: a read after a write, the frame of a write, and the canonical form every operation keeps. -/

namespace Sys2Proof.Machine

@[simp] theorem Memory.read_nil (a : Nat) : Memory.read [] a = none := rfl

theorem Memory.rising_cons {k : Nat} {v : Byte} {m : Memory} :
    Memory.rising ((k, v) :: m) = true ↔ (∀ c ∈ m, k < c.1) ∧ Memory.rising m = true := by
  induction m generalizing k v with
  | nil => simp [Memory.rising]
  | cons c m ih =>
    obtain ⟨k', v'⟩ := c
    simp only [Memory.rising, Bool.and_eq_true, decide_eq_true_eq, ih, List.mem_cons, forall_eq_or_imp]
    constructor
    · rintro ⟨h, h', hr⟩
      exact ⟨⟨h, fun c hc => h.trans (h' c hc)⟩, h', hr⟩
    · rintro ⟨⟨h, _⟩, h', hr⟩
      exact ⟨h, h', hr⟩

/-- Reading below every listed address finds nothing. -/
theorem Memory.read_none_of_lt {m : Memory} {a : Nat} (h : ∀ c ∈ m, a < c.1) : Memory.read m a = none := by
  induction m with
  | nil => rfl
  | cons c m ih =>
    obtain ⟨k, v⟩ := c
    have hk := h (k, v) (by simp)
    simp only [Memory.read]
    rw [if_neg (by omega)]
    exact ih fun c hc => h c (by simp [hc])

theorem Memory.mem_insert {m : Memory} {a : Nat} {b : Byte} {c : Host.Cell} (h : c ∈ Memory.insert m a b) :
    c = (a, b) ∨ c ∈ m := by
  induction m with
  | nil => simpa [Memory.insert] using h
  | cons d m ih =>
    obtain ⟨k, v⟩ := d
    simp only [Memory.insert] at h
    split at h
    · simpa using h
    · split at h
      · rcases List.mem_cons.1 h with h | h
        · exact .inl h
        · exact .inr (by simp [h])
      · rcases List.mem_cons.1 h with h | h
        · exact .inr (by simp [h])
        · rcases ih h with h | h
          · exact .inl h
          · exact .inr (by simp [h])

theorem Memory.mem_erase {m : Memory} {a : Nat} {c : Host.Cell} (h : c ∈ Memory.erase m a) : c ∈ m := by
  induction m with
  | nil => simp [Memory.erase] at h
  | cons d m ih =>
    obtain ⟨k, v⟩ := d
    simp only [Memory.erase] at h
    split at h
    · simp [h]
    · rcases List.mem_cons.1 h with h | h
      · simp [h]
      · simp [ih h]

theorem Memory.read_insert (m : Memory) (a : Nat) (b : Byte) (x : Nat) :
    Memory.read (Memory.insert m a b) x = if x = a then some b else Memory.read m x := by
  induction m with
  | nil =>
    by_cases h : x = a
    · subst h; simp [Memory.insert, Memory.read]
    · simp [Memory.insert, Memory.read, h, Ne.symm h]
  | cons c m ih =>
    obtain ⟨k, v⟩ := c
    simp only [Memory.insert]
    split
    · by_cases h : x = a
      · subst h; simp [Memory.read]
      · simp [Memory.read, h, Ne.symm h]
    · split
      · rename_i _ hk
        subst hk
        by_cases h : x = a
        · subst h; simp [Memory.read]
        · simp [Memory.read, h, Ne.symm h]
      · rename_i _ hk
        simp only [Memory.read, ih]
        by_cases h : k = x
        · subst h; simp [Ne.symm hk]
        · simp [h]

theorem Memory.read_erase {m : Memory} (hm : Memory.rising m = true) (a x : Nat) :
    Memory.read (Memory.erase m a) x = if x = a then none else Memory.read m x := by
  induction m with
  | nil => simp [Memory.erase]
  | cons c m ih =>
    obtain ⟨k, v⟩ := c
    rw [Memory.rising_cons] at hm
    simp only [Memory.erase]
    split
    · rename_i hk
      subst hk
      by_cases h : x = k
      · subst h; simp [Memory.read_none_of_lt hm.1]
      · simp [Memory.read, h, Ne.symm h]
    · rename_i hk
      simp only [Memory.read, ih hm.2]
      by_cases h : k = x
      · subst h; simp [hk]
      · simp [h]

theorem Memory.rising_insert {m : Memory} (hm : Memory.rising m = true) (a : Nat) (b : Byte) :
    Memory.rising (Memory.insert m a b) = true := by
  induction m with
  | nil => rfl
  | cons c m ih =>
    obtain ⟨k, v⟩ := c
    have h := Memory.rising_cons.1 hm
    simp only [Memory.insert]
    split
    · rename_i hk
      refine Memory.rising_cons.2 ⟨?_, hm⟩
      intro c hc
      rcases List.mem_cons.1 hc with rfl | hc
      · exact hk
      · exact hk.trans (h.1 c hc)
    · split
      · rename_i _ hk
        subst hk
        exact Memory.rising_cons.2 h
      · rename_i h1 h2
        refine Memory.rising_cons.2 ⟨?_, ih h.2⟩
        intro c hc
        rcases Memory.mem_insert hc with rfl | hc
        · show k < a
          omega
        · exact h.1 c hc

theorem Memory.rising_erase {m : Memory} (hm : Memory.rising m = true) (a : Nat) :
    Memory.rising (Memory.erase m a) = true := by
  induction m with
  | nil => rfl
  | cons c m ih =>
    obtain ⟨k, v⟩ := c
    have h := Memory.rising_cons.1 hm
    simp only [Memory.erase]
    split
    · exact h.2
    · exact Memory.rising_cons.2 ⟨fun c hc => h.1 c (Memory.mem_erase hc), ih h.2⟩

@[simp] theorem Memory.wf_nil (u : Option Byte) : Memory.wf u [] = true := rfl

/-- A write keeps the canonical form. -/
theorem Memory.wf_write {u : Option Byte} {m : Memory} (hm : Memory.wf u m = true) (a : Nat) (b : Byte) :
    Memory.wf u (Memory.write u m a b) = true := by
  simp only [Memory.wf, Bool.and_eq_true, List.all_eq_true, decide_eq_true_eq] at hm ⊢
  unfold Memory.write
  split
  · exact ⟨Memory.rising_erase hm.1 a, fun c hc => hm.2 c (Memory.mem_erase hc)⟩
  · rename_i h
    refine ⟨Memory.rising_insert hm.1 a b, fun c hc => ?_⟩
    rcases Memory.mem_insert hc with rfl | hc
    · exact h
    · exact hm.2 c hc

@[simp] theorem Memory.below_nil (n : Nat) : Memory.below n [] = true := rfl

theorem Memory.below_write {u : Option Byte} {m : Memory} {n a : Nat} {b : Byte} (hm : Memory.below n m = true)
    (ha : a < n) : Memory.below n (Memory.write u m a b) = true := by
  simp only [Memory.below, List.all_eq_true, decide_eq_true_eq] at hm ⊢
  unfold Memory.write
  split
  · exact fun c hc => hm c (Memory.mem_erase hc)
  · intro c hc
    rcases Memory.mem_insert hc with rfl | hc
    · exact ha
    · exact hm c hc

theorem Memory.below_mono {m : Memory} {n k : Nat} (hm : Memory.below n m = true) (h : n ≤ k) :
    Memory.below k m = true := by
  simp only [Memory.below, List.all_eq_true, decide_eq_true_eq] at hm ⊢
  exact fun c hc => (hm c hc).trans_le h

/-- Nothing is listed at or above a bound. -/
theorem Memory.read_none_of_below {m : Memory} {n a : Nat} (hm : Memory.below n m = true) (h : n ≤ a) :
    Memory.read m a = none := by
  simp only [Memory.below, List.all_eq_true, decide_eq_true_eq] at hm
  induction m with
  | nil => rfl
  | cons c m ih =>
    obtain ⟨k, v⟩ := c
    have hk : k < n := hm (k, v) (by simp)
    simp only [Memory.read]
    rw [if_neg (by omega)]
    exact ih fun c hc => hm c (by simp [hc])

/-- Reading after a write, listed or not: the byte written there, what was there elsewhere. -/
theorem Memory.read_write {u : Option Byte} {m : Memory} (hm : Memory.wf u m = true) (a : Nat) (b : Byte) (x : Nat) :
    (Memory.read (Memory.write u m a b) x).or u = if x = a then some b else (Memory.read m x).or u := by
  simp only [Memory.wf, Bool.and_eq_true] at hm
  unfold Memory.write
  split
  · rename_i h
    rw [Memory.read_erase hm.1]
    split <;> simp [h]
  · rw [Memory.read_insert]
    split <;> simp

/-- Two canonical memories that read alike are the same data. -/
theorem Memory.ext_of_rising {m m' : Memory} (hm : Memory.rising m = true) (hm' : Memory.rising m' = true)
    (h : ∀ a, Memory.read m a = Memory.read m' a) : m = m' := by
  induction m generalizing m' with
  | nil =>
    cases m' with
    | nil => rfl
    | cons c m' =>
      have := h c.1
      simp [Memory.read] at this
  | cons c m ih =>
    cases m' with
    | nil =>
      have := h c.1
      simp [Memory.read] at this
    | cons c' m' =>
      obtain ⟨k, v⟩ := c
      obtain ⟨k', v'⟩ := c'
      have h1 := Memory.rising_cons.1 hm
      have h2 := Memory.rising_cons.1 hm'
      have hk : k = k' := by
        rcases Nat.lt_trichotomy k k' with hlt | heq | hgt
        · have := h k
          rw [Memory.read_none_of_lt (m := (k', v') :: m')] at this
          · simp [Memory.read] at this
          · intro c hc
            rcases List.mem_cons.1 hc with rfl | hc
            · exact hlt
            · exact hlt.trans (h2.1 c hc)
        · exact heq
        · have := h k'
          rw [Memory.read_none_of_lt (m := (k, v) :: m)] at this
          · simp [Memory.read] at this
          · intro c hc
            rcases List.mem_cons.1 hc with rfl | hc
            · exact hgt
            · exact hgt.trans (h1.1 c hc)
      subst hk
      have hv : v = v' := by simpa [Memory.read] using h k
      subst hv
      congr 1
      refine ih h1.2 h2.2 fun a => ?_
      by_cases ha : k = a
      · subst ha
        rw [Memory.read_none_of_lt h1.1, Memory.read_none_of_lt h2.1]
      · simpa [Memory.read, ha] using h a

theorem State.reset_rxBuf_wf : Memory.wf rxUnlisted State.reset.rxBuf = true := rfl

theorem State.reset_argBuf_wf : Memory.wf argUnlisted State.reset.argBuf = true := rfl

end Sys2Proof.Machine
end

