-- ==== Sys2Proof/Laws/State.lean ====
section
/-! SUPPORT. What each named update of the state does to each field, true by rfl: later proofs rewrite with these and unfold no record update. -/

namespace Sys2Proof.Machine

variable (s : State)

/-! `State.clearRxBuf` -/
@[simp] theorem State.clearRxBuf_rxBuf : s.clearRxBuf.rxBuf = [] := rfl
@[simp] theorem State.clearRxBuf_rxCnt : s.clearRxBuf.rxCnt = 0 := rfl
@[simp] theorem State.clearRxBuf_lastProg : s.clearRxBuf.lastProg = s.lastProg := rfl
@[simp] theorem State.clearRxBuf_t0 : s.clearRxBuf.t0 = s.t0 := rfl
@[simp] theorem State.clearRxBuf_phase : s.clearRxBuf.phase = s.phase := rfl
@[simp] theorem State.clearRxBuf_busy : s.clearRxBuf.busy = s.busy := rfl
@[simp] theorem State.clearRxBuf_fvalid : s.clearRxBuf.fvalid = s.fvalid := rfl
@[simp] theorem State.clearRxBuf_res : s.clearRxBuf.res = s.res := rfl
@[simp] theorem State.clearRxBuf_rxChk : s.clearRxBuf.rxChk = s.rxChk := rfl
@[simp] theorem State.clearRxBuf_chkEn : s.clearRxBuf.chkEn = s.chkEn := rfl
@[simp] theorem State.clearRxBuf_args : s.clearRxBuf.args = s.args := rfl
@[simp] theorem State.clearRxBuf_argBuf : s.clearRxBuf.argBuf = s.argBuf := rfl
@[simp] theorem State.clearRxBuf_matchRegs : s.clearRxBuf.matchRegs = s.matchRegs := rfl
@[simp] theorem State.clearRxBuf_op : s.clearRxBuf.op = s.op := rfl
@[simp] theorem State.clearRxBuf_rxq : s.clearRxBuf.rxq = s.rxq := rfl
@[simp] theorem State.clearRxBuf_txq : s.clearRxBuf.txq = s.txq := rfl
@[simp] theorem State.clearRxBuf_now : s.clearRxBuf.now = s.now := rfl
@[simp] theorem State.clearRxBuf_encOut : s.clearRxBuf.encOut = s.encOut := rfl
@[simp] theorem State.clearRxBuf_host : s.clearRxBuf.host = s.host := rfl
@[simp] theorem State.clearRxBuf_turns : s.clearRxBuf.turns = s.turns := rfl
@[simp] theorem State.clearRxBuf_freeTurns : s.clearRxBuf.freeTurns = s.freeTurns := rfl
@[simp] theorem State.clearRxBuf_freeReads : s.clearRxBuf.freeReads = s.freeReads := rfl
@[simp] theorem State.clearRxBuf_resets : s.clearRxBuf.resets = s.resets := rfl

/-! `State.append` -/
@[simp] theorem State.append_rxBuf (b : Byte) : (s.append b).rxBuf = Memory.write rxUnlisted s.rxBuf s.rxCnt.toNat b := rfl
@[simp] theorem State.append_rxCnt (b : Byte) : (s.append b).rxCnt = s.rxCnt + 1 := rfl
@[simp] theorem State.append_lastProg (b : Byte) : (s.append b).lastProg = s.now := rfl
@[simp] theorem State.append_t0 (b : Byte) : (s.append b).t0 = s.t0 := rfl
@[simp] theorem State.append_phase (b : Byte) : (s.append b).phase = s.phase := rfl
@[simp] theorem State.append_busy (b : Byte) : (s.append b).busy = s.busy := rfl
@[simp] theorem State.append_fvalid (b : Byte) : (s.append b).fvalid = s.fvalid := rfl
@[simp] theorem State.append_res (b : Byte) : (s.append b).res = s.res := rfl
@[simp] theorem State.append_rxChk (b : Byte) : (s.append b).rxChk = s.rxChk := rfl
@[simp] theorem State.append_chkEn (b : Byte) : (s.append b).chkEn = s.chkEn := rfl
@[simp] theorem State.append_args (b : Byte) : (s.append b).args = s.args := rfl
@[simp] theorem State.append_argBuf (b : Byte) : (s.append b).argBuf = s.argBuf := rfl
@[simp] theorem State.append_matchRegs (b : Byte) : (s.append b).matchRegs = s.matchRegs := rfl
@[simp] theorem State.append_op (b : Byte) : (s.append b).op = s.op := rfl
@[simp] theorem State.append_rxq (b : Byte) : (s.append b).rxq = s.rxq := rfl
@[simp] theorem State.append_txq (b : Byte) : (s.append b).txq = s.txq := rfl
@[simp] theorem State.append_now (b : Byte) : (s.append b).now = s.now := rfl
@[simp] theorem State.append_encOut (b : Byte) : (s.append b).encOut = s.encOut := rfl
@[simp] theorem State.append_host (b : Byte) : (s.append b).host = s.host := rfl
@[simp] theorem State.append_turns (b : Byte) : (s.append b).turns = s.turns := rfl
@[simp] theorem State.append_freeTurns (b : Byte) : (s.append b).freeTurns = s.freeTurns := rfl
@[simp] theorem State.append_freeReads (b : Byte) : (s.append b).freeReads = s.freeReads := rfl
@[simp] theorem State.append_resets (b : Byte) : (s.append b).resets = s.resets := rfl

/-! `State.popped` -/
@[simp] theorem State.popped_rxBuf (q : List Byte) : (s.popped q).rxBuf = s.rxBuf := rfl
@[simp] theorem State.popped_rxCnt (q : List Byte) : (s.popped q).rxCnt = s.rxCnt := rfl
@[simp] theorem State.popped_lastProg (q : List Byte) : (s.popped q).lastProg = s.lastProg := rfl
@[simp] theorem State.popped_t0 (q : List Byte) : (s.popped q).t0 = s.t0 := rfl
@[simp] theorem State.popped_phase (q : List Byte) : (s.popped q).phase = s.phase := rfl
@[simp] theorem State.popped_busy (q : List Byte) : (s.popped q).busy = s.busy := rfl
@[simp] theorem State.popped_fvalid (q : List Byte) : (s.popped q).fvalid = s.fvalid := rfl
@[simp] theorem State.popped_res (q : List Byte) : (s.popped q).res = s.res := rfl
@[simp] theorem State.popped_rxChk (q : List Byte) : (s.popped q).rxChk = s.rxChk := rfl
@[simp] theorem State.popped_chkEn (q : List Byte) : (s.popped q).chkEn = s.chkEn := rfl
@[simp] theorem State.popped_args (q : List Byte) : (s.popped q).args = s.args := rfl
@[simp] theorem State.popped_argBuf (q : List Byte) : (s.popped q).argBuf = s.argBuf := rfl
@[simp] theorem State.popped_matchRegs (q : List Byte) : (s.popped q).matchRegs = s.matchRegs := rfl
@[simp] theorem State.popped_op (q : List Byte) : (s.popped q).op = s.op := rfl
@[simp] theorem State.popped_rxq (q : List Byte) : (s.popped q).rxq = q := rfl
@[simp] theorem State.popped_txq (q : List Byte) : (s.popped q).txq = s.txq := rfl
@[simp] theorem State.popped_now (q : List Byte) : (s.popped q).now = s.now := rfl
@[simp] theorem State.popped_encOut (q : List Byte) : (s.popped q).encOut = s.encOut := rfl
@[simp] theorem State.popped_host (q : List Byte) : (s.popped q).host = s.host := rfl
@[simp] theorem State.popped_turns (q : List Byte) : (s.popped q).turns = s.turns := rfl
@[simp] theorem State.popped_freeTurns (q : List Byte) : (s.popped q).freeTurns = s.freeTurns := rfl
@[simp] theorem State.popped_freeReads (q : List Byte) : (s.popped q).freeReads = s.freeReads := rfl
@[simp] theorem State.popped_resets (q : List Byte) : (s.popped q).resets = s.resets := rfl

/-! `State.arrive` -/
@[simp] theorem State.arrive_rxBuf (bs : List Byte) : (s.arrive bs).rxBuf = s.rxBuf := rfl
@[simp] theorem State.arrive_rxCnt (bs : List Byte) : (s.arrive bs).rxCnt = s.rxCnt := rfl
@[simp] theorem State.arrive_lastProg (bs : List Byte) : (s.arrive bs).lastProg = s.lastProg := rfl
@[simp] theorem State.arrive_t0 (bs : List Byte) : (s.arrive bs).t0 = s.t0 := rfl
@[simp] theorem State.arrive_phase (bs : List Byte) : (s.arrive bs).phase = s.phase := rfl
@[simp] theorem State.arrive_busy (bs : List Byte) : (s.arrive bs).busy = s.busy := rfl
@[simp] theorem State.arrive_fvalid (bs : List Byte) : (s.arrive bs).fvalid = s.fvalid := rfl
@[simp] theorem State.arrive_res (bs : List Byte) : (s.arrive bs).res = s.res := rfl
@[simp] theorem State.arrive_rxChk (bs : List Byte) : (s.arrive bs).rxChk = s.rxChk := rfl
@[simp] theorem State.arrive_chkEn (bs : List Byte) : (s.arrive bs).chkEn = s.chkEn := rfl
@[simp] theorem State.arrive_args (bs : List Byte) : (s.arrive bs).args = s.args := rfl
@[simp] theorem State.arrive_argBuf (bs : List Byte) : (s.arrive bs).argBuf = s.argBuf := rfl
@[simp] theorem State.arrive_matchRegs (bs : List Byte) : (s.arrive bs).matchRegs = s.matchRegs := rfl
@[simp] theorem State.arrive_op (bs : List Byte) : (s.arrive bs).op = s.op := rfl
@[simp] theorem State.arrive_rxq (bs : List Byte) : (s.arrive bs).rxq = s.rxq ++ bs := rfl
@[simp] theorem State.arrive_txq (bs : List Byte) : (s.arrive bs).txq = s.txq := rfl
@[simp] theorem State.arrive_now (bs : List Byte) : (s.arrive bs).now = s.now := rfl
@[simp] theorem State.arrive_encOut (bs : List Byte) : (s.arrive bs).encOut = s.encOut := rfl
@[simp] theorem State.arrive_host (bs : List Byte) : (s.arrive bs).host = s.host := rfl
@[simp] theorem State.arrive_turns (bs : List Byte) : (s.arrive bs).turns = s.turns := rfl
@[simp] theorem State.arrive_freeTurns (bs : List Byte) : (s.arrive bs).freeTurns = s.freeTurns := rfl
@[simp] theorem State.arrive_freeReads (bs : List Byte) : (s.arrive bs).freeReads = s.freeReads := rfl
@[simp] theorem State.arrive_resets (bs : List Byte) : (s.arrive bs).resets = s.resets := rfl

/-! `State.advance` -/
@[simp] theorem State.advance_rxBuf (d : Nat) : (s.advance d).rxBuf = s.rxBuf := rfl
@[simp] theorem State.advance_rxCnt (d : Nat) : (s.advance d).rxCnt = s.rxCnt := rfl
@[simp] theorem State.advance_lastProg (d : Nat) : (s.advance d).lastProg = s.lastProg := rfl
@[simp] theorem State.advance_t0 (d : Nat) : (s.advance d).t0 = s.t0 := rfl
@[simp] theorem State.advance_phase (d : Nat) : (s.advance d).phase = s.phase := rfl
@[simp] theorem State.advance_busy (d : Nat) : (s.advance d).busy = s.busy := rfl
@[simp] theorem State.advance_fvalid (d : Nat) : (s.advance d).fvalid = s.fvalid := rfl
@[simp] theorem State.advance_res (d : Nat) : (s.advance d).res = s.res := rfl
@[simp] theorem State.advance_rxChk (d : Nat) : (s.advance d).rxChk = s.rxChk := rfl
@[simp] theorem State.advance_chkEn (d : Nat) : (s.advance d).chkEn = s.chkEn := rfl
@[simp] theorem State.advance_args (d : Nat) : (s.advance d).args = s.args := rfl
@[simp] theorem State.advance_argBuf (d : Nat) : (s.advance d).argBuf = s.argBuf := rfl
@[simp] theorem State.advance_matchRegs (d : Nat) : (s.advance d).matchRegs = s.matchRegs := rfl
@[simp] theorem State.advance_op (d : Nat) : (s.advance d).op = s.op := rfl
@[simp] theorem State.advance_rxq (d : Nat) : (s.advance d).rxq = s.rxq := rfl
@[simp] theorem State.advance_txq (d : Nat) : (s.advance d).txq = s.txq := rfl
@[simp] theorem State.advance_now (d : Nat) : (s.advance d).now = s.now + d := rfl
@[simp] theorem State.advance_encOut (d : Nat) : (s.advance d).encOut = s.encOut := rfl
@[simp] theorem State.advance_host (d : Nat) : (s.advance d).host = s.host := rfl
@[simp] theorem State.advance_turns (d : Nat) : (s.advance d).turns = s.turns := rfl
@[simp] theorem State.advance_freeTurns (d : Nat) : (s.advance d).freeTurns = s.freeTurns := rfl
@[simp] theorem State.advance_freeReads (d : Nat) : (s.advance d).freeReads = s.freeReads := rfl
@[simp] theorem State.advance_resets (d : Nat) : (s.advance d).resets = s.resets := rfl

/-! `State.txPush` -/
@[simp] theorem State.txPush_rxBuf (bs : List Byte) : (s.txPush bs).rxBuf = s.rxBuf := rfl
@[simp] theorem State.txPush_rxCnt (bs : List Byte) : (s.txPush bs).rxCnt = s.rxCnt := rfl
@[simp] theorem State.txPush_lastProg (bs : List Byte) : (s.txPush bs).lastProg = s.lastProg := rfl
@[simp] theorem State.txPush_t0 (bs : List Byte) : (s.txPush bs).t0 = s.t0 := rfl
@[simp] theorem State.txPush_phase (bs : List Byte) : (s.txPush bs).phase = s.phase := rfl
@[simp] theorem State.txPush_busy (bs : List Byte) : (s.txPush bs).busy = s.busy := rfl
@[simp] theorem State.txPush_fvalid (bs : List Byte) : (s.txPush bs).fvalid = s.fvalid := rfl
@[simp] theorem State.txPush_res (bs : List Byte) : (s.txPush bs).res = s.res := rfl
@[simp] theorem State.txPush_rxChk (bs : List Byte) : (s.txPush bs).rxChk = s.rxChk := rfl
@[simp] theorem State.txPush_chkEn (bs : List Byte) : (s.txPush bs).chkEn = s.chkEn := rfl
@[simp] theorem State.txPush_args (bs : List Byte) : (s.txPush bs).args = s.args := rfl
@[simp] theorem State.txPush_argBuf (bs : List Byte) : (s.txPush bs).argBuf = s.argBuf := rfl
@[simp] theorem State.txPush_matchRegs (bs : List Byte) : (s.txPush bs).matchRegs = s.matchRegs := rfl
@[simp] theorem State.txPush_op (bs : List Byte) : (s.txPush bs).op = s.op := rfl
@[simp] theorem State.txPush_rxq (bs : List Byte) : (s.txPush bs).rxq = s.rxq := rfl
@[simp] theorem State.txPush_txq (bs : List Byte) : (s.txPush bs).txq = s.txq ++ bs := rfl
@[simp] theorem State.txPush_now (bs : List Byte) : (s.txPush bs).now = s.now := rfl
@[simp] theorem State.txPush_encOut (bs : List Byte) : (s.txPush bs).encOut = s.encOut := rfl
@[simp] theorem State.txPush_host (bs : List Byte) : (s.txPush bs).host = s.host := rfl
@[simp] theorem State.txPush_turns (bs : List Byte) : (s.txPush bs).turns = s.turns := rfl
@[simp] theorem State.txPush_freeTurns (bs : List Byte) : (s.txPush bs).freeTurns = s.freeTurns := rfl
@[simp] theorem State.txPush_freeReads (bs : List Byte) : (s.txPush bs).freeReads = s.freeReads := rfl
@[simp] theorem State.txPush_resets (bs : List Byte) : (s.txPush bs).resets = s.resets := rfl

/-! `State.encPush` -/
@[simp] theorem State.encPush_rxBuf (bs : List Byte) : (s.encPush bs).rxBuf = s.rxBuf := rfl
@[simp] theorem State.encPush_rxCnt (bs : List Byte) : (s.encPush bs).rxCnt = s.rxCnt := rfl
@[simp] theorem State.encPush_lastProg (bs : List Byte) : (s.encPush bs).lastProg = s.lastProg := rfl
@[simp] theorem State.encPush_t0 (bs : List Byte) : (s.encPush bs).t0 = s.t0 := rfl
@[simp] theorem State.encPush_phase (bs : List Byte) : (s.encPush bs).phase = s.phase := rfl
@[simp] theorem State.encPush_busy (bs : List Byte) : (s.encPush bs).busy = s.busy := rfl
@[simp] theorem State.encPush_fvalid (bs : List Byte) : (s.encPush bs).fvalid = s.fvalid := rfl
@[simp] theorem State.encPush_res (bs : List Byte) : (s.encPush bs).res = s.res := rfl
@[simp] theorem State.encPush_rxChk (bs : List Byte) : (s.encPush bs).rxChk = s.rxChk := rfl
@[simp] theorem State.encPush_chkEn (bs : List Byte) : (s.encPush bs).chkEn = s.chkEn := rfl
@[simp] theorem State.encPush_args (bs : List Byte) : (s.encPush bs).args = s.args := rfl
@[simp] theorem State.encPush_argBuf (bs : List Byte) : (s.encPush bs).argBuf = s.argBuf := rfl
@[simp] theorem State.encPush_matchRegs (bs : List Byte) : (s.encPush bs).matchRegs = s.matchRegs := rfl
@[simp] theorem State.encPush_op (bs : List Byte) : (s.encPush bs).op = s.op := rfl
@[simp] theorem State.encPush_rxq (bs : List Byte) : (s.encPush bs).rxq = s.rxq := rfl
@[simp] theorem State.encPush_txq (bs : List Byte) : (s.encPush bs).txq = s.txq := rfl
@[simp] theorem State.encPush_now (bs : List Byte) : (s.encPush bs).now = s.now := rfl
@[simp] theorem State.encPush_encOut (bs : List Byte) : (s.encPush bs).encOut = s.encOut ++ bs := rfl
@[simp] theorem State.encPush_host (bs : List Byte) : (s.encPush bs).host = s.host := rfl
@[simp] theorem State.encPush_turns (bs : List Byte) : (s.encPush bs).turns = s.turns := rfl
@[simp] theorem State.encPush_freeTurns (bs : List Byte) : (s.encPush bs).freeTurns = s.freeTurns := rfl
@[simp] theorem State.encPush_freeReads (bs : List Byte) : (s.encPush bs).freeReads = s.freeReads := rfl
@[simp] theorem State.encPush_resets (bs : List Byte) : (s.encPush bs).resets = s.resets := rfl

/-! `State.complete` -/
@[simp] theorem State.complete_rxBuf (c : Res) : (s.complete c).rxBuf = s.rxBuf := rfl
@[simp] theorem State.complete_rxCnt (c : Res) : (s.complete c).rxCnt = s.rxCnt := rfl
@[simp] theorem State.complete_lastProg (c : Res) : (s.complete c).lastProg = s.lastProg := rfl
@[simp] theorem State.complete_t0 (c : Res) : (s.complete c).t0 = s.t0 := rfl
@[simp] theorem State.complete_phase (c : Res) : (s.complete c).phase = .idle := rfl
@[simp] theorem State.complete_busy (c : Res) : (s.complete c).busy = false := rfl
@[simp] theorem State.complete_fvalid (c : Res) : (s.complete c).fvalid = s.fvalid := rfl
@[simp] theorem State.complete_res (c : Res) : (s.complete c).res = c := rfl
@[simp] theorem State.complete_rxChk (c : Res) : (s.complete c).rxChk = s.rxChk := rfl
@[simp] theorem State.complete_chkEn (c : Res) : (s.complete c).chkEn = s.chkEn := rfl
@[simp] theorem State.complete_args (c : Res) : (s.complete c).args = s.args := rfl
@[simp] theorem State.complete_argBuf (c : Res) : (s.complete c).argBuf = s.argBuf := rfl
@[simp] theorem State.complete_matchRegs (c : Res) : (s.complete c).matchRegs = s.matchRegs := rfl
@[simp] theorem State.complete_op (c : Res) : (s.complete c).op = .none := rfl
@[simp] theorem State.complete_rxq (c : Res) : (s.complete c).rxq = s.rxq := rfl
@[simp] theorem State.complete_txq (c : Res) : (s.complete c).txq = s.txq := rfl
@[simp] theorem State.complete_now (c : Res) : (s.complete c).now = s.now := rfl
@[simp] theorem State.complete_encOut (c : Res) : (s.complete c).encOut = s.encOut := rfl
@[simp] theorem State.complete_host (c : Res) : (s.complete c).host = s.host := rfl
@[simp] theorem State.complete_turns (c : Res) : (s.complete c).turns = s.turns := rfl
@[simp] theorem State.complete_freeTurns (c : Res) : (s.complete c).freeTurns = s.freeTurns := rfl
@[simp] theorem State.complete_freeReads (c : Res) : (s.complete c).freeReads = s.freeReads := rfl
@[simp] theorem State.complete_resets (c : Res) : (s.complete c).resets = s.resets := rfl

/-! `State.illegalCommand` -/
@[simp] theorem State.illegalCommand_rxBuf : s.illegalCommand.rxBuf = s.rxBuf := rfl
@[simp] theorem State.illegalCommand_rxCnt : s.illegalCommand.rxCnt = s.rxCnt := rfl
@[simp] theorem State.illegalCommand_lastProg : s.illegalCommand.lastProg = s.lastProg := rfl
@[simp] theorem State.illegalCommand_t0 : s.illegalCommand.t0 = s.t0 := rfl
@[simp] theorem State.illegalCommand_phase : s.illegalCommand.phase = s.phase := rfl
@[simp] theorem State.illegalCommand_busy : s.illegalCommand.busy = s.busy := rfl
@[simp] theorem State.illegalCommand_fvalid : s.illegalCommand.fvalid = s.fvalid := rfl
@[simp] theorem State.illegalCommand_res : s.illegalCommand.res = .illegalCommand := rfl
@[simp] theorem State.illegalCommand_rxChk : s.illegalCommand.rxChk = s.rxChk := rfl
@[simp] theorem State.illegalCommand_chkEn : s.illegalCommand.chkEn = s.chkEn := rfl
@[simp] theorem State.illegalCommand_args : s.illegalCommand.args = s.args := rfl
@[simp] theorem State.illegalCommand_argBuf : s.illegalCommand.argBuf = s.argBuf := rfl
@[simp] theorem State.illegalCommand_matchRegs : s.illegalCommand.matchRegs = s.matchRegs := rfl
@[simp] theorem State.illegalCommand_op : s.illegalCommand.op = s.op := rfl
@[simp] theorem State.illegalCommand_rxq : s.illegalCommand.rxq = s.rxq := rfl
@[simp] theorem State.illegalCommand_txq : s.illegalCommand.txq = s.txq := rfl
@[simp] theorem State.illegalCommand_now : s.illegalCommand.now = s.now := rfl
@[simp] theorem State.illegalCommand_encOut : s.illegalCommand.encOut = s.encOut := rfl
@[simp] theorem State.illegalCommand_host : s.illegalCommand.host = s.host := rfl
@[simp] theorem State.illegalCommand_turns : s.illegalCommand.turns = s.turns := rfl
@[simp] theorem State.illegalCommand_freeTurns : s.illegalCommand.freeTurns = s.freeTurns := rfl
@[simp] theorem State.illegalCommand_freeReads : s.illegalCommand.freeReads = s.freeReads := rfl
@[simp] theorem State.illegalCommand_resets : s.illegalCommand.resets = s.resets := rfl

/-! `State.issue` -/
@[simp] theorem State.issue_rxBuf (o : Op) (p : Phase) : (s.issue o p).rxBuf = s.rxBuf := rfl
@[simp] theorem State.issue_rxCnt (o : Op) (p : Phase) : (s.issue o p).rxCnt = s.rxCnt := rfl
@[simp] theorem State.issue_lastProg (o : Op) (p : Phase) : (s.issue o p).lastProg = s.lastProg := rfl
@[simp] theorem State.issue_t0 (o : Op) (p : Phase) : (s.issue o p).t0 = s.t0 := rfl
@[simp] theorem State.issue_phase (o : Op) (p : Phase) : (s.issue o p).phase = p := rfl
@[simp] theorem State.issue_busy (o : Op) (p : Phase) : (s.issue o p).busy = true := rfl
@[simp] theorem State.issue_fvalid (o : Op) (p : Phase) : (s.issue o p).fvalid = false := rfl
@[simp] theorem State.issue_res (o : Op) (p : Phase) : (s.issue o p).res = s.res := rfl
@[simp] theorem State.issue_rxChk (o : Op) (p : Phase) : (s.issue o p).rxChk = s.rxChk := rfl
@[simp] theorem State.issue_chkEn (o : Op) (p : Phase) : (s.issue o p).chkEn = s.chkEn := rfl
@[simp] theorem State.issue_args (o : Op) (p : Phase) : (s.issue o p).args = s.args := rfl
@[simp] theorem State.issue_argBuf (o : Op) (p : Phase) : (s.issue o p).argBuf = s.argBuf := rfl
@[simp] theorem State.issue_matchRegs (o : Op) (p : Phase) : (s.issue o p).matchRegs = s.matchRegs := rfl
@[simp] theorem State.issue_op (o : Op) (p : Phase) : (s.issue o p).op = o := rfl
@[simp] theorem State.issue_rxq (o : Op) (p : Phase) : (s.issue o p).rxq = s.rxq := rfl
@[simp] theorem State.issue_txq (o : Op) (p : Phase) : (s.issue o p).txq = s.txq := rfl
@[simp] theorem State.issue_now (o : Op) (p : Phase) : (s.issue o p).now = s.now := rfl
@[simp] theorem State.issue_encOut (o : Op) (p : Phase) : (s.issue o p).encOut = s.encOut := rfl
@[simp] theorem State.issue_host (o : Op) (p : Phase) : (s.issue o p).host = s.host := rfl
@[simp] theorem State.issue_turns (o : Op) (p : Phase) : (s.issue o p).turns = s.turns := rfl
@[simp] theorem State.issue_freeTurns (o : Op) (p : Phase) : (s.issue o p).freeTurns = s.freeTurns := rfl
@[simp] theorem State.issue_freeReads (o : Op) (p : Phase) : (s.issue o p).freeReads = s.freeReads := rfl
@[simp] theorem State.issue_resets (o : Op) (p : Phase) : (s.issue o p).resets = s.resets := rfl

/-! `State.storeArg` -/
@[simp] theorem State.storeArg_rxBuf (i : Nat) (b : Byte) : (s.storeArg i b).rxBuf = s.rxBuf := rfl
@[simp] theorem State.storeArg_rxCnt (i : Nat) (b : Byte) : (s.storeArg i b).rxCnt = s.rxCnt := rfl
@[simp] theorem State.storeArg_lastProg (i : Nat) (b : Byte) : (s.storeArg i b).lastProg = s.lastProg := rfl
@[simp] theorem State.storeArg_t0 (i : Nat) (b : Byte) : (s.storeArg i b).t0 = s.t0 := rfl
@[simp] theorem State.storeArg_phase (i : Nat) (b : Byte) : (s.storeArg i b).phase = s.phase := rfl
@[simp] theorem State.storeArg_busy (i : Nat) (b : Byte) : (s.storeArg i b).busy = s.busy := rfl
@[simp] theorem State.storeArg_fvalid (i : Nat) (b : Byte) : (s.storeArg i b).fvalid = s.fvalid := rfl
@[simp] theorem State.storeArg_res (i : Nat) (b : Byte) : (s.storeArg i b).res = s.res := rfl
@[simp] theorem State.storeArg_rxChk (i : Nat) (b : Byte) : (s.storeArg i b).rxChk = s.rxChk := rfl
@[simp] theorem State.storeArg_chkEn (i : Nat) (b : Byte) : (s.storeArg i b).chkEn = s.chkEn := rfl
@[simp] theorem State.storeArg_args (i : Nat) (b : Byte) : (s.storeArg i b).args = s.args := rfl
@[simp] theorem State.storeArg_argBuf (i : Nat) (b : Byte) : (s.storeArg i b).argBuf = Memory.write argUnlisted s.argBuf i b := rfl
@[simp] theorem State.storeArg_matchRegs (i : Nat) (b : Byte) : (s.storeArg i b).matchRegs = s.matchRegs := rfl
@[simp] theorem State.storeArg_op (i : Nat) (b : Byte) : (s.storeArg i b).op = s.op := rfl
@[simp] theorem State.storeArg_rxq (i : Nat) (b : Byte) : (s.storeArg i b).rxq = s.rxq := rfl
@[simp] theorem State.storeArg_txq (i : Nat) (b : Byte) : (s.storeArg i b).txq = s.txq := rfl
@[simp] theorem State.storeArg_now (i : Nat) (b : Byte) : (s.storeArg i b).now = s.now := rfl
@[simp] theorem State.storeArg_encOut (i : Nat) (b : Byte) : (s.storeArg i b).encOut = s.encOut := rfl
@[simp] theorem State.storeArg_host (i : Nat) (b : Byte) : (s.storeArg i b).host = s.host := rfl
@[simp] theorem State.storeArg_turns (i : Nat) (b : Byte) : (s.storeArg i b).turns = s.turns := rfl
@[simp] theorem State.storeArg_freeTurns (i : Nat) (b : Byte) : (s.storeArg i b).freeTurns = s.freeTurns := rfl
@[simp] theorem State.storeArg_freeReads (i : Nat) (b : Byte) : (s.storeArg i b).freeReads = s.freeReads := rfl
@[simp] theorem State.storeArg_resets (i : Nat) (b : Byte) : (s.storeArg i b).resets = s.resets := rfl

/-! `State.returnRead` -/
@[simp] theorem State.returnRead_rxBuf (v : Nat) : (s.returnRead v).rxBuf = s.rxBuf := rfl
@[simp] theorem State.returnRead_rxCnt (v : Nat) : (s.returnRead v).rxCnt = s.rxCnt := rfl
@[simp] theorem State.returnRead_lastProg (v : Nat) : (s.returnRead v).lastProg = s.lastProg := rfl
@[simp] theorem State.returnRead_t0 (v : Nat) : (s.returnRead v).t0 = s.t0 := rfl
@[simp] theorem State.returnRead_phase (v : Nat) : (s.returnRead v).phase = s.phase := rfl
@[simp] theorem State.returnRead_busy (v : Nat) : (s.returnRead v).busy = s.busy := rfl
@[simp] theorem State.returnRead_fvalid (v : Nat) : (s.returnRead v).fvalid = s.fvalid := rfl
@[simp] theorem State.returnRead_res (v : Nat) : (s.returnRead v).res = s.res := rfl
@[simp] theorem State.returnRead_rxChk (v : Nat) : (s.returnRead v).rxChk = s.rxChk := rfl
@[simp] theorem State.returnRead_chkEn (v : Nat) : (s.returnRead v).chkEn = s.chkEn := rfl
@[simp] theorem State.returnRead_args (v : Nat) : (s.returnRead v).args = s.args := rfl
@[simp] theorem State.returnRead_argBuf (v : Nat) : (s.returnRead v).argBuf = s.argBuf := rfl
@[simp] theorem State.returnRead_matchRegs (v : Nat) : (s.returnRead v).matchRegs = s.matchRegs := rfl
@[simp] theorem State.returnRead_op (v : Nat) : (s.returnRead v).op = s.op := rfl
@[simp] theorem State.returnRead_rxq (v : Nat) : (s.returnRead v).rxq = s.rxq := rfl
@[simp] theorem State.returnRead_txq (v : Nat) : (s.returnRead v).txq = s.txq := rfl
@[simp] theorem State.returnRead_now (v : Nat) : (s.returnRead v).now = s.now := rfl
@[simp] theorem State.returnRead_encOut (v : Nat) : (s.returnRead v).encOut = s.encOut := rfl
@[simp] theorem State.returnRead_host (v : Nat) : (s.returnRead v).host = { s.host with rdata := v } := rfl
@[simp] theorem State.returnRead_turns (v : Nat) : (s.returnRead v).turns = s.turns := rfl
@[simp] theorem State.returnRead_freeTurns (v : Nat) : (s.returnRead v).freeTurns = s.freeTurns := rfl
@[simp] theorem State.returnRead_freeReads (v : Nat) : (s.returnRead v).freeReads = s.freeReads := rfl
@[simp] theorem State.returnRead_resets (v : Nat) : (s.returnRead v).resets = s.resets := rfl

/-! `State.returnFree` -/
@[simp] theorem State.returnFree_rxBuf : s.returnFree.rxBuf = s.rxBuf := rfl
@[simp] theorem State.returnFree_rxCnt : s.returnFree.rxCnt = s.rxCnt := rfl
@[simp] theorem State.returnFree_lastProg : s.returnFree.lastProg = s.lastProg := rfl
@[simp] theorem State.returnFree_t0 : s.returnFree.t0 = s.t0 := rfl
@[simp] theorem State.returnFree_phase : s.returnFree.phase = s.phase := rfl
@[simp] theorem State.returnFree_busy : s.returnFree.busy = s.busy := rfl
@[simp] theorem State.returnFree_fvalid : s.returnFree.fvalid = s.fvalid := rfl
@[simp] theorem State.returnFree_res : s.returnFree.res = s.res := rfl
@[simp] theorem State.returnFree_rxChk : s.returnFree.rxChk = s.rxChk := rfl
@[simp] theorem State.returnFree_chkEn : s.returnFree.chkEn = s.chkEn := rfl
@[simp] theorem State.returnFree_args : s.returnFree.args = s.args := rfl
@[simp] theorem State.returnFree_argBuf : s.returnFree.argBuf = s.argBuf := rfl
@[simp] theorem State.returnFree_matchRegs : s.returnFree.matchRegs = s.matchRegs := rfl
@[simp] theorem State.returnFree_op : s.returnFree.op = s.op := rfl
@[simp] theorem State.returnFree_rxq : s.returnFree.rxq = s.rxq := rfl
@[simp] theorem State.returnFree_txq : s.returnFree.txq = s.txq := rfl
@[simp] theorem State.returnFree_now : s.returnFree.now = s.now := rfl
@[simp] theorem State.returnFree_encOut : s.returnFree.encOut = s.encOut := rfl
@[simp] theorem State.returnFree_host : s.returnFree.host = { s.host with rdata := Config.busyRead s.freeReads } := rfl
@[simp] theorem State.returnFree_turns : s.returnFree.turns = s.turns := rfl
@[simp] theorem State.returnFree_freeTurns : s.returnFree.freeTurns = s.freeTurns := rfl
@[simp] theorem State.returnFree_freeReads : s.returnFree.freeReads = s.freeReads + 1 := rfl
@[simp] theorem State.returnFree_resets : s.returnFree.resets = s.resets := rfl

/-! `State.skipLines` -/
@[simp] theorem State.skipLines_rxBuf (n : Nat) : (s.skipLines n).rxBuf = s.rxBuf := rfl
@[simp] theorem State.skipLines_rxCnt (n : Nat) : (s.skipLines n).rxCnt = s.rxCnt := rfl
@[simp] theorem State.skipLines_lastProg (n : Nat) : (s.skipLines n).lastProg = s.lastProg := rfl
@[simp] theorem State.skipLines_t0 (n : Nat) : (s.skipLines n).t0 = s.t0 := rfl
@[simp] theorem State.skipLines_phase (n : Nat) : (s.skipLines n).phase = s.phase := rfl
@[simp] theorem State.skipLines_busy (n : Nat) : (s.skipLines n).busy = s.busy := rfl
@[simp] theorem State.skipLines_fvalid (n : Nat) : (s.skipLines n).fvalid = s.fvalid := rfl
@[simp] theorem State.skipLines_res (n : Nat) : (s.skipLines n).res = s.res := rfl
@[simp] theorem State.skipLines_rxChk (n : Nat) : (s.skipLines n).rxChk = s.rxChk := rfl
@[simp] theorem State.skipLines_chkEn (n : Nat) : (s.skipLines n).chkEn = s.chkEn := rfl
@[simp] theorem State.skipLines_args (n : Nat) : (s.skipLines n).args = s.args := rfl
@[simp] theorem State.skipLines_argBuf (n : Nat) : (s.skipLines n).argBuf = s.argBuf := rfl
@[simp] theorem State.skipLines_matchRegs (n : Nat) : (s.skipLines n).matchRegs = s.matchRegs := rfl
@[simp] theorem State.skipLines_op (n : Nat) : (s.skipLines n).op = s.op := rfl
@[simp] theorem State.skipLines_rxq (n : Nat) : (s.skipLines n).rxq = s.rxq := rfl
@[simp] theorem State.skipLines_txq (n : Nat) : (s.skipLines n).txq = s.txq := rfl
@[simp] theorem State.skipLines_now (n : Nat) : (s.skipLines n).now = s.now := rfl
@[simp] theorem State.skipLines_encOut (n : Nat) : (s.skipLines n).encOut = s.encOut := rfl
@[simp] theorem State.skipLines_host (n : Nat) : (s.skipLines n).host = { s.host with prog := s.host.prog.drop n } := rfl
@[simp] theorem State.skipLines_turns (n : Nat) : (s.skipLines n).turns = s.turns := rfl
@[simp] theorem State.skipLines_freeTurns (n : Nat) : (s.skipLines n).freeTurns = s.freeTurns := rfl
@[simp] theorem State.skipLines_freeReads (n : Nat) : (s.skipLines n).freeReads = s.freeReads := rfl
@[simp] theorem State.skipLines_resets (n : Nat) : (s.skipLines n).resets = s.resets := rfl

/-! `State.afterReset` -/
@[simp] theorem State.afterReset_rxBuf : s.afterReset.rxBuf = State.reset.rxBuf := rfl
@[simp] theorem State.afterReset_rxCnt : s.afterReset.rxCnt = State.reset.rxCnt := rfl
@[simp] theorem State.afterReset_lastProg : s.afterReset.lastProg = State.reset.lastProg := rfl
@[simp] theorem State.afterReset_t0 : s.afterReset.t0 = State.reset.t0 := rfl
@[simp] theorem State.afterReset_phase : s.afterReset.phase = State.reset.phase := rfl
@[simp] theorem State.afterReset_busy : s.afterReset.busy = State.reset.busy := rfl
@[simp] theorem State.afterReset_fvalid : s.afterReset.fvalid = State.reset.fvalid := rfl
@[simp] theorem State.afterReset_res : s.afterReset.res = State.reset.res := rfl
@[simp] theorem State.afterReset_rxChk : s.afterReset.rxChk = State.reset.rxChk := rfl
@[simp] theorem State.afterReset_chkEn : s.afterReset.chkEn = State.reset.chkEn := rfl
@[simp] theorem State.afterReset_args : s.afterReset.args = State.reset.args := rfl
@[simp] theorem State.afterReset_argBuf : s.afterReset.argBuf = State.reset.argBuf := rfl
@[simp] theorem State.afterReset_matchRegs : s.afterReset.matchRegs = State.reset.matchRegs := rfl
@[simp] theorem State.afterReset_op : s.afterReset.op = State.reset.op := rfl
@[simp] theorem State.afterReset_rxq : s.afterReset.rxq = s.rxq := rfl
@[simp] theorem State.afterReset_txq : s.afterReset.txq = State.reset.txq := rfl
@[simp] theorem State.afterReset_now : s.afterReset.now = s.now := rfl
@[simp] theorem State.afterReset_encOut : s.afterReset.encOut = State.reset.encOut := rfl
@[simp] theorem State.afterReset_host : s.afterReset.host = s.host := rfl
@[simp] theorem State.afterReset_turns : s.afterReset.turns = s.turns := rfl
@[simp] theorem State.afterReset_freeTurns : s.afterReset.freeTurns = s.freeTurns := rfl
@[simp] theorem State.afterReset_freeReads : s.afterReset.freeReads = s.freeReads := rfl
@[simp] theorem State.afterReset_resets : s.afterReset.resets = s.resets + 1 := rfl

end Sys2Proof.Machine
end

