-- ==== Sys2Proof/Laws/Buffer.lean ====
section
/-! SUPPORT. The receive buffer as a list of bytes: what it holds after a clear and after an append, and the frame read from it. -/

namespace Sys2Proof.Machine

/-- The receive buffer holds exactly these bytes, from index 0 on, and zeros behind them. -/
def Holds (s : State) (bs : List Byte) : Prop :=
  Memory.wf rxUnlisted s.rxBuf = true ∧ Memory.below bs.length s.rxBuf = true ∧ s.rxCnt.toNat = bs.length ∧
    bs.length ≤ Config.cap ∧ ∀ i, s.rxByte i = bs[i]?.getD 0x00

theorem Holds.congr {s t : State} {bs : List Byte} (h : Holds s bs) (h1 : t.rxBuf = s.rxBuf) (h2 : t.rxCnt = s.rxCnt) :
    Holds t bs := by
  obtain ⟨a, b, c, d, e⟩ := h
  refine ⟨by rw [h1]; exact a, by rw [h1]; exact b, by rw [h2]; exact c, d, fun i => ?_⟩
  rw [← e i]
  simp [State.rxByte, h1]

theorem Holds.of_clear {s : State} (h1 : s.rxBuf = []) (h2 : s.rxCnt = 0) : Holds s [] := by
  refine ⟨by simp [h1], by simp [h1], by simp [h2], by decide, fun i => ?_⟩
  simp [State.rxByte, h1]

/-- A byte of the buffer, in terms of what its address reads as. -/
theorem State.rxByte_eq (s : State) (i : Nat) :
    s.rxByte i = if i < Config.cap then ((Memory.read s.rxBuf i).or rxUnlisted).getD 0x00 else 0x00 := by
  unfold State.rxByte rxUnlisted
  split
  · cases Memory.read s.rxBuf i <;> rfl
  · rfl

/-- A byte of the buffer after a byte is stored below `CAP`. -/
theorem rxByte_write {s : State} (hwf : Memory.wf rxUnlisted s.rxBuf = true) {a : Nat} (ha : a < Config.cap) (b : Byte)
    (i : Nat) :
    State.rxByte { s with rxBuf := Memory.write rxUnlisted s.rxBuf a b } i = if i = a then b else s.rxByte i := by
  simp only [State.rxByte_eq, Memory.read_write hwf]
  by_cases hi : i = a
  · simp [hi, ha]
  · simp [hi]

/-- The append below `CAP`. -/
theorem State.storeByte_next {s : State} (b : Byte) (h : s.rxCnt.toNat < Config.cap) :
    s.storeByte b = .next (s.append b) := by
  simp [State.storeByte, h]

/-- At `CAP` there is no room (R23). -/
theorem State.storeByte_full {s : State} (b : Byte) (h : ¬ s.rxCnt.toNat < Config.cap) :
    s.storeByte b = .fault .rxBufOverrun := by
  simp [State.storeByte, h]

theorem Holds.store {s t : State} {bs : List Byte} (h : Holds s bs) (hl : bs.length < Config.cap) (b : Byte)
    (h1 : t.rxBuf = Memory.write rxUnlisted s.rxBuf s.rxCnt.toNat b) (h2 : t.rxCnt = s.rxCnt + 1) :
    Holds t (bs ++ [b]) := by
  obtain ⟨hw, hb, hc, _, hr⟩ := h
  have hcap : Config.cap = 1800 := rfl
  refine ⟨?_, ?_, ?_, by simp; omega, fun i => ?_⟩
  · rw [h1]; exact Memory.wf_write hw _ _
  · rw [h1, hc]
    refine Memory.below_write (Memory.below_mono hb ?_) ?_ <;> simp
  · rw [h2, BitVec.toNat_add, hc]
    simp
    omega
  · have : t.rxByte i = State.rxByte { s with rxBuf := Memory.write rxUnlisted s.rxBuf s.rxCnt.toNat b } i := by
      simp [State.rxByte, h1]
    rw [this, rxByte_write hw (by omega), hc, hr i]
    rcases Nat.lt_trichotomy i bs.length with h | h | h
    · rw [if_neg (by omega), List.getElem?_append_left h]
    · subst h; simp
    · rw [if_neg (by omega), List.getElem?_eq_none (by omega), List.getElem?_eq_none (by simp; omega)]

theorem Holds.lenField {s : State} {h l : Byte} {r : List Byte} (hs : Holds s (h :: l :: r)) :
    s.lenField = (be16 h l).toNat := by
  obtain ⟨_, _, _, _, hr⟩ := hs
  simp [State.lenField, hr 0, hr 1]

theorem Holds.total_short {s : State} {bs : List Byte} (hs : Holds s bs) (h : bs.length < 2) : s.total = 3 := by
  obtain ⟨_, _, hc, _, _⟩ := hs
  simp [State.total, hc, h, Config.overhead]

theorem Holds.total {s : State} {h l : Byte} {r : List Byte} (hs : Holds s (h :: l :: r)) :
    s.total = (be16 h l).toNat + 3 := by
  have hl := hs.lenField
  obtain ⟨_, _, hc, _, _⟩ := hs
  simp [State.total, hc, hl, Config.overhead]

/-- The frame read from a buffer that holds the length field, the type, the payload and the checksum. -/
theorem Holds.frame {s : State} {h l type c : Byte} {payload : List Byte}
    (hs : Holds s (h :: l :: type :: (payload ++ [c]))) (hl : (be16 h l).toNat = payload.length + 1) :
    s.frameType = type ∧ s.framePayload = payload ∧ s.wireChecksum = c := by
  have hf := hs.lenField
  obtain ⟨_, _, _, _, hr⟩ := hs
  refine ⟨by simp [State.frameType, hr], ?_, ?_⟩
  · have hp : s.payloadLen = payload.length := by simp [State.payloadLen, hf, hl]
    apply List.ext_getElem
    · simp [State.framePayload, hp]
    · intro i h1 h2
      have : 3 + i = i + 1 + 1 + 1 := by omega
      simp [State.framePayload, hr, this, List.getElem?_append_left h2, List.getElem?_eq_getElem h2]
  · have : payload.length + 1 + 2 = payload.length + 1 + 1 + 1 := by omega
    simp [State.wireChecksum, hf, hl, hr, this]

end Sys2Proof.Machine
end

