-- ==== Sys2Proof/Laws/Sequencer.lean ====
section
/-! SUPPORT. The sequencer: what a micro-step can do, said once for each part of it, and the induction over micro-steps taken in a row. -/

namespace Sys2Proof.Machine

/-- What no micro-step touches (R34, R36, R41 to R43, R70). -/
def Untouched (s t : State) : Prop :=
  t.now = s.now ∧ t.args = s.args ∧ t.matchRegs = s.matchRegs ∧ t.chkEn = s.chkEn ∧ t.t0 = s.t0 ∧
    t.argBuf = s.argBuf ∧ t.txq = s.txq ∧ t.encOut = s.encOut ∧ t.host = s.host ∧ t.turns = s.turns ∧
    t.freeTurns = s.freeTurns ∧ t.freeReads = s.freeReads ∧ t.resets = s.resets

theorem Untouched.rfl {s : State} : Untouched s s := by simp [Untouched]

theorem Untouched.trans {s t u : State} (h : Untouched s t) (h' : Untouched t u) : Untouched s u := by
  unfold Untouched at *
  simp_all

/-- The end of a decode that runs: a DECODE completes, a wait is matched or goes back to CHECK (R150, R200). -/
theorem State.decodeDone_cases (s : State) (code : Res) (h : s.op ≠ .none) :
    (s.op = .decode ∧ s.decodeDone code = State.complete code { s with fvalid := decide (code = .okFrame) }) ∨
    (s.op = .await ∧ code = .okFrame ∧ s.matches = true ∧
      s.decodeDone code = State.complete .matched { s with fvalid := true }) ∨
    (s.op = .await ∧ ¬ (code = .okFrame ∧ s.matches = true) ∧
      s.decodeDone code = { s with fvalid := false, phase := .check }) := by
  cases ho : s.op with
  | none => exact absurd ho h
  | decode => simp [State.decodeDone, ho]
  | await =>
    simp only [State.decodeDone, ho, State.correlate, Bool.and_eq_true, decide_eq_true_eq]
    by_cases hm : code = .okFrame ∧ s.matches = true
    · rw [if_pos hm]; exact .inr (.inl ⟨trivial, hm.1, hm.2, rfl⟩)
    · rw [if_neg hm]; exact .inr (.inr ⟨trivial, hm, rfl⟩)

theorem State.decodeDone_untouched (s : State) (code : Res) : Untouched s (s.decodeDone code) := by
  unfold State.decodeDone State.correlate
  repeat' split
  all_goals simp [Untouched]

@[simp] theorem State.decodeDone_rxBuf (s : State) (code : Res) : (s.decodeDone code).rxBuf = s.rxBuf := by
  unfold State.decodeDone State.correlate
  repeat' split
  all_goals rfl

@[simp] theorem State.decodeDone_rxCnt (s : State) (code : Res) : (s.decodeDone code).rxCnt = s.rxCnt := by
  unfold State.decodeDone State.correlate
  repeat' split
  all_goals rfl

@[simp] theorem State.decodeDone_rxq (s : State) (code : Res) : (s.decodeDone code).rxq = s.rxq := by
  unfold State.decodeDone State.correlate
  repeat' split
  all_goals rfl

@[simp] theorem State.decodeDone_rxChk (s : State) (code : Res) : (s.decodeDone code).rxChk = s.rxChk := by
  unfold State.decodeDone State.correlate
  repeat' split
  all_goals rfl

@[simp] theorem State.decodeDone_lastProg (s : State) (code : Res) : (s.decodeDone code).lastProg = s.lastProg := by
  unfold State.decodeDone State.correlate
  repeat' split
  all_goals rfl

/-- HUNT (R152): the stream is empty, the next byte is discarded, or it is the start marker. -/
theorem State.huntStep_cases (s : State) :
    (s.rxq = [] ∧ s.huntStep = s.decodeDone .noStartDelimiter) ∨
    (∃ b q, s.rxq = b :: q ∧ b ≠ Config.start ∧ s.huntStep = s.popped q) ∨
    (∃ q, s.rxq = Config.start :: q ∧
      s.huntStep = { (s.popped q).clearRxBuf with lastProg := s.now, phase := .collect }) := by
  cases hq : s.rxq with
  | nil => exact .inl ⟨rfl, by simp [State.huntStep, hq]⟩
  | cons b q =>
    by_cases hb : b = Config.start
    · subst hb
      exact .inr (.inr ⟨q, rfl, by simp [State.huntStep, hq]⟩)
    · exact .inr (.inl ⟨b, q, rfl, hb, by simp [State.huntStep, hq, hb]⟩)

/-- `finish_frame()` (R161): the three outcomes. -/
theorem State.finishFrame_cases (s : State) :
    (s.lenField = 0 ∧ s.finishFrame = s.clearRxBuf.decodeDone .badLength) ∨
    (s.lenField ≠ 0 ∧ s.chkEn = true ∧ checksum s.frameType s.framePayload ≠ s.wireChecksum ∧
      s.finishFrame =
        (State.clearRxBuf { s with rxChk := checksum s.frameType s.framePayload }).decodeDone .checksumMismatch) ∨
    (s.lenField ≠ 0 ∧ (s.chkEn = false ∨ checksum s.frameType s.framePayload = s.wireChecksum) ∧
      s.finishFrame = State.decodeDone .okFrame { s with rxChk := checksum s.frameType s.framePayload }) := by
  unfold State.finishFrame
  by_cases h : s.lenField = 0
  · simp [h]
  · simp only [h, if_false, ne_eq, not_false_eq_true, true_and, false_and, false_or]
    by_cases hc : s.chkEn = true ∧ checksum s.frameType s.framePayload ≠ s.wireChecksum
    · left
      simp [hc.1, hc.2]
    · right
      refine ⟨?_, ?_⟩
      · by_cases h' : s.chkEn = true
        · right; by_contra hne; exact hc ⟨h', hne⟩
        · left; simpa using h'
      · rw [if_neg (by simpa using hc)]

/-- What follows an append (R156): too large, complete, or still collecting. -/
theorem State.afterStore_cases (s : State) :
    (s.rxCnt = 2 ∧ s.lenField + Config.overhead > Config.cap ∧
      s.afterStore = s.clearRxBuf.decodeDone .frameTooLarge) ∨
    (¬ (s.rxCnt = 2 ∧ s.lenField + Config.overhead > Config.cap) ∧ s.rxCnt.toNat = s.total ∧
      s.afterStore = s.finishFrame) ∨
    (¬ (s.rxCnt = 2 ∧ s.lenField + Config.overhead > Config.cap) ∧ s.rxCnt.toNat ≠ s.total ∧ s.afterStore = s) := by
  unfold State.afterStore
  by_cases h : s.rxCnt = 2 ∧ s.lenField + Config.overhead > Config.cap
  · rw [if_pos h]; exact .inl ⟨h.1, h.2, rfl⟩
  · rw [if_neg h]
    by_cases h' : s.rxCnt.toNat = s.total
    · rw [if_pos h']; exact .inr (.inl ⟨h, h', rfl⟩)
    · rw [if_neg h']; exact .inr (.inr ⟨h, h', rfl⟩)

/-- COLLECT (R156): everything it can do when it answers. -/
theorem State.collectStep_next {s t : State} (h : s.collectStep = .next t) :
    (∃ b q, s.rxq = b :: q ∧ s.rxCnt.toNat < Config.cap ∧
      t = ((s.popped q).append b).afterStore) ∨
    (s.rxq = [] ∧ s.lastProg ≤ s.now ∧ s.args.inact < s.now - s.lastProg ∧
      t = s.clearRxBuf.decodeDone .frameTimeout) ∨
    (s.rxq = [] ∧ s.lastProg ≤ s.now ∧ s.now - s.lastProg ≤ s.args.inact ∧ t = s) := by
  unfold State.collectStep at h
  cases hq : s.rxq with
  | cons b q =>
    simp only [hq] at h
    by_cases hc : (s.popped q).rxCnt.toNat < Config.cap
    · rw [State.storeByte_next b hc] at h
      simp only [Host.Outcome.next.injEq] at h
      exact .inl ⟨b, q, rfl, hc, h.symm⟩
    · rw [State.storeByte_full b hc] at h
      simp at h
  | nil =>
    simp only [hq, State.elapsedSince] at h
    by_cases hl : s.lastProg ≤ s.now
    · simp only [if_pos hl] at h
      by_cases he : s.now - s.lastProg > s.args.inact
      · rw [if_pos he] at h
        simp only [Host.Outcome.next.injEq] at h
        exact .inr (.inl ⟨rfl, hl, he, h.symm⟩)
      · rw [if_neg he] at h
        simp only [Host.Outcome.next.injEq] at h
        exact .inr (.inr ⟨rfl, hl, by omega, h.symm⟩)
    · simp [if_neg hl] at h

/-- CHECK (R198): everything it can do when it answers. -/
theorem State.checkStep_next {s t : State} (h : s.checkStep = .next t) :
    s.t0 ≤ s.now ∧
    ((s.args.timeout < s.now - s.t0 ∧ t = State.complete .timedOut { s with fvalid := false }) ∨
      (s.now - s.t0 ≤ s.args.timeout ∧ t = { s with phase := .hunt })) := by
  unfold State.checkStep State.elapsedSince at h
  by_cases hl : s.t0 ≤ s.now
  · simp only [if_pos hl] at h
    refine ⟨hl, ?_⟩
    by_cases he : s.now - s.t0 > s.args.timeout
    · rw [if_pos he] at h
      simp only [Host.Outcome.next.injEq] at h
      exact .inl ⟨he, h.symm⟩
    · rw [if_neg he] at h
      simp only [Host.Outcome.next.injEq] at h
      exact .inr ⟨by omega, h.symm⟩
  · simp [if_neg hl] at h

theorem State.microStep_idle {s : State} (h : s.busy = false) : s.microStep = .next s := by
  simp [State.microStep, h]

theorem State.microStep_hunt {s : State} (hb : s.busy = true) (ho : s.op ≠ .none) (hp : s.phase = .hunt) :
    s.microStep = .next s.huntStep := by
  cases h : s.op <;> simp_all [State.microStep]

theorem State.microStep_collect {s : State} (hb : s.busy = true) (ho : s.op ≠ .none) (hp : s.phase = .collect) :
    s.microStep = s.collectStep := by
  cases h : s.op <;> simp_all [State.microStep]

theorem State.microStep_check {s : State} (hb : s.busy = true) (ho : s.op = .await) (hp : s.phase = .check) :
    s.microStep = s.checkStep := by
  simp [State.microStep, hb, ho, hp]

/-- A micro-step (R27): everything it can be when it answers. -/
theorem State.microStep_next {s t : State} (h : s.microStep = .next t) :
    (s.busy = false ∧ t = s) ∨
    (s.busy = true ∧ s.op ≠ .none ∧ s.phase = .hunt ∧ t = s.huntStep) ∨
    (s.busy = true ∧ s.op ≠ .none ∧ s.phase = .collect ∧ s.collectStep = .next t) ∨
    (s.busy = true ∧ s.op = .await ∧ s.phase = .check ∧ s.checkStep = .next t) := by
  unfold State.microStep at h
  split at h
  · rename_i hb
    right
    split at h <;> simp_all
  · simp_all

/-- The end of a frame touches nothing of the block's surroundings and reads no byte (R161). -/
theorem State.finishFrame_only (s : State) : Untouched s s.finishFrame ∧ s.finishFrame.rxq = s.rxq := by
  rcases s.finishFrame_cases with ⟨-, e⟩ | ⟨-, -, -, e⟩ | ⟨-, -, e⟩ <;> rw [e] <;>
    exact ⟨Untouched.trans (by simp [Untouched, State.clearRxBuf]) (State.decodeDone_untouched _ _),
      by simp [State.clearRxBuf]⟩

/-- Nor does what follows an append (R156). -/
theorem State.afterStore_only (s : State) : Untouched s s.afterStore ∧ s.afterStore.rxq = s.rxq := by
  rcases s.afterStore_cases with ⟨-, -, e⟩ | ⟨-, -, e⟩ | ⟨-, -, e⟩ <;> rw [e]
  · exact ⟨Untouched.trans (by simp [Untouched, State.clearRxBuf]) (State.decodeDone_untouched _ _),
      by simp [State.clearRxBuf]⟩
  · exact s.finishFrame_only
  · exact ⟨Untouched.rfl, rfl⟩

/-- A micro-step takes at most one byte off the head of `RXQ` and touches nothing of the block's surroundings (R40). -/
theorem State.microStep_only {s t : State} (h : s.microStep = .next t) :
    Untouched s t ∧ ∃ k, k ≤ 1 ∧ t.rxq = s.rxq.drop k := by
  rcases State.microStep_next h with ⟨-, rfl⟩ | ⟨-, -, -, rfl⟩ | ⟨-, -, -, h⟩ | ⟨-, -, -, h⟩
  · exact ⟨Untouched.rfl, 0, by simp⟩
  · rcases s.huntStep_cases with ⟨-, e⟩ | ⟨b, q, hq, -, e⟩ | ⟨q, hq, e⟩ <;> rw [e]
    · exact ⟨State.decodeDone_untouched _ _, 0, by simp⟩
    · exact ⟨by simp [Untouched, State.popped], 1, by simp [hq, State.popped]⟩
    · exact ⟨by simp [Untouched, State.popped, State.clearRxBuf], 1, by simp [hq, State.popped, State.clearRxBuf]⟩
  · rcases State.collectStep_next h with ⟨b, q, hq, -, rfl⟩ | ⟨-, -, -, rfl⟩ | ⟨-, -, -, rfl⟩
    · obtain ⟨h1, h2⟩ := State.afterStore_only (State.append b (s.popped q))
      exact ⟨Untouched.trans (by simp [Untouched, State.popped, State.append]) h1, 1,
        by rw [h2]; simp [hq, State.popped, State.append]⟩
    · exact ⟨Untouched.trans (by simp [Untouched, State.clearRxBuf]) (State.decodeDone_untouched _ _), 0,
        by simp [State.clearRxBuf]⟩
    · exact ⟨Untouched.rfl, 0, by simp⟩
  · rcases (State.checkStep_next h).2 with ⟨-, rfl⟩ | ⟨-, rfl⟩ <;>
      exact ⟨by simp [Untouched, State.complete], 0, by simp [State.complete]⟩

/-- Micro-steps in a row keep what one micro-step keeps. -/
theorem State.drain_keeps {P : State → Prop} (hP : ∀ s t, P s → s.microStep = .next t → P t) (n : Nat) {s t : State}
    (hs : P s) (h : State.drain n s = .next t) : P t := by
  induction n generalizing s with
  | zero => simp only [State.drain, Host.Outcome.next.injEq] at h; exact h ▸ hs
  | succ n ih =>
    simp only [State.drain] at h
    split at h
    · split at h
      · rename_i u hu
        exact ih (hP s u hs hu) h
      · simp at h
      · simp at h
    · simp only [Host.Outcome.next.injEq] at h; exact h ▸ hs

/-- Where no stop can come from a state that holds `P`, none comes from a row of micro-steps. -/
theorem State.drain_total {P : State → Prop} (hP : ∀ s, P s → ∃ t, s.microStep = .next t ∧ P t) (n : Nat) {s : State}
    (hs : P s) : ∃ t, State.drain n s = .next t ∧ P t := by
  induction n generalizing s with
  | zero => exact ⟨s, rfl, hs⟩
  | succ n ih =>
    simp only [State.drain]
    split
    · obtain ⟨u, hu, hPu⟩ := hP s hs
      rw [hu]
      exact ih hPu
    · exact ⟨s, rfl, hs⟩

/-- Bytes that arrive together and are read go to the tail of `RXQ`, and only its head is lost (R40). -/
theorem State.receive_only {s t : State} {bytes : List Byte} (h : s.receive bytes = .next t) :
    Untouched s t ∧ ∃ k, t.rxq = (s.rxq ++ bytes).drop k := by
  refine State.drain_keeps (P := fun u => Untouched s u ∧ ∃ k, u.rxq = (s.rxq ++ bytes).drop k) ?_ _ ?_ h
  · rintro u v ⟨h1, k, h2⟩ h
    obtain ⟨h3, j, -, h4⟩ := State.microStep_only h
    exact ⟨h1.trans h3, k + j, by rw [h4, h2, List.drop_drop]⟩
  · exact ⟨by simp [Untouched, State.arrive], 0, by simp [State.arrive]⟩

/-- A frame row is the arrival of its bytes, read as far as the operation goes. -/
theorem exec_frame {i : Instr} {len : Half} {type : Byte} {body : List Byte}
    (h : i.frameParts = some (len, type, body)) (s : State) :
    exec i s = s.receive (wireBytes len type body) := by
  cases i <;> simp_all [Instr.frameParts, exec, execFrame, execAtCommand, execAtResponse, execTxRequest,
    execModemStatus]

end Sys2Proof.Machine
end

