-- ==== Sys2Proof/Laws/HostSide.lean ====
section
/-! SUPPORT. The host's side: when a command is accepted, what a write of operand bytes does, and what a comparator says of the payload. -/

namespace Sys2Proof.Machine

/-- A command that answers was accepted: `BUSY` was 0 (R250). -/
theorem whenIdle_next {s t : State} {e : Host.Outcome State Fault Refusal} (h : whenIdle s e = .next t) :
    s.busy = false ∧ e = .next t := by
  unfold whenIdle at h
  split at h
  · simp at h
  · simp_all

/-- With `BUSY = 0` a command has its effect (R250). -/
theorem whenIdle_idle {s : State} (h : s.busy = false) (e : Host.Outcome State Fault Refusal) : whenIdle s e = e := by
  simp [whenIdle, h]

/-- One byte of `ARGBUF` stored: the others read as before (R35). -/
theorem State.argByte_storeArg (s : State) (i : Nat) (b : Byte) (j : Nat) :
    (s.storeArg i b).argByte j = if j = i then b else s.argByte j := by
  simp only [State.argByte, State.storeArg, Memory.write, argUnlisted, reduceCtorEq, if_false, Memory.read_insert]
  split <;> simp

/-- Bytes stored into `ARGBUF` touch nothing else, and keep it canonical and inside its bound (R35). -/
theorem State.storeArgs_only (bs : List Byte) : ∀ (s : State) (i : Nat),
    ∃ m, s.storeArgs i bs = { s with argBuf := m } ∧
      (Memory.wf argUnlisted s.argBuf = true → Memory.below Config.argCap s.argBuf = true →
        i + bs.length ≤ Config.argCap → Memory.wf argUnlisted m = true ∧ Memory.below Config.argCap m = true) := by
  induction bs with
  | nil => exact fun s i => ⟨s.argBuf, rfl, fun h1 h2 _ => ⟨h1, h2⟩⟩
  | cons b bs ih =>
    intro s i
    obtain ⟨m, e, hm⟩ := ih (s.storeArg i b) (i + 1)
    refine ⟨m, e, fun h1 h2 h3 => hm (Memory.wf_write h1 _ _)
      (Memory.below_write (u := argUnlisted) (a := i) (b := b) h2 ?_) ?_⟩ <;>
    · simp at h3
      omega

/-- What a byte of `ARGBUF` reads as after bytes were stored from an index on (R35). -/
theorem State.argByte_storeArgs (bs : List Byte) : ∀ (s : State) (i j : Nat),
    (s.storeArgs i bs).argByte j = if i ≤ j then (bs[j - i]?).getD (s.argByte j) else s.argByte j := by
  induction bs with
  | nil => intro s i j; simp [State.storeArgs]
  | cons b bs ih =>
    intro s i j
    rw [State.storeArgs, ih, State.argByte_storeArg]
    rcases Nat.lt_trichotomy j i with h | rfl | h
    · have a1 : ¬ i + 1 ≤ j := by omega
      have a2 : ¬ i ≤ j := by omega
      have a3 : ¬ j = i := by omega
      simp [a1, a2, a3]
    · simp
    · obtain ⟨d, rfl⟩ : ∃ d, j = i + 1 + d := ⟨j - (i + 1), by omega⟩
      have e1 : i + 1 + d - i = d + 1 := by omega
      have e2 : i + 1 + d - (i + 1) = d := by omega
      have a1 : i + 1 ≤ i + 1 + d := by omega
      have a2 : i ≤ i + 1 + d := by omega
      have a3 : ¬ i + 1 + d = i := by omega
      simp [a1, a2, a3, e1, e2]

/-- The operand sequence reads back as it was stored (R35). -/
theorem State.argBytes_storeArgs (s : State) (bs : List Byte) : (s.storeArgs 0 bs).argBytes bs.length = bs := by
  apply List.ext_getElem
  · simp [State.argBytes]
  · intro i h1 h2
    simp [State.argBytes, State.argByte_storeArgs, h2]

/-- A byte of `ARGBUF` is read from it alone, and from what it reads as before a write (U9). -/
theorem State.argByte_congr {s t : State} (h : t.argBuf = s.argBuf) (hr : t.resets = s.resets) (j : Nat) :
    t.argByte j = s.argByte j := by
  simp [State.argByte, h, hr]

/-- So is the operand sequence. -/
theorem State.argBytes_congr {s t : State} (h : t.argBuf = s.argBuf) (hr : t.resets = s.resets) (n : Nat) :
    t.argBytes n = s.argBytes n := by
  simp [State.argBytes, State.argByte_congr h hr]

/-- The host's turn for a line that stores an operand sequence: it always completes and changes `ARGBUF` alone; in
every later state that leaves `ARGBUF` as it is the stored bytes read back and the others read as before (R35, R109). -/
theorem State.takeTurn_bufLine {s : State} {bytes : List Byte} {rest : List HostLine} (hb : s.busy = false)
    (hp : s.host.prog = bufLine bytes :: rest) :
    ∃ m, s.takeTurn .host = .next { s with argBuf := m, host := { s.host with prog := rest } } ∧
      ∀ t : State, t.argBuf = m → t.resets = s.resets →
        t.argBytes (bytes.take Config.argCap).length = bytes.take Config.argCap ∧
        ∀ j, t.argByte j = ((bytes.take Config.argCap)[j]?).getD (s.argByte j) := by
  obtain ⟨m, e, -⟩ :=
    State.storeArgs_only (bytes.take Config.argCap) { s with host := { s.host with prog := rest } } 0
  refine ⟨m, ?_, fun t ht hr => ⟨?_, fun j => ?_⟩⟩
  · simp only [State.takeTurn, State.hostTurn, hp, bufLine, State.hostLine, State.hostWriteArgBuf, hb]
    rw [if_neg (by simp), if_pos (by simp), ← hb, e]
  · rw [State.argBytes_congr (s := { s with argBuf := m, host := { s.host with prog := rest } }) ht hr]
    have := State.argBytes_storeArgs { s with host := { s.host with prog := rest } } (bytes.take Config.argCap)
    rwa [e] at this
  · rw [State.argByte_congr (s := { s with argBuf := m, host := { s.host with prog := rest } }) ht hr]
    have := State.argByte_storeArgs (bytes.take Config.argCap) { s with host := { s.host with prog := rest } } 0 j
    rw [e] at this
    simpa [State.argByte] using this

/-- A comparator in terms of the payload (R193, R194). -/
theorem State.comparator_iff (s : State) (i : Fin 4) : s.comparator i = true ↔
    (i.val < s.matchRegs.n.toNat → s.framePayload[(s.matchRegs.off[i]).toNat]? = some s.matchRegs.val[i]) := by
  unfold State.comparator
  by_cases h : i.val < s.matchRegs.n.toNat
  · simp only [h, if_true, Bool.and_eq_true, decide_eq_true_eq, true_imp_iff]
    generalize (s.matchRegs.off[i]).toNat = k
    by_cases hk : k < s.payloadLen <;> simp [State.framePayload, hk]
  · simp [h]

/-- The frame in the buffer is read from `RXBUF` and `RXCNT` alone. -/
theorem State.frame_congr {s t : State} (h1 : t.rxBuf = s.rxBuf) (h2 : t.rxCnt = s.rxCnt) :
    t.total = s.total ∧ t.lenField = s.lenField ∧ t.frameType = s.frameType ∧ t.framePayload = s.framePayload := by
  refine ⟨?_, ?_, ?_, ?_⟩ <;>
    simp [State.total, State.lenField, State.frameType, State.framePayload, State.payloadLen, State.rxByte, h1, h2]

end Sys2Proof.Machine
end

