-- ==== Sys2Proof/Laws/PerInstr.lean ====
section
/-! SUPPORT. The family EncodedSize: how many bytes a well-formed instruction is encoded in, one lemma per constructor. -/

namespace Sys2Proof.Laws.EncodedSize

/-- A well-formed instruction is encoded in as many bytes as it has: one for a command, `LEN + 4` for a frame (R92). -/
def Statement (i : Instr) : Prop :=
  i.wellFormed = true → (Sys2Proof.encode i).bytes.length = i.byteCount

theorem of_frame (len : Half) (type : Byte) (body : List Byte) (h : bodyFits len body = true) :
    (wireBytes len type body).length = len.toNat + 4 := by
  simp only [bodyFits, beq_iff_eq] at h
  simp [wireBytes, u16be, h]

theorem cmdEncode : Statement .cmdEncode := fun _ => rfl

theorem cmdDecode : Statement .cmdDecode := fun _ => rfl

theorem sendCommand : Statement .sendCommand := fun _ => rfl

theorem awaitMatch : Statement .awaitMatch := fun _ => rfl

theorem awaitMatchT0 : Statement .awaitMatchT0 := fun _ => rfl

theorem teardown : Statement .teardown := fun _ => rfl

theorem frame (len : Half) (type : Byte) (body : List Byte) : Statement (.frame len type body) := by
  intro h
  simp only [Instr.wellFormed, Bool.and_eq_true] at h
  exact of_frame len type body h.1

theorem atCommand (len : Half) (body : List Byte) : Statement (.atCommand len body) :=
  of_frame len Config.typeAtCommand body

theorem atResponse (len : Half) (body : List Byte) : Statement (.atResponse len body) :=
  of_frame len Config.typeAtResponse body

theorem txRequest (len : Half) (body : List Byte) : Statement (.txRequest len body) :=
  of_frame len Config.typeTxRequest body

theorem modemStatus (len : Half) (body : List Byte) : Statement (.modemStatus len body) :=
  of_frame len Config.typeModemStatus body

end Sys2Proof.Laws.EncodedSize
end

