-- ==== Sys2Proof/Laws/Receive.lean ====
section
/-! SUPPORT. A frame read from the stream: rows of micro-steps, the bytes in the middle of a frame, and a whole frame from HUNT to finish_frame. -/

namespace Sys2Proof.Machine

/-- Micro-steps in two rows. -/
theorem State.microSteps_add (m n : Nat) (s : State) : s.microSteps (m + n) =
    match s.microSteps m with
    | .next t => t.microSteps n
    | .fault f => .fault f
    | .refused r => .refused r := by
  induction m generalizing s with
  | zero => simp [State.microSteps]
  | succ m ih =>
    rw [Nat.succ_add]
    simp only [State.microSteps]
    cases s.microStep with
    | next u => exact ih u
    | fault => rfl
    | refused => rfl

theorem State.microSteps_one (s : State) : s.microSteps 1 = s.microStep := by
  simp only [State.microSteps]
  cases s.microStep <;> rfl

/-- COLLECT with a byte available and room for it: the byte is behind those held, and what follows the append is decided
there (R156, R157). -/
theorem Holds.collect {s : State} {bs : List Byte} {b : Byte} {q : List Byte}
    (hb : s.busy = true) (ho : s.op ≠ .none) (hp : s.phase = .collect) (hh : Holds s bs) (hq : s.rxq = b :: q)
    (hlt : bs.length < Config.cap) :
    Holds ((s.popped q).append b) (bs ++ [b]) ∧ s.microStep = .next ((s.popped q).append b).afterStore := by
  refine ⟨Holds.store (s := s) hh hlt b rfl rfl, ?_⟩
  rw [State.microStep_collect hb ho hp]
  have : (s.popped q).rxCnt.toNat < Config.cap := by rw [State.popped_rxCnt, hh.2.2.1]; exact hlt
  simp [State.collectStep, hq, State.storeByte_next b this]

/-- In the middle of a frame that fits nothing follows the append (R158, R160). -/
theorem Holds.afterStore_middle {s : State} {bs : List Byte} (hh : Holds s bs)
    (hm : bs.length < 2 ∨ ∃ h l r, bs = h :: l :: r ∧ bs.length < (be16 h l).toNat + 3 ∧ (be16 h l).toNat + 3 ≤ 1800) :
    s.afterStore = s := by
  have hcap : Config.cap = 1800 := rfl
  have hov : Config.overhead = 3 := rfl
  have hc := hh.2.2.1
  have h2 : s.rxCnt = 2 → bs.length = 2 := by intro h; rw [← hc, h]; rfl
  rcases hm with hm | ⟨h, l, r, e, h1, h3⟩
  · rcases s.afterStore_cases with ⟨a, _, _⟩ | ⟨_, a, _⟩ | ⟨_, _, a⟩
    · have := h2 a; omega
    · rw [hh.total_short hm] at a; omega
    · exact a
  · subst e
    rcases s.afterStore_cases with ⟨a, c, _⟩ | ⟨_, a, _⟩ | ⟨_, _, a⟩
    · rw [hh.lenField] at c; omega
    · rw [hh.total] at a; omega
    · exact a

/-- Bytes in the middle of a frame that fits are stored one after the other, however the micro-steps are counted. -/
theorem Holds.collect_many (h l : Byte) (hle : (be16 h l).toNat + 3 ≤ 1800) (more : List Byte) :
    ∀ {s : State} {bs rest : List Byte}, s.busy = true → s.op ≠ .none → s.phase = .collect → Holds s bs →
    s.rxq = more ++ rest → bs ++ more <+: h :: l :: (bs ++ more).drop 2 → (bs ++ more).length < (be16 h l).toNat + 3 →
    ∃ u, s.microSteps more.length = .next u ∧ (∀ n, State.drain (n + more.length) s = State.drain n u) ∧ Holds u (bs ++ more) ∧ (u.lastProg = if more = [] then s.lastProg else s.now) ∧
      u = { s with rxq := rest, rxBuf := u.rxBuf, rxCnt := u.rxCnt, lastProg := u.lastProg } := by
  induction more with
  | nil =>
    intro s bs rest hb ho hp hh hq hpre hl
    refine ⟨s, rfl, fun _ => rfl, by simpa using hh, by simp, ?_⟩
    simp only [List.nil_append] at hq
    rw [← hq]
  | cons b more ih =>
    intro s bs rest hb ho hp hh hq hpre hl
    have hcap : Config.cap = 1800 := rfl
    have hlen : bs.length + more.length + 1 < (be16 h l).toNat + 3 := by simp at hl; omega
    obtain ⟨hh', hstep⟩ := Holds.collect hb ho hp hh (b := b) (q := more ++ rest) (by simpa using hq) (by omega)
    have hmid : ((s.popped (more ++ rest)).append b).afterStore = (s.popped (more ++ rest)).append b := by
      refine Holds.afterStore_middle hh' ?_
      match bs, hpre, hlen with
      | [], _, _ => simp
      | [x], hpre, hlen =>
        simp at hpre
        right
        refine ⟨x, b, [], rfl, ?_, ?_⟩
        · rw [hpre.1, hpre.2]; simp
        · rw [hpre.1, hpre.2]; omega
      | x :: y :: r, hpre, hlen =>
        simp at hpre
        right
        refine ⟨x, y, r ++ [b], rfl, ?_, ?_⟩
        · rw [hpre.1, hpre.2]; simp at hlen ⊢; omega
        · rw [hpre.1, hpre.2]; omega
    rw [hmid] at hstep
    obtain ⟨u, h1, hd, h2, h3, h4⟩ := ih (s := (s.popped (more ++ rest)).append b) (bs := bs ++ [b]) (rest := rest) hb ho hp hh' rfl
      (by simpa using hpre) (by simp; omega)
    refine ⟨u, ?_, fun n => ?_, by simpa using h2, ?_, ?_⟩
    · simp only [List.length_cons, State.microSteps, hstep]; exact h1
    · simp only [List.length_cons, ← Nat.add_assoc, State.drain, hstep, hb, hq, List.cons_append, List.isEmpty_cons,
        Bool.not_false, Bool.and_self, if_true]
      exact hd n
    · simp only [reduceCtorEq, if_false]
      rw [h3]; split <;> rfl
    · rw [h4]
      rfl


/-- The row of micro-steps goes on while the operation runs and `RXQ` has bytes. -/
theorem State.drain_step {s t : State} {n : Nat} (hb : s.busy = true) (hq : s.rxq ≠ []) (h : s.microStep = .next t) :
    State.drain (n + 1) s = State.drain n t := by
  have : s.rxq.isEmpty = false := by simpa using hq
  simp [State.drain, hb, this, h]

/-- It stops when the operation has ended or `RXQ` is read. -/
theorem State.drain_stop {s : State} {n : Nat} (h : s.busy = false ∨ s.rxq = []) : State.drain n s = .next s := by
  cases n with
  | zero => rfl
  | succ n => rcases h with h | h <;> simp [State.drain, h]

/-- A whole frame of at most 1797 declared bytes, from HUNT: after `LEN + 4` micro-steps its length field, type, payload
and checksum are in the buffer and `finish_frame()` is next (R161). -/
theorem State.frame_run {s : State} {len : Half} {type : Byte} {body rest : List Byte}
    (hb : s.busy = true) (ho : s.op ≠ .none) (hp : s.phase = .hunt) (hq : s.rxq = wireBytes len type body ++ rest)
    (hl : body.length = len.toNat) (hle : len.toNat ≤ 1797) :
    ∃ u h l, be16 h l = len ∧ Holds u (h :: l :: type :: body) ∧
      u = { s with rxq := rest, rxBuf := u.rxBuf, rxCnt := u.rxCnt, lastProg := s.now, phase := .collect } ∧
      s.microSteps (len.toNat + 4) = .next u.finishFrame ∧
      ∀ n, State.drain (n + (len.toNat + 4)) s = State.drain n u.finishFrame := by
  have hcap : Config.cap = 1800 := rfl
  have hov : Config.overhead = 3 := rfl
  rw [wireBytes_eq] at hq
  generalize hh : BitVec.ofNat 8 (len.toNat / 256) = h at hq
  generalize hll : BitVec.ofNat 8 (len.toNat % 256) = l at hq
  have hbe : be16 h l = len := by rw [← hh, ← hll]; exact be16_bytes len
  -- the start marker
  obtain ⟨s1, hs1⟩ : ∃ s1, s1 = { (s.popped (h :: l :: type :: body ++ rest)).clearRxBuf with lastProg := s.now, phase := .collect } := ⟨_, rfl⟩
  have hm1 : s.microStep = .next s1 := by
    rw [State.microStep_hunt hb ho hp]
    rcases s.huntStep_cases with ⟨h1, _⟩ | ⟨b, q, h1, h2, _⟩ | ⟨q, h1, h2⟩
    · rw [hq] at h1; simp at h1
    · rw [hq] at h1; simp at h1; exact absurd h1.1.symm h2
    · rw [hq] at h1; simp at h1
      rw [h2, hs1, ← h1]; rfl
  -- the last byte is split off
  obtain ⟨ini, last, hini⟩ : ∃ ini last, (h :: l :: type :: body) = ini ++ [last] :=
    ⟨_, _, (List.dropLast_append_getLast (by simp)).symm⟩
  have hil : ini.length = len.toNat + 2 := by
    have := congrArg List.length hini; simp at this; omega
  obtain ⟨u, h1, hd, h2, h3, h4⟩ := Holds.collect_many h l (by rw [hbe]; omega) ini (s := s1) (bs := []) (rest := last :: rest)
    (by rw [hs1]; exact hb) (by rw [hs1]; exact ho) (by rw [hs1]) (Holds.of_clear (by rw [hs1]; rfl) (by rw [hs1]; rfl))
    (by rw [hs1]; show h :: l :: type :: body ++ rest = _; rw [hini]; simp)
    (by match ini, hil, hini with
        | x :: y :: r, _, hini =>
          simp at hini; simp [hini.1, hini.2.1])
    (by rw [hbe]; simp; omega)
  simp only [List.nil_append] at h2
  have hub : u.busy = true := by rw [h4, hs1]; exact hb
  have huo : u.op ≠ .none := by rw [h4, hs1]; exact ho
  have hup : u.phase = .collect := by rw [h4, hs1]
  have huq : u.rxq = last :: rest := by rw [h4]
  obtain ⟨hh', hstep⟩ := Holds.collect hub huo hup h2 huq (by omega)
  rw [← hini] at hh'
  have hfin : ((u.popped rest).append last).afterStore = ((u.popped rest).append last).finishFrame := by
    rcases ((u.popped rest).append last).afterStore_cases with ⟨_, c, _⟩ | ⟨_, _, a⟩ | ⟨_, a, _⟩
    · rw [hh'.lenField, hbe] at c; omega
    · exact a
    · rw [hh'.total, hbe, hh'.2.2.1] at a; simp at a; omega
  rw [hfin] at hstep
  refine ⟨(u.popped rest).append last, h, l, hbe, hh', ?_, ?_, ?_⟩
  · have : u.now = s.now := by rw [h4, hs1]; rfl
    show State.append last (State.popped rest u) = _
    have e : ∀ v : State, v = { s with rxBuf := v.rxBuf, rxCnt := v.rxCnt, rxq := v.rxq, lastProg := v.lastProg, phase := v.phase } →
       (State.append last (State.popped rest v)) = { s with rxq := rest, rxBuf := (State.append last (State.popped rest v)).rxBuf, rxCnt := (State.append last (State.popped rest v)).rxCnt, lastProg := v.now, phase := v.phase } := by
      intro v hv; rw [hv]; rfl
    have hv : u = { s with rxBuf := u.rxBuf, rxCnt := u.rxCnt, rxq := u.rxq, lastProg := u.lastProg, phase := u.phase } := by
      rw [h4, hs1]; rfl
    have := e u hv
    rw [hup, ‹u.now = s.now›] at this
    exact this
  · have e : len.toNat + 4 = 1 + (ini.length + 1) := by omega
    rw [e, State.microSteps_add, State.microSteps_one, hm1]
    simp only
    rw [State.microSteps_add, h1]
    simp only
    rw [State.microSteps_one, hstep]
  · intro n
    have e : n + (len.toNat + 4) = n + 1 + ini.length + 1 := by omega
    rw [e, State.drain_step hb (by rw [hq]; simp) hm1, hd, State.drain_step hub (by rw [huq]; simp) hstep]

/-- A frame has `LEN + 4` bytes (R92). -/
theorem wireBytes_length (len : Half) (type : Byte) (body : List Byte) (h : body.length = len.toNat) :
    (wireBytes len type body).length = len.toNat + 4 := by
  rw [wireBytes_eq]; simp [h]

/-- The same, with the payload and the checksum byte named, and the frame as it is read from the buffer. -/
theorem State.frame_run_payload {s : State} {len : Half} {type c : Byte} {payload rest : List Byte}
    (hb : s.busy = true) (ho : s.op ≠ .none) (hp : s.phase = .hunt) (hq : s.rxq = wireBytes len type (payload ++ [c]) ++ rest)
    (hl : payload.length + 1 = len.toNat) (hle : len.toNat ≤ 1797) :
    ∃ u, Holds u (BitVec.ofNat 8 (len.toNat / 256) :: BitVec.ofNat 8 (len.toNat % 256) :: type :: (payload ++ [c])) ∧ u.frameType = type ∧ u.framePayload = payload ∧ u.wireChecksum = c ∧ u.lenField = len.toNat ∧
      u = { s with rxq := rest, rxBuf := u.rxBuf, rxCnt := u.rxCnt, lastProg := s.now, phase := .collect } ∧
      s.microSteps (len.toNat + 4) = .next u.finishFrame ∧
      ∀ n, State.drain (n + (len.toNat + 4)) s = State.drain n u.finishFrame := by
  obtain ⟨u, h, l, h1, h2, h3, h4, h5⟩ := State.frame_run hb ho hp hq (by simpa using hl) hle
  have h6 := h2.frame (by rw [h1]; omega)
  have hh : h = BitVec.ofNat 8 (len.toNat / 256) ∧ l = BitVec.ofNat 8 (len.toNat % 256) := by
    have := u16be_be16 h l
    rw [h1, u16be_eq] at this
    simp at this
    exact ⟨this.1.symm, this.2.symm⟩
  rw [← hh.1, ← hh.2]
  exact ⟨u, h2, h6.1, h6.2.1, h6.2.2, by rw [h2.lenField, h1], h3, h4, h5⟩

end Sys2Proof.Machine
end

