-- ==== Sys2Proof/Tests/Slice0.lean ====
section
/-! SUPPORT. Tests: ill-formed terms, words written out from the encodings, one step each on vectors of 95_test_vectors.md, and a witness for every statement that has hypotheses. -/

namespace Sys2Proof.Tests

open Sys2Proof Sys2Proof.Machine Sys2Proof.Safety

/-! ### Small states -/

/-- The state an outcome goes on with. -/
def after : Host.Outcome State Fault Refusal → Option State
  | .next s => some s
  | .fault _ => none
  | .refused _ => none

/-- A DECODE hunts on a stream. -/
def hunting (q : List Byte) : State :=
  { State.reset with busy := true, op := .decode, phase := .hunt, rxq := q, args := { State.reset.args with inact := 10 } }

/-- A DECODE collects: bytes already in the buffer, and the stream. -/
def collecting (held q : List Byte) : State :=
  { State.reset with
    busy := true, op := .decode, phase := .collect, rxq := q
    rxBuf := (List.range held.length).foldl
      (fun m i => Memory.write rxUnlisted m i (held[i]?.getD 0)) []
    rxCnt := BitVec.ofNat 16 held.length }

/-- A wait for a Modem Status frame with indicator 0x02 (MS(02) of 95_test_vectors.md), ten ticks long. -/
def waiting (q : List Byte) : State :=
  { State.reset with
    busy := true, op := .await, phase := .check, rxq := q
    args := { State.reset.args with timeout := 10, inact := 10 }
    matchRegs := { type := 0x8A, n := 1, off := #v[0, 0, 0, 0], val := #v[0x02, 0, 0, 0] } }

/-- After vector Q5: the frame `7E 00 01 08 F7` has been received. -/
def received : State :=
  { State.reset with
    rxBuf := [(1, 0x01), (2, 0x08), (3, 0xF7)], rxCnt := 4, rxChk := 0xF7, fvalid := true, res := .okFrame }

/-! ### Ill-formed terms -/

theorem test_short_body_ill_formed : (Instr.atCommand 4 [0x01, 0x41]).wellFormed = false := by decide

theorem test_long_body_ill_formed : (Instr.modemStatus 1 [0x02, 0x73]).wellFormed = false := by decide

theorem test_bodies_ill_formed :
    (Instr.frame 1 0x33 []).wellFormed = false ∧ (Instr.atResponse 0 [0x00]).wellFormed = false ∧
    (Instr.txRequest 2 [0x00]).wellFormed = false := by decide

theorem test_named_type_ill_formed_as_frame :
    (Instr.frame 1 0x08 [0xF7]).wellFormed = false ∧ (Instr.frame 1 0x88 [0x77]).wellFormed = false ∧
    (Instr.frame 1 0x20 [0xDF]).wellFormed = false ∧ (Instr.frame 1 0x8A [0x75]).wellFormed = false := by decide

theorem test_well_formed :
    (Instr.atCommand 4 [0x01, 0x41, 0x49, 0x6C]).wellFormed = true ∧ (Instr.frame 0 0x33 []).wellFormed = true := by decide

/-! ### Words written out from R107 and R90; the frames are A11, A19, A7, A16 and Q19 -/

theorem test_decode_commands :
    [decode (.command 0b00000001), decode (.command 0b00000010), decode (.command 0b00000011),
      decode (.command 0b00000100), decode (.command 0b00000101), decode (.command 0b00000110)]
    = [.ok .cmdEncode, .ok .cmdDecode, .ok .sendCommand, .ok .awaitMatch, .ok .awaitMatchT0, .ok .teardown] := by rfl

theorem test_decode_reserved :
    decode (.command 0b00000000) = .error (.reservedOpcode 0x00) ∧
    decode (.command 0b00000111) = .error (.reservedOpcode 0x07) ∧
    decode (.command 0b11111111) = .error (.reservedOpcode 0xFF) := ⟨rfl, rfl, rfl⟩

theorem test_decode_frame :
    decode (.wire [0b01111110, 0b00000000, 0b00000010, 0b00110011, 0b10101011, 0b00100001])
    = .ok (.frame 2 0x33 [0xAB, 0x21]) := by rfl

theorem test_decode_at_command :
    decode (.wire [0x7E, 0x00, 0x04, 0x08, 0x01, 0x41, 0x49, 0x6C]) = .ok (.atCommand 4 [0x01, 0x41, 0x49, 0x6C]) := by rfl

theorem test_decode_at_response :
    decode (.wire [0x7E, 0x00, 0x05, 0x88, 0x01, 0x41, 0x49, 0x00, 0xEC])
    = .ok (.atResponse 5 [0x01, 0x41, 0x49, 0x00, 0xEC]) := by rfl

theorem test_decode_tx_request : decode (.wire [0x7E, 0x00, 0x02, 0x20, 0xDF, 0x00]) = .ok (.txRequest 2 [0xDF, 0x00]) := by
  rfl

theorem test_decode_modem_status :
    decode (.wire [0x7E, 0x00, 0x02, 0x8A, 0x02, 0x73]) = .ok (.modemStatus 2 [0x02, 0x73]) := by rfl

theorem test_decode_refusals :
    decode (.wire []) = .error .shortHeader ∧ decode (.wire [0x7E, 0x00, 0x04]) = .error .shortHeader ∧
    decode (.wire [0x7F, 0x00, 0x01, 0x08, 0xF7]) = .error .noStartMarker ∧
    decode (.wire [0x7E, 0x00, 0x02, 0x08, 0xF7]) = .error .shortBody ∧
    decode (.wire [0x7E, 0x00, 0x01, 0x08, 0xF7, 0x00]) = .error .bytesLeft := ⟨rfl, rfl, rfl, rfl, rfl⟩

/-- The header words `H` printed after Q19. -/
theorem test_table_words :
    decodeTableWord 8 0x04 = some .awaitMatch ∧ decodeTableWord 8 0x00 = none ∧
    decodeTableWord 32 0x7E000408 = some (.atCommand 4 [0, 0, 0, 0]) ∧
    decodeTableWord 32 0x7E00028A = some (.modemStatus 2 [0, 0]) ∧
    decodeTableWord 32 0x7E000233 = some (.frame 2 0x33 [0, 0]) ∧
    decodeTableWord 32 0x7F000233 = none := ⟨rfl, rfl, rfl, rfl, rfl, rfl⟩

theorem test_step_runs_placed_word :
    step (State.reset.withFetchWord 8 0x02) = exec .cmdDecode State.reset ∧
    step (State.reset.withFetchWord 32 0x7E000008) = exec (.atCommand 0 []) State.reset := ⟨rfl, rfl⟩

/-! ### Checksums (A1, A2, A5, A9) -/

theorem test_checksum :
    checksum 0x08 [] = 0xF7 ∧ checksum 0x08 [0x41, 0x49] = 0x6D ∧ checksum 0x80 [0x80] = 0xFF ∧
    checksum 0x88 [0x01, 0x41, 0x49, 0x00] = 0xEC := by decide

/-! ### One step for each instruction -/

/-- A31. -/
theorem test_encode :
    (after (exec .cmdEncode
      { State.reset with
        args := { State.reset.args with type := 0x08, len := 3 }, argBuf := [(0, 0x01), (1, 0x41), (2, 0x49)] })).map
      (fun t => (t.encOut, t.status, t.txq)) = some ([0x7E, 0x00, 0x04, 0x08, 0x01, 0x41, 0x49, 0x6C], 0x10, []) := by rfl

/-- A34. -/
theorem test_encode_too_long :
    (after (exec .cmdEncode { State.reset with args := { State.reset.args with len := 0xFFFF } })).map
      (fun t => (t.encOut, t.status)) = some ([], 0xA0) := by rfl

/-- The first line of T1. -/
theorem test_decode_issue :
    (after (exec .cmdDecode State.reset)).map (fun t => (t.status, t.op)) = some (0x05, .decode) := by rfl

/-- The reissue in T2: `RES` stays while the operation runs. -/
theorem test_decode_keeps_res :
    (after (exec .cmdDecode { State.reset with res := .frameTimeout })).map State.status = some 0x45 := by rfl

/-- K13. -/
theorem test_send_command :
    (after (exec .sendCommand
      { State.reset with
        args := { State.reset.args with fid := 0x01, cmd0 := 0x53, cmd1 := 0x44, len := 1 }, argBuf := [(0, 0x01)] })).map
      (fun t => (t.txq, t.res)) = some ([0x7E, 0x00, 0x05, 0x08, 0x01, 0x53, 0x44, 0x01, 0x5E], .ok) := by rfl

/-- K16. -/
theorem test_send_command_too_long :
    (after (exec .sendCommand { State.reset with args := { State.reset.args with len := 0xFFFC } })).map
      (fun t => (t.txq, t.status)) = some ([], 0xA0) := by rfl

/-- P1: the issue of the wait after `RES = OK`. -/
theorem test_await_match :
    (after (exec .awaitMatch { State.reset with now := 1000, res := .ok })).map (fun t => (t.t0, t.status))
    = some (1000, 0x1D) := by rfl

/-- K9: refused, the frame stays valid. -/
theorem test_await_match_illegal :
    (after (exec .awaitMatch { received with matchRegs := { State.reset.matchRegs with n := 5 } })).map
      (fun t => (t.status, t.t0)) = some (0xB2, 0) := by rfl

/-- P3: `T0` stays as written. -/
theorem test_await_match_t0 :
    (after (exec .awaitMatchT0 { State.reset with now := 5040, t0 := 5000, res := .ok })).map
      (fun t => (t.t0, t.status)) = some (5000, 0x1D) := by rfl

/-- P4: the deadline test at 320 > 300 ends the wait and leaves the stream. -/
theorem test_check_times_out :
    (after (State.microStep
      { waiting [0x7E, 0x00, 0x02, 0x8A, 0x02, 0x73] with
        now := 5320, t0 := 5000, args := { State.reset.args with timeout := 300 } })).map
      (fun t => (t.status, t.rxq.length)) = some (0x90, 6) := by rfl

/-- Y1, on the frame of Q5. -/
theorem test_teardown :
    (after (exec .teardown { received with lastProg := 100, t0 := 7 })).map
      (fun t => (t.status, t.rxCnt, t.rxByte 3, t.rxChk, t.lastProg, t.t0)) = some (0x00, 0, 0x00, 0x00, 0, 0) := by rfl

/-- Y2: teardown does not drain the stream. -/
theorem test_teardown_keeps_stream :
    (after (exec .teardown { State.reset with rxq := [0x7E, 0x00] })).map State.rxq = some [0x7E, 0x00] := by rfl

/-- Q19: a frame of a type without a row of its own. -/
theorem test_frame :
    (after (exec (.frame 2 0x33 [0xAB, 0x21]) (hunting []))).map (fun t => (t.status, t.view, t.rxChk))
    = some (0x22, some ⟨0x33, [0xAB]⟩, 0x21) := by rfl

/-- Q8, without the byte behind it: the length field is 0. -/
theorem test_frame_bad_length :
    (after (exec (.frame 0 0xFF []) (hunting []))).map (fun t => (t.status, t.rxCnt)) = some (0x70, 0) := by rfl

/-- Q3. -/
theorem test_at_command :
    (after (exec (.atCommand 4 [0x01, 0x41, 0x49, 0x6C]) (hunting []))).map
      (fun t => (t.status, t.rxCnt, Reg.read .fType t, Reg.read .fLen t)) = some (0x22, 7, 0x08, 3) := by rfl

/-- Q6: the checksum on the wire is 0x6D, the computed one 0x6C. -/
theorem test_at_command_mismatch :
    (after (exec (.atCommand 4 [0x01, 0x41, 0x49, 0x6D]) (hunting []))).map
      (fun t => (t.status, t.rxCnt, t.rxChk)) = some (0x60, 0, 0x6C) := by rfl

/-- K-vectors' rejected frame: an AT response inside a wait for a Modem Status frame is dropped (P3). -/
theorem test_at_response_dropped :
    (after (exec (.atResponse 5 [0x01, 0x46, 0x52, 0x00, 0xDE]) (waiting []))).map
      (fun t => (t.status, t.rxCnt, t.rxByte 7)) = some (0x0D, 8, 0xDE) := by rfl

/-- A frame that arrives while no operation runs waits in the stream (R68). -/
theorem test_at_response_waits :
    (after (exec (.atResponse 1 [0x77]) State.reset)).map (fun t => (t.rxq, t.status))
    = some ([0x7E, 0x00, 0x01, 0x88, 0x77], 0x00) := by rfl

/-- The shortest TX Request frame (A7's checksum with the payload DF). -/
theorem test_tx_request :
    (after (exec (.txRequest 2 [0xDF, 0x00]) (hunting []))).map (fun t => (t.status, t.view))
    = some (0x22, some ⟨0x20, [0xDF]⟩) := by rfl

/-- Q12: an oversized frame ends the decode, and its rest stays in the stream (here the beginning of one). -/
theorem test_tx_request_too_large :
    (after (State.receive [0x7E, 0x07, 0x06, 0x20, 0x00] (hunting []))).map (fun t => (t.status, t.rxq))
    = some (0x50, [0x20, 0x00]) := by rfl

/-- The end of P3: the awaited frame is matched. -/
theorem test_modem_status :
    (after (exec (.modemStatus 2 [0x02, 0x73]) (waiting []))).map (fun t => (t.status, t.rxCnt, t.rxChk))
    = some (0x82, 5, 0x73) := by rfl

/-- A17 inside the same wait: another indicator is rejected. -/
theorem test_modem_status_rejected :
    (after (exec (.modemStatus 2 [0x00, 0x75]) (waiting []))).map (fun t => (t.status, t.fvalid)) = some (0x0D, false) := by
  rfl

/-! ### The host (Y3, Y5, Y6, Y7, Y8, P5) -/

theorem test_illegal_command : (after (State.reset.hostWrite 0 0x00)).map State.status = some 0xB0 := by rfl

theorem test_control_register :
    (State.reset.hostRead 1).host.rdata = 0x01 ∧
    (after (State.reset.hostWrite 1 0xFE)).map (fun t => (t.hostRead 1).host.rdata) = some 0x00 := ⟨rfl, rfl⟩

theorem test_match_count_register :
    (after (State.reset.hostWrite 11 0x0D)).map (fun t => (t.hostRead 11).host.rdata) = some 5 := by rfl

theorem test_missing_register :
    (State.reset.hostRead 27).host.rdata = 0 ∧ (State.reset.hostReadRxBuf 1800).host.rdata = 0 := ⟨rfl, rfl⟩

/-- R231, and R191 for a parameter: a length the register cannot hold is written as 0xFFFF. -/
theorem test_length_lines : lenLine 13 = .wr 7 13 ∧ lenLine 0xFFFF = .wr 7 0xFFFF ∧ lenLine 0x10000 = .wr 7 0xFFFF := by decide

/-- P5: the payload of the TX Request frame. -/
theorem test_tcp_payload :
    tcpPayload 0xC0A8010A 0x1F90 0x0000 0x01 0x00 [0x68, 0x69]
    = [0x00, 0xC0, 0xA8, 0x01, 0x0A, 0x1F, 0x90, 0x00, 0x00, 0x01, 0x00, 0x68, 0x69] := by decide

/-- Q10: `decode_quiet` on a partial frame. -/
theorem test_quiet_partial : decodeQuiet true [0x7E, 0x00] = ⟨.frameTimeout, [], none⟩ := by decide

/-! ### Witnesses: for each statement with hypotheses, inputs that meet them, clause by clause and at the bounds -/

/-- A frame in the middle of its bytes, one byte before its end. -/
def almost (c : Byte) : State := collecting [0x00, 0x01, 0x08] [c]

theorem witness_StepRunsDecodedInstruction :
    ({ State.reset with turns := [.host], host := { State.reset.host with prog := [.wr 0 0x106] } } : State).turns
      = Turn.host :: [] ∧
    decodeCommand (BitVec.ofNat 8 0x106) = .ok .teardown ∧
    ({ State.reset with turns := [.wire [0x7E, 0x00, 0x00, 0xFF]] } : State).turns
      = Turn.wire [0x7E, 0x00, 0x00, 0xFF] :: [] ∧
    decode (.wire [0x7E, 0x00, 0x00, 0xFF]) = .ok (.frame 0 0xFF []) := ⟨rfl, rfl, rfl, rfl⟩

theorem witness_StepTakesTheNextTurn :
    ∃ t : Turn → State, (∀ x, (t x).turns = x :: []) ∧ (t .host).host.prog = [] ∧ State.reset.turns = [] :=
  ⟨fun x => { State.reset with turns := [x] }, fun _ => rfl, rfl, rfl⟩

theorem witness_PlacedInstructionRuns :
    decodeTableWord 8 0x06 = some .teardown ∧ decodeTableWord 32 0x7E000000 = some (.frame 0 0x00 []) := ⟨rfl, rfl⟩

theorem witness_DecodeOfEncode :
    Instr.teardown.wellFormed = true ∧ (Instr.frame 0 0xFF []).wellFormed = true ∧
    (Instr.atCommand 1 [0xF7]).wellFormed = true ∧ (Instr.atResponse 0 []).wellFormed = true ∧
    (Instr.txRequest 0 []).wellFormed = true ∧ (Instr.modemStatus 2 [0x02, 0x73]).wellFormed = true := by decide

theorem witness_EncodeOfDecode :
    decode (.command 0x06) = .ok .teardown ∧ decode (.wire [0x7E, 0x00, 0x00, 0x8A]) = .ok (.modemStatus 0 []) := ⟨rfl, rfl⟩

theorem witness_WireBytesLayout : bodyFits 0 [] = true ∧ bodyFits 2 [0x02, 0x73] = true := by decide

theorem witness_EncodeFrameLayout :
    (List.replicate 0xFFFE (0x00 : Byte)).length ≤ 0xFFFE ∧ 0xFFFE < (List.replicate 0xFFFF (0x00 : Byte)).length := by
  rw [List.length_replicate, List.length_replicate]
  decide

theorem witness_EncodeResult :
    State.reset.busy = false ∧ State.reset.args.len ≠ 0xFFFF ∧
    ({ State.reset with args := { State.reset.args with len := 0xFFFF } } : State).args.len = 0xFFFF := by decide

theorem witness_SendCommandResult :
    State.reset.busy = false ∧
    ({ State.reset with args := { State.reset.args with len := 0xFFFB } } : State).args.len.toNat ≤ 0xFFFB ∧
    0xFFFB < ({ State.reset with args := { State.reset.args with len := 0xFFFC } } : State).args.len.toNat := by decide

theorem witness_SentFrameIsAtCommand :
    (AtCommandPayload.mk 0x01 0x41 0x49 (List.replicate 0xFFFB 0x11)).param.length ≤ 0xFFFB :=
  Nat.le_of_eq List.length_replicate

theorem witness_TcpPayloadLayout :
    (List.replicate 0xFFF3 (0x00 : Byte)).length ≤ 0xFFF3 ∧ 0xFFF3 < (List.replicate 0xFFF4 (0x00 : Byte)).length ∧
    0xFFF3 < (List.replicate 0xFFF5 (0x00 : Byte)).length ∧ State.reset.busy = false ∧
    (State.host { State.reset with
      host := { State.reset.host with prog := buildTcpFrame 0 0 0 0 0 [] ++ [.wait] } }).prog
      = buildTcpFrame 0 0 0 0 0 [] ++ [.wait] := by
  refine ⟨?_, ?_, ?_, rfl, rfl⟩ <;> rw [List.length_replicate] <;> decide

theorem witness_DecodeIssue : State.reset.busy = false := rfl

theorem witness_AwaitMatchIssue :
    ({ State.reset with matchRegs := { State.reset.matchRegs with n := 4 } } : State).matchRegs.n.toNat ≤ 4 := by decide

theorem witness_AwaitMatchT0Issue :
    ∃ s t u : State, (s.busy = false ∧ s.matchRegs.n.toNat ≤ 4 ∧ s.t0 ≤ s.now) ∧
      (t.busy = false ∧ t.matchRegs.n.toNat ≤ 4 ∧ t.t0 ≤ t.now ∧ t.args.timeout < t.now - t.t0) ∧
      (u.busy = false ∧ u.matchRegs.n.toNat ≤ 4 ∧ u.now < u.t0) :=
  ⟨State.reset, { State.reset with now := 1 }, { State.reset with t0 := 1 }, by decide, by decide, by decide⟩

theorem witness_TeardownResult : received.busy = false := rfl

theorem witness_IllegalCommandOnlySetsRes :
    received.busy = false ∧ 0x07 ≤ (0x07 : Byte).toNat ∧ 0x07 ≤ (0xFF : Byte).toNat ∧
    5 ≤ ({ received with matchRegs := { received.matchRegs with n := 5 } } : State).matchRegs.n.toNat := by decide

theorem witness_BusyWritesAreRefused : (hunting []).busy = true ∧ 26 ≠ 0 := by decide

theorem witness_BusyReads : (waiting []).busy = true ∧ 26 ≠ 2 := by decide

theorem witness_RegisterReadBack : State.reset.busy = false ∧ 27 ≤ 27 := by decide

theorem witness_RegisterWriteFrame :
    State.reset.busy = false ∧ State.reset.hostWrite 25 70 = .next { State.reset with t0 := 70 } ∧
    State.reset.hostWrite 27 70 = .next State.reset := ⟨rfl, rfl, rfl⟩

theorem witness_ViewRegisters :
    (Inv received ∧ received.busy = false ∧ received.fvalid = true) ∧
    (Inv State.reset ∧ State.reset.busy = false ∧ State.reset.fvalid = false) :=
  ⟨⟨by decide, rfl, rfl⟩, by decide, rfl, rfl⟩

theorem witness_CopyOfTheView :
    (received.busy = false ∧ received.fvalid = true) ∧ (State.reset.busy = false ∧ State.reset.fvalid = false) := by decide

theorem witness_ReceiveBufferReads : received.busy = false ∧ 1800 ≤ 1800 := by decide

theorem witness_OperandMemory :
    State.reset.hostWriteArgBuf 0xFFFE [0x01] = .next { State.reset with argBuf := [(0xFFFE, 0x01)] } ∧
    Memory.read State.reset.argBuf 0 = none ∧ State.reset.busy = false ∧
    0xFFFE + [(0x01 : Byte)].length ≤ 0xFFFF ∧ 0xFFFF < 0xFFFF + [(0x01 : Byte)].length ∧
    0xFFFE < 0xFFFF ∧ 0xFFFF ≤ 0xFFFF := ⟨rfl, rfl, rfl, by decide, by decide, by decide, by decide⟩

theorem witness_HostCannotWriteReceiveBuffer :
    (after (State.hostTurn { received with host := { received.host with prog := [.rd 20] } })).isSome = true ∧
    (after (State.hostTurn { received with host := { received.host with prog := [.wr 0 0x06] } })).isSome = true ∧
    (after (State.hostTurn { received with host := { received.host with prog := [.wrKept 0], kept := 0x106 } })).isSome
      = true := ⟨rfl, rfl, rfl⟩

theorem witness_HuntMicroStep :
    ((hunting []).busy = true ∧ (hunting []).phase = .hunt ∧ (hunting []).rxq = [] ∧ (hunting []).op = .decode) ∧
    (({ waiting [] with phase := .hunt } : State).busy = true ∧ ({ waiting [] with phase := .hunt } : State).rxq = [] ∧
      ({ waiting [] with phase := .hunt } : State).op = .await) ∧
    ((hunting [0x41]).rxq = 0x41 :: [] ∧ (0x41 : Byte) ≠ 0x7E ∧ (hunting [0x41]).op ≠ .none) ∧
    ((hunting [0x7E]).rxq = 0x7E :: [] ∧ (hunting [0x7E]).op ≠ .none) := by decide

theorem witness_CollectMicroStepStores :
    Inv (collecting [0x00] [0x02]) ∧ (collecting [0x00] [0x02]).busy = true ∧
    (collecting [0x00] [0x02]).phase = .collect ∧ (collecting [0x00] [0x02]).rxq = 0x02 :: [] ∧
    ¬ ((collecting [0x00, 0x02] []).rxCnt = 2 ∧ (collecting [0x00, 0x02] []).lenField + 3 > 1800) ∧
    (collecting [0x00, 0x02] []).rxCnt.toNat ≠ (collecting [0x00, 0x02] []).total := by decide

theorem witness_OversizedFrameEnds :
    (collecting [0x07] [0x06]).busy = true ∧ (collecting [0x07] [0x06]).phase = .collect ∧
    (collecting [0x07] [0x06]).op = .decode ∧ ({ collecting [0x07] [0x06] with op := .await } : State).op = .await ∧
    (collecting [0x07] [0x06]).rxCnt = 1 ∧
    (collecting [0x07] [0x06]).rxBuf = Memory.write rxUnlisted [] 0 0x07 ∧
    (collecting [0x07] [0x06]).rxq = 0x06 :: [] ∧ 1798 ≤ (be16 0x07 0x06).toNat ∧
    (collecting [0x07] [0x05]).rxq = 0x05 :: [] ∧ (be16 0x07 0x05).toNat ≤ 1797 := by decide

/-- The state after the last byte of a frame is stored. -/
def stored (s : State) (b : Byte) : State :=
  { s with rxq := [], rxBuf := Memory.write rxUnlisted s.rxBuf s.rxCnt.toNat b, rxCnt := s.rxCnt + 1, lastProg := s.now }

theorem witness_FrameCompletion :
    ((almost 0xF7).busy = true ∧ (almost 0xF7).phase = .collect ∧ (almost 0xF7).op = .decode ∧
      (almost 0xF7).rxCnt.toNat < 1800 ∧ (almost 0xF7).rxq = 0xF7 :: []) ∧
    (stored (collecting [0x00, 0x00] [0xFF]) 0xFF).rxCnt.toNat
      = (stored (collecting [0x00, 0x00] [0xFF]) 0xFF).lenField + 3 ∧
    (stored (collecting [0x00, 0x00] [0xFF]) 0xFF).lenField = 0 ∧
    (stored (almost 0xF8) 0xF8).rxCnt.toNat = (stored (almost 0xF8) 0xF8).lenField + 3 ∧
    (stored (almost 0xF8) 0xF8).lenField ≠ 0 ∧ (almost 0xF8).chkEn = true ∧
    checksum ((stored (almost 0xF8) 0xF8).rxByte 2) (stored (almost 0xF8) 0xF8).framePayload
      ≠ (stored (almost 0xF8) 0xF8).rxByte ((stored (almost 0xF8) 0xF8).lenField + 2) ∧
    (stored (almost 0xF7) 0xF7).rxCnt.toNat = (stored (almost 0xF7) 0xF7).lenField + 3 ∧
    checksum ((stored (almost 0xF7) 0xF7).rxByte 2) (stored (almost 0xF7) 0xF7).framePayload
      = (stored (almost 0xF7) 0xF7).rxByte ((stored (almost 0xF7) 0xF7).lenField + 2) := by decide

/-- The same inside a wait: one frame the predicate accepts, one it rejects. -/
theorem witness_FrameCompletion_wait :
    ({ almost 0xF7 with op := .await, matchRegs := { State.reset.matchRegs with type := 0x08 } } : State).op = .await ∧
    State.matches { stored (almost 0xF7) 0xF7 with matchRegs := { State.reset.matchRegs with type := 0x08 } } = true ∧
    State.matches (stored (almost 0xF7) 0xF7) = false := by decide

theorem witness_CollectTimesOut :
    (collecting [0x00] []).busy = true ∧ (collecting [0x00] []).phase = .collect ∧ (collecting [0x00] []).op = .decode ∧
    ({ collecting [0x00] [] with op := .await } : State).op = .await ∧ (collecting [0x00] []).rxq = [] ∧ (collecting [0x00] []).lastProg ≤ (collecting [0x00] []).now ∧
    (collecting [0x00] []).now - (collecting [0x00] []).lastProg ≤ (collecting [0x00] []).args.inact ∧
    ({ collecting [0x00] [] with now := 1 } : State).args.inact
      < ({ collecting [0x00] [] with now := 1 } : State).now - (collecting [0x00] []).lastProg := by decide

theorem witness_CheckMicroStep :
    (waiting []).busy = true ∧ (waiting []).phase = .check ∧ (waiting []).op = .await ∧ (waiting []).t0 ≤ (waiting []).now ∧
    ({ waiting [] with now := 10 } : State).now - (waiting []).t0 ≤ (waiting []).args.timeout ∧
    (waiting []).args.timeout < ({ waiting [] with now := 11 } : State).now - (waiting []).t0 := by decide

/-- A wait whose buffer holds a Modem Status frame with an indicator. -/
def judging (k : Byte) : State :=
  { waiting [] with rxBuf := [(1, 0x02), (2, 0x8A), (3, k)], rxCnt := 5, phase := .collect }

theorem witness_EndOfDecode :
    (hunting []).op = .decode ∧ (judging 0x02).op = .await ∧ (judging 0x02).matches = true ∧ (judging 0x03).matches = false ∧
    Res.badLength ≠ .okFrame := by decide

theorem witness_PredicateMeaning :
    ({ judging 0x02 with matchRegs := { (judging 0x02).matchRegs with n := 4 } } : State).matchRegs.n.toNat ≤ 4 ∧
    (judging 0x02).matches = true := by decide

theorem witness_SourcePredicates :
    (judging 0x02).matchRegs = { type := 0x8A, n := 1, off := #v[0, 0, 0, 0], val := #v[0x02, 0, 0, 0] } ∧
    (judging 0x02).matches = true ∧
    ({ judging 0x02 with
        matchRegs := { type := 0x88, n := 3, off := #v[1, 2, 3, 0], val := #v[0x41, 0x49, 0x00, 0] } } : State).matchRegs
      = { type := 0x88, n := 3, off := #v[1, 2, 3, 0], val := #v[0x41, 0x49, 0x00, 0] } := by decide

theorem witness_MicroStepFrame : State.microStep (hunting [0x41]) = .next (hunting []) := by rfl

theorem witness_PhaseTransitions :
    ((hunting [0x7E]).busy = true ∧ (after (hunting [0x7E]).microStep).isSome = true) ∧
    ((almost 0xF7).busy = true ∧ (after (almost 0xF7).microStep).isSome = true) ∧
    ((waiting []).busy = true ∧ (after (waiting []).microStep).isSome = true) ∧
    ((after (State.microStep { waiting [] with phase := .hunt })).isSome = true ∧
      (after (State.microStep { waiting [0x00] with phase := .collect })).isSome = true) :=
  ⟨⟨rfl, rfl⟩, ⟨rfl, rfl⟩, ⟨rfl, rfl⟩, rfl, rfl⟩

theorem witness_FrameWaitsWhileIdle :
    State.reset.busy = false ∧ (Instr.txRequest 1 [0xDF]).frameParts = some (1, 0x20, [0xDF]) := by decide

theorem witness_FrameIsMicroSteps :
    (Instr.frame 0 0xFF []).frameParts = some (0, 0xFF, []) ∧
    (after (exec (.frame 0 0xFF []) (hunting []))).isSome = true := ⟨rfl, rfl⟩

theorem witness_EveryFrameCompletes :
    Inv (waiting []) ∧ Inv (hunting []) ∧ (Instr.atResponse 1 [0x77]).frameParts ≠ none :=
  ⟨by decide, by decide, by decide⟩

theorem witness_GoodFrameIsDelivered :
    (hunting []).busy = true ∧ (hunting []).op = .decode ∧ (hunting []).phase = .hunt ∧ (hunting []).rxq = [] ∧
    (Instr.atCommand 1 [0xF7]).frameParts = some (1, 0x08, [] ++ [0xF7]) ∧ (Instr.atCommand 1 [0xF7]).wellFormed = true ∧
    (1 : Half).toNat ≤ 1797 ∧ (0xF7 : Byte) = checksum 0x08 [] := by decide

/-- The longest frame the deframer delivers (A28). -/
theorem witness_GoodFrameIsDelivered_longest :
    (Instr.txRequest 1797 (List.replicate 1796 0x00 ++ [0xDF])).wellFormed = true := by
  rw [Instr.wellFormed, bodyFits, List.length_append, List.length_replicate]
  decide

theorem witness_BadFrameIsReported :
    (hunting []).busy = true ∧ (hunting []).op = .decode ∧ (hunting []).phase = .hunt ∧ (hunting []).rxq = [] ∧
    (Instr.frame 0 0xFF []).wellFormed = true ∧ (Instr.atCommand 1 [0xF8]).wellFormed = true ∧
    (hunting []).chkEn = true ∧ (0xF8 : Byte) ≠ checksum 0x08 [] := by decide

/-- The shortest frame the deframer refuses (A29). -/
theorem witness_BadFrameIsReported_shortest :
    (Instr.txRequest 1798 (List.replicate 1797 0x00 ++ [0xDF])).wellFormed = true ∧ 1798 ≤ (1798 : Half).toNat := by
  rw [Instr.wellFormed, bodyFits, List.length_append, List.length_replicate]
  decide

theorem witness_FrameInsideWait :
    ((waiting []).busy = true ∧ (waiting []).op = .await ∧ (waiting []).phase = .check ∧ (waiting []).rxq = [] ∧
      (waiting []).t0 ≤ (waiting []).now ∧ (waiting []).now - (waiting []).t0 ≤ (waiting []).args.timeout ∧
      (waiting []).matchRegs.n.toNat ≤ 4) ∧
    (Instr.modemStatus 2 [0x02, 0x73]).frameParts = some (2, 0x8A, [0x02] ++ [0x73]) ∧
    (Instr.modemStatus 2 [0x02, 0x73]).wellFormed = true ∧ (0x73 : Byte) = checksum 0x8A [0x02] ∧
    (Instr.modemStatus 2 [0x00, 0x75]).wellFormed = true ∧ (0x75 : Byte) = checksum 0x8A [0x00] := by decide

theorem witness_QuietDecode :
    State.reset.busy = false ∧ exec .cmdDecode State.reset = .next (State.reset.issue .decode .hunt) ∧
    State.takeTurns [.tick 1, .sequencer] (State.reset.issue .decode .hunt)
      = .next { State.reset with now := 1, res := .noStartDelimiter } := ⟨rfl, rfl, rfl⟩

theorem witness_RoundTripThroughDeframer :
    State.reset.busy = false ∧ encodeFrame 0x08 [] = some [0x7E, 0x00, 0x01, 0x08, 0xF7] ∧
    exec .cmdDecode { State.reset with rxq := [0x7E, 0x00, 0x01, 0x08, 0xF7] } = .next (State.issue .decode .hunt
      { State.reset with rxq := [0x7E, 0x00, 0x01, 0x08, 0xF7] }) ∧
    (after (State.takeTurns (List.replicate 5 .sequencer) (State.issue .decode .hunt
      { State.reset with rxq := [0x7E, 0x00, 0x01, 0x08, 0xF7] }))).map State.busy = some false ∧
    (List.replicate 1796 (0x00 : Byte)).length ≤ 1796 ∧ 1797 ≤ (List.replicate 1797 (0x00 : Byte)).length := by
  refine ⟨rfl, rfl, rfl, rfl, ?_, ?_⟩ <;> rw [List.length_replicate]

theorem witness_OneChangedByteIsDetected :
    [(0x02 : Byte)].length ≤ 1796 ∧ 2 < [(0x02 : Byte)].length + 2 ∧
    some (0x74 : Byte) ≠ (0x8A :: [0x02] ++ [checksum 0x8A [0x02]])[2]? := by decide

theorem witness_SilentWaitTimesOut :
    Inv (waiting []) ∧ (waiting []).busy = true ∧ (waiting []).op = .await ∧ (waiting []).rxq = [] ∧
    (waiting []).args.timeout < (waiting []).now + 11 - (waiting []).t0 ∧
    (waiting []).args.inact < (waiting []).now + 11 - (waiting []).lastProg := by decide

theorem witness_AtQuerySendsAndSetsPredicate :
    State.reset.busy = false ∧ (List.replicate 0xFFFB (0x11 : Byte)).length ≤ 0xFFFB ∧
    (State.host { State.reset with
      host := { State.reset.host with prog := isShutDown 7 } }).prog
      = sendLines 0x41 0x49 [] ++ responseLines 0x41 0x49 0x2D ++ timeoutLines 7 ++ [.wr 0 0x04, .wait, .answer] :=
  ⟨rfl, Nat.le_of_eq List.length_replicate, rfl⟩

theorem witness_StepKeepsSafe :
    Inv ({ almost 0xF7 with turns := [.sequencer] } : State) ∧
    (after (step { almost 0xF7 with turns := [.sequencer] })).map State.fvalid = some true := ⟨by decide, rfl⟩

theorem witness_NoInstructionWritesOperands : (after (exec .teardown received)).isSome = true := rfl

theorem witness_StreamsAndClockMoveForward :
    ∃ s : Turn → State, (∀ x, (s x).nextTurn.1 = x) ∧
      (after (step (s (.tick 5)))).map State.now = some 5 ∧
      (after (step (s (.arrive [0x7E])))).map State.rxq = some [0x7E] ∧
      (after (step (s (.wire [0x7E])))).map State.rxq = some [0x7E] ∧
      (after (step (s .sequencer))).isSome = true ∧ (after (step (s .host))).isSome = true ∧
      (after (step (s .reset))).isSome = true ∧ (after (step (s (.call [.wait])))).isSome = true :=
  ⟨fun x => { State.reset with turns := [x] }, fun _ => rfl, rfl, rfl, rfl, rfl, rfl, rfl, rfl⟩

theorem witness_FrameBecomesValidOnlyByReceipt :
    (after (step { almost 0xF7 with turns := [.sequencer] })).map State.fvalid = some true ∧
    (almost 0xF7).fvalid = false := ⟨rfl, rfl⟩

end Sys2Proof.Tests
end

/-! PROOF. The turn a step takes, and what the host reads back from the register file. -/

namespace Sys2Proof.Machine

/-! ### The turn a step takes -/

/-- A decided turn is the one the step takes (R71). -/
theorem step_of_turns_cons {s : State} {t : Turn} {ts : List Turn} (h : s.turns = t :: ts) :
    step s = State.takeTurn t { s with turns := ts } := by
  simp only [step, State.nextTurn, h]

/-- With no turn decided the step takes one of the free schedule (R71; log 1). -/
theorem step_of_turns_nil {s : State} (h : s.turns = []) :
    step s = State.takeTurn (Config.freeTurn s.freeTurns) { s with freeTurns := s.freeTurns + 1 } := by
  simp only [step, State.nextTurn, h]

/-- A host without lines does nothing at its turn (R68). -/
theorem State.hostTurn_of_prog_nil {s : State} (h : s.host.prog = []) : s.hostTurn = .next s := by
  simp only [State.hostTurn, h]

/-- Settles O2: a decided turn is taken as it stands, and with none decided the free schedule gives it. -/
theorem stepTakesTheNextTurn : Obligations.StepTakesTheNextTurn := by
  intro s ts
  refine ⟨?sequencer, ?arrive, ?tick, ?reset, ?call, ?hostWithoutLines, ?free⟩
  case sequencer => exact step_of_turns_cons
  case arrive => exact fun bytes => step_of_turns_cons
  case tick => exact fun d => step_of_turns_cons
  case reset => exact step_of_turns_cons
  case call => exact fun lines => step_of_turns_cons
  case hostWithoutLines =>
    intro h hprog
    calc step s = State.hostTurn { s with turns := ts } := step_of_turns_cons h
      _ = .next { s with turns := ts } := State.hostTurn_of_prog_nil hprog
  case free => exact step_of_turns_nil

/-! ### The registers -/

/-- What a register keeps of a written value: the value truncated to the register's width, a time whole (R253, R254;
log 11), and `none` where a write is ignored. -/
def Reg.kept (v : Nat) : Reg → Option Nat
  | .ctrl => some (v % 2)
  | .mN => some (v % 8)
  | .argType | .argFid | .argCmd0 | .argCmd1 | .mType | .mVal _ => some (v % 256)
  | .argLen | .mOff _ => some (v % 65536)
  | .argInact | .argTo | .t0 => some v
  | .cmd | .status | .rxCnt | .fType | .fLen | .rxChk | .lastProg | .now => none

/-- A register reads what it kept of the last write. -/
theorem Reg.read_write_same {r : Reg} {v w : Nat} (h : r.kept v = some w) (s : State) : r.read (r.write v s) = w := by
  cases r with
  | ctrl =>
    obtain rfl : v % 2 = w := by simpa [Reg.kept] using h
    rcases Nat.mod_two_eq_zero_or_one v with hv | hv <;> simp [Reg.read, Reg.write, hv]
  | argType | argFid | argCmd0 | argCmd1 | argLen | argInact | argTo | mType | mN | mOff i | mVal i | t0 =>
    simpa [Reg.kept, Reg.read, Reg.write] using h
  | cmd | status | rxCnt | fType | fLen | rxChk | lastProg | now => simp [Reg.kept] at h

/-- A register that keeps nothing ignores the write (R254). -/
theorem Reg.write_of_kept_none {r : Reg} {v : Nat} (h : r.kept v = none) (s : State) : r.write v s = s := by
  cases r with
  | cmd | status | rxCnt | fType | fLen | rxChk | lastProg | now => rfl
  | ctrl | argType | argFid | argCmd0 | argCmd1 | argLen | argInact | argTo | mType | mN | mOff i | mVal i | t0 =>
    simp [Reg.kept] at h

@[simp] theorem Reg.write_busy (r : Reg) (v : Nat) (s : State) : (r.write v s).busy = s.busy := by
  cases r <;> rfl

/-- There are 27 registers (R39). -/
theorem Reg.ofNumber_eq_none {n : Nat} (h : 27 ≤ n) : Reg.ofNumber n = none := by
  obtain ⟨k, rfl⟩ := Nat.exists_eq_add_of_le' h
  rfl

/-! ### The host's accesses by number -/

theorem State.hostWrite_register {s : State} {n : Nat} {r : Reg} (hb : s.busy = false) (hn : n ≠ 0)
    (hr : Reg.ofNumber n = some r) (v : Nat) : s.hostWrite n v = .next (r.write v s) := by
  simp [State.hostWrite, hn, hb, hr]

theorem State.hostWrite_missing {s : State} {n : Nat} (hb : s.busy = false) (hn : 27 ≤ n) (v : Nat) :
    s.hostWrite n v = .next s := by
  simp [State.hostWrite, show n ≠ 0 by omega, hb, Reg.ofNumber_eq_none hn]

theorem State.hostRead_register {s : State} {n : Nat} {r : Reg} (hb : s.busy = false)
    (hr : Reg.ofNumber n = some r) : s.hostRead n = s.returnRead (r.read s) := by
  by_cases hn : n = 2
  · subst hn
    obtain rfl : Reg.status = r := Option.some.inj hr
    rfl
  · simp [State.hostRead, hn, hb, hr]

theorem State.hostRead_missing {s : State} {n : Nat} (hb : s.busy = false) (hr : Reg.ofNumber n = none) :
    s.hostRead n = s.returnRead 0 := by
  have hn : n ≠ 2 := by rintro rfl; cases hr
  simp [State.hostRead, hn, hb, hr]

theorem State.hostRead_rdata {s : State} {n : Nat} {r : Reg} (hb : s.busy = false)
    (hr : Reg.ofNumber n = some r) : (s.hostRead n).host.rdata = r.read s := by
  rw [State.hostRead_register hb hr, State.returnRead_host]

/-- A read gives the host a value and changes nothing else (R254). -/
theorem State.hostRead_only {s : State} (hb : s.busy = false) (n : Nat) :
    s.hostRead n = s.returnRead (s.hostRead n).host.rdata := by
  cases hr : Reg.ofNumber n with
  | some r => rw [State.hostRead_register hb hr]; rfl
  | none => rw [State.hostRead_missing hb hr]; rfl

/-- A register that keeps something of a written value reads it back. -/
theorem State.hostRead_after_hostWrite {s : State} {n v w : Nat} (hb : s.busy = false)
    (h : (Reg.ofNumber n).bind (Reg.kept v) = some w) :
    ∃ t, s.hostWrite n v = .next t ∧ (t.hostRead n).host.rdata = w := by
  obtain ⟨r, hr, hw⟩ := Option.bind_eq_some_iff.mp h
  have hn : n ≠ 0 := by rintro rfl; cases hr; cases hw
  refine ⟨r.write v s, State.hostWrite_register hb hn hr v, ?_⟩
  have hb' : (r.write v s).busy = false := by rw [Reg.write_busy, hb]
  rw [State.hostRead_rdata hb' hr, Reg.read_write_same hw]

/-- A write to a register that keeps nothing changes nothing; `CMD` is the exception (R250). -/
theorem State.hostWrite_ignored {s : State} {n v : Nat} {r : Reg} (hb : s.busy = false) (hn : n ≠ 0)
    (hr : Reg.ofNumber n = some r) (h : r.kept v = none) : s.hostWrite n v = .next s := by
  rw [State.hostWrite_register hb hn hr, Reg.write_of_kept_none h]

/-! ### The widths by register number (R39, R254) -/

theorem Reg.kept_byte_registers (v : Nat) : ∀ n ∈ [3, 4, 5, 6, 10, 16, 17, 18, 19],
    (Reg.ofNumber n).bind (Reg.kept v) = some (v % 256) := by
  simp [Reg.ofNumber, Reg.kept]

theorem Reg.kept_half_registers (v : Nat) : ∀ n ∈ [7, 12, 13, 14, 15],
    (Reg.ofNumber n).bind (Reg.kept v) = some (v % 65536) := by
  simp [Reg.ofNumber, Reg.kept]

theorem Reg.kept_time_registers (v : Nat) : ∀ n ∈ [8, 9, 25], (Reg.ofNumber n).bind (Reg.kept v) = some v := by
  simp [Reg.ofNumber, Reg.kept]

theorem Reg.kept_readOnly_registers (v : Nat) : ∀ n ∈ [2, 20, 21, 22, 23, 24, 26],
    n ≠ 0 ∧ ∃ r, Reg.ofNumber n = some r ∧ r.kept v = none := by
  simp [Reg.ofNumber, Reg.kept]

/-- Settles O26: a written value reads back as the register keeps it, and a read gives the host a value only. -/
theorem registerReadBack : Obligations.RegisterReadBack := by
  intro s v hb
  refine ⟨?bytes, ?halves, ?times, ?comparatorCount, ?control, ?readOnly, ?values, ?frame, ?missing, ?command⟩
  case bytes => exact fun n hn => State.hostRead_after_hostWrite hb (Reg.kept_byte_registers v n hn)
  case halves => exact fun n hn => State.hostRead_after_hostWrite hb (Reg.kept_half_registers v n hn)
  case times => exact fun n hn => State.hostRead_after_hostWrite hb (Reg.kept_time_registers v n hn)
  case comparatorCount => exact State.hostRead_after_hostWrite hb rfl
  case control => exact State.hostRead_after_hostWrite hb rfl
  case readOnly =>
    intro n hn
    obtain ⟨hne, r, hr, hkept⟩ := Reg.kept_readOnly_registers v n hn
    exact State.hostWrite_ignored hb hne hr hkept
  case values =>
    exact ⟨State.hostRead_rdata hb (r := .rxCnt) rfl, State.hostRead_rdata hb (r := .rxChk) rfl,
      State.hostRead_rdata hb (r := .lastProg) rfl, State.hostRead_rdata hb (r := .now) rfl⟩
  case frame => exact State.hostRead_only hb
  case missing =>
    intro n hn
    refine ⟨State.hostWrite_missing hb hn v, ?_⟩
    rw [State.hostRead_missing hb (Reg.ofNumber_eq_none hn), State.returnRead_host]
  case command => exact State.hostRead_rdata hb (r := .cmd) rfl

end Sys2Proof.Machine

/-! PROOF. What a turn of each agent can do, and what every turn keeps: the safe states, the operands, the streams and
the clock, and when a frame becomes valid. -/

namespace Sys2Proof.Machine

open Sys2Proof.Safety

/-! ### What a command does -/

/-- Everything an accepted command can do (R250, R251): it is answered at once, it starts an operation, or it tears
the block down. -/
inductive CommandEffect (s : State) : State → Prop
  /-- ENCODE, SEND_COMMAND, or an illegal command (R134, R190, R251). -/
  | answered {code : Res} {tx enc : List Byte} (hcode : code ∈ [Res.ok, .encodeTooLong, .illegalCommand])
      (htx : ∃ sent, tx = s.txq ++ sent) (henc : ∃ made, enc = s.encOut ++ made) :
      CommandEffect s { s with res := code, txq := tx, encOut := enc }
  /-- DECODE (R151). -/
  | decodeIssued : CommandEffect s (s.issue .decode .hunt)
  /-- AWAIT_MATCH and AWAIT_MATCH_T0 (R196, R197). -/
  | awaitIssued {start : Nat} (hstart : start ≤ s.now) (hcomparators : s.badComparators = false) :
      CommandEffect s { s.issue .await .check with t0 := start }
  /-- TEARDOWN (R252). -/
  | tornDown :
      CommandEffect s { s.clearRxBuf with fvalid := false, rxChk := 0, lastProg := 0, t0 := 0, res := .none }

/-- An answer that leaves both records alone. -/
theorem CommandEffect.outcome {s : State} {code : Res} (hcode : code ∈ [Res.ok, .encodeTooLong, .illegalCommand]) :
    CommandEffect s { s with res := code } :=
  .answered hcode ⟨[], by simp⟩ ⟨[], by simp⟩

theorem CommandEffect.illegalCommand (s : State) : CommandEffect s s.illegalCommand := .outcome (by simp)

theorem execEncode_next {s t : State} (h : execEncode s = .next t) : s.busy = false ∧ CommandEffect s t := by
  obtain ⟨hb, h⟩ := whenIdle_next h
  cases h
  refine ⟨hb, ?_⟩
  split
  · exact .outcome (by simp)
  · exact .answered (by simp) ⟨[], by simp⟩ ⟨_, rfl⟩

theorem execSendCommand_next {s t : State} (h : execSendCommand s = .next t) :
    s.busy = false ∧ CommandEffect s t := by
  obtain ⟨hb, h⟩ := whenIdle_next h
  cases h
  refine ⟨hb, ?_⟩
  split
  · exact .outcome (by simp)
  · exact .answered (by simp) ⟨_, rfl⟩ ⟨[], by simp⟩

theorem execDecode_next {s t : State} (h : execDecode s = .next t) : s.busy = false ∧ CommandEffect s t := by
  obtain ⟨hb, h⟩ := whenIdle_next h
  cases h
  exact ⟨hb, .decodeIssued⟩

theorem execAwaitMatch_next {s t : State} (h : execAwaitMatch s = .next t) : s.busy = false ∧ CommandEffect s t := by
  obtain ⟨hb, h⟩ := whenIdle_next h
  cases h
  refine ⟨hb, ?_⟩
  split
  · exact .illegalCommand s
  · exact .awaitIssued le_rfl (by simp_all)

theorem execAwaitMatchT0_next {s t : State} (h : execAwaitMatchT0 s = .next t) :
    s.busy = false ∧ CommandEffect s t := by
  obtain ⟨hb, h⟩ := whenIdle_next h
  refine ⟨hb, ?_⟩
  split at h
  · cases h; exact .illegalCommand s
  · split at h
    · cases h
    · cases h; exact .awaitIssued (by omega) (by simp_all)

theorem execTeardown_next {s t : State} (h : execTeardown s = .next t) : s.busy = false ∧ CommandEffect s t := by
  obtain ⟨hb, h⟩ := whenIdle_next h
  cases h
  exact ⟨hb, .tornDown⟩

/-- A host command that answers was accepted, and has one of the effects of a command. -/
theorem exec_command_next {i : Instr} {s t : State} (hi : i.frameParts = none) (h : exec i s = .next t) :
    s.busy = false ∧ CommandEffect s t := by
  cases i with
  | cmdEncode => exact execEncode_next h
  | cmdDecode => exact execDecode_next h
  | sendCommand => exact execSendCommand_next h
  | awaitMatch => exact execAwaitMatch_next h
  | awaitMatchT0 => exact execAwaitMatchT0_next h
  | teardown => exact execTeardown_next h
  | frame | atCommand | atResponse | txRequest | modemStatus => cases hi

/-- Everything an instruction can be when it answers: a frame that is read, or a command that was accepted. -/
theorem exec_next {i : Instr} {s t : State} (h : exec i s = .next t) :
    (∃ bytes, s.receive bytes = .next t) ∨ (s.busy = false ∧ CommandEffect s t) := by
  cases hi : i.frameParts with
  | none => exact .inr (exec_command_next hi h)
  | some parts => exact .inl ⟨_, (exec_frame hi s).symm.trans h⟩

/-- A write of a byte to `CMD` that answers (R250, R251). -/
theorem issueCommand_next {c : Byte} {s t : State} (h : issueCommand c s = .next t) :
    s.busy = false ∧ CommandEffect s t := by
  unfold issueCommand at h
  split at h
  · next i hi => exact exec_command_next (decodeCommand_ok hi).2.2 h
  · obtain ⟨hb, h⟩ := whenIdle_next h
    cases h
    exact ⟨hb, .illegalCommand s⟩

/-! ### What a turn of the host does -/

/-- Everything a line of the host can do (R109, R254, R255): it changes the host's own variables, it writes a register
other than `CMD` or bytes of `ARGBUF`, or it issues a command; it writes only while `BUSY = 0` (R256). -/
inductive HostEffect (s : State) : State → Prop
  | own (host : HostAgent) (reads : Nat) : HostEffect s { s with host := host, freeReads := reads }
  | register (r : Reg) (v : Nat) (hidle : s.busy = false) : HostEffect s (r.write v s)
  | operands {i : Nat} {bytes : List Byte} (hidle : s.busy = false) (hfits : i + bytes.length ≤ Config.argCap) :
      HostEffect s (s.storeArgs i bytes)
  | command {t : State} (hidle : s.busy = false) (heffect : CommandEffect s t) : HostEffect s t

theorem State.hostWrite_next {n v : Nat} {s t : State} (h : s.hostWrite n v = .next t) : HostEffect s t := by
  unfold State.hostWrite at h
  split at h
  · obtain ⟨hb, he⟩ := issueCommand_next h
    exact .command hb he
  · split at h
    · cases h
    · next hb =>
      have hidle : s.busy = false := by simpa using hb
      split at h
      · next r _ => cases h; exact .register r v hidle
      · cases h; exact .own s.host s.freeReads

theorem State.hostWriteArgBuf_next {i : Nat} {bytes : List Byte} {s t : State}
    (h : s.hostWriteArgBuf i bytes = .next t) :
    s.busy = false ∧ i + bytes.length ≤ Config.argCap ∧ t = s.storeArgs i bytes := by
  unfold State.hostWriteArgBuf at h
  split at h
  · cases h
  · next hb =>
    split at h
    · next hfits => cases h; exact ⟨by simpa using hb, hfits, rfl⟩
    · cases h

theorem HostEffect.of_hostWriteArgBuf {i : Nat} {bytes : List Byte} {s t : State}
    (h : s.hostWriteArgBuf i bytes = .next t) : HostEffect s t := by
  obtain ⟨hb, hfits, rfl⟩ := State.hostWriteArgBuf_next h
  exact .operands hb hfits

/-- A read changes the host's own variables only (R254, R75). -/
theorem HostEffect.hostRead (s : State) (n : Nat) : HostEffect s (s.hostRead n) := by
  unfold State.hostRead
  split
  · exact .own _ _
  · split
    · exact .own _ _
    · split <;> exact .own _ _

theorem HostEffect.hostReadRxBuf (s : State) (i : Nat) : HostEffect s (s.hostReadRxBuf i) := by
  unfold State.hostReadRxBuf
  split <;> exact .own _ _

theorem HostEffect.of_hostReadArgBuf {i : Nat} {s t : State} (h : s.hostReadArgBuf i = .next t) :
    HostEffect s t := by
  unfold State.hostReadArgBuf at h
  split at h
  · cases h; exact .own _ _
  · split at h
    · cases h; exact .own _ _
    · cases h

theorem HostEffect.pollStatus (s : State) : HostEffect s s.pollStatus := by
  unfold State.pollStatus
  split <;> exact .own _ _

theorem HostEffect.of_copyView {s t : State} (h : s.copyView = .next t) : HostEffect s t := by
  unfold State.copyView at h
  split at h
  · cases h; exact .own _ _
  · cases h
  · cases h

/-- The lines of a host program, one by one. -/
theorem State.hostLine_next {line : HostLine} {s t : State} (h : s.hostLine line = .next t) : HostEffect s t := by
  cases line with
  | wr n v => exact State.hostWrite_next h
  | wrKept n => exact State.hostWrite_next h
  | wrBuf bytes => exact .of_hostWriteArgBuf h
  | wrArg i b => exact .of_hostWriteArgBuf h
  | rd n => cases h; exact .hostRead s n
  | rdRxBuf i => cases h; exact .hostReadRxBuf s i
  | rdArgBuf i => exact .of_hostReadArgBuf h
  | wait => cases h; exact .pollStatus s
  | copyFrame => exact .of_copyView h
  | keep => cases h; exact .own _ _
  | skip n => cases h; exact .own _ _
  | answer => cases h; exact .own _ _
  | skipUnlessMatched n =>
    cases h
    split <;> exact .own _ _

/-- The host's turn is the effect of one line, taken off its program first (R68). -/
theorem State.hostTurn_next {s t : State} (h : s.hostTurn = .next t) :
    ∃ host, HostEffect { s with host := host } t := by
  unfold State.hostTurn at h
  split at h
  · cases h; exact ⟨s.host, .own s.host s.freeReads⟩
  · exact ⟨_, State.hostLine_next h⟩

/-! ### What bytes that arrive together do -/

/-- What the decoder accepts on the wire is the bytes of one frame (R90, R97). -/
theorem decode_wire_ok {bytes : List Byte} {i : Instr} (h : decode (.wire bytes) = .ok i) :
    ∃ len type body, bytes = wireBytes len type body ∧ i = frameOf len type body := by
  simp only [decode] at h
  split at h
  · next hframe =>
    cases h
    obtain ⟨len, type, body, -, rfl, rfl⟩ := decodeFrame_ok hframe
    exact ⟨len, type, body, List.append_nil _, rfl⟩
  · cases h
  · cases h

/-- Bytes that arrive together are read the same way whether or not they are a frame (R90, R97; log 3). -/
theorem State.wireTurn_eq_receive (bytes : List Byte) (s : State) : s.wireTurn bytes = s.receive bytes := by
  unfold State.wireTurn
  split
  · next i hi =>
    obtain ⟨len, type, body, rfl, rfl⟩ := decode_wire_ok hi
    exact exec_frame (frameOf_frameParts len type body) s
  · rfl

/-- The state a turn is taken from differs in the schedule alone (R71). -/
theorem step_eq_takeTurn (s : State) :
    ∃ turns drawn, step s = State.takeTurn s.nextTurn.1 { s with turns := turns, freeTurns := drawn } := by
  unfold step State.nextTurn
  split
  · exact ⟨_, s.freeTurns, rfl⟩
  · exact ⟨s.turns, _, rfl⟩

/-! ### Safe states with an operation running -/

/-- A safe state with an operation running, but for what its phase says of the buffer. A micro-step passes through
such states between the append and the completion test (R156 to R158). -/
structure Running (s : State) : Prop where
  busy : s.busy = true
  fvalid : s.fvalid = false
  op : s.op ≠ .none
  rxBuf_wf : Memory.wf rxUnlisted s.rxBuf = true
  rxBuf_below : Memory.below s.rxCnt.toNat s.rxBuf = true
  rxCnt_le : s.rxCnt.toNat ≤ Config.cap
  operands : OperandsOk s
  clock : ClockOk s

/-- Below `CAP` the count goes up without wrapping (R22). -/
theorem State.rxCnt_append {s : State} (hroom : s.rxCnt.toNat < Config.cap) (b : Byte) :
    (s.append b).rxCnt.toNat = s.rxCnt.toNat + 1 := by
  have : s.rxCnt.toNat < 1800 := hroom
  rw [State.append_rxCnt, BitVec.toNat_add]
  simp
  omega

/-- The whole frame is in the buffer and its checksum in `RXCHK` (R164). -/
def WholeFrame (s : State) : Prop :=
  1 ≤ s.lenField ∧ s.rxCnt.toNat = s.lenField + Config.overhead ∧ s.rxChk = checksum s.frameType s.framePayload

theorem running_of_inv {s : State} (h : Inv s) (hb : s.busy = true) : Running s := by
  obtain ⟨⟨hop, -, -⟩, ⟨hwf, hbelow, hle, -⟩, hargs, hclock, hview⟩ := h
  have hfv : s.fvalid = false := by
    by_contra hne
    have hidle := (hview (by simpa using hne)).1
    simp [hb] at hidle
  exact ⟨hb, hfv, by simp [hop, hb], hwf, hbelow, hle, hargs, hclock⟩

namespace Running

variable {s : State}

/-- What the phase must say for a running state to be safe. -/
theorem inv (h : Running s) (hidle : s.phase ≠ .idle) (hcheck : s.phase = .check → s.op = .await)
    (hcollect : s.phase = .collect → s.rxCnt.toNat < s.total ∧ s.total ≤ Config.cap) : Inv s :=
  ⟨⟨by simp [h.op, h.busy], by simp [hidle, h.busy], hcheck⟩, ⟨h.rxBuf_wf, h.rxBuf_below, h.rxCnt_le, hcollect⟩,
    h.operands, h.clock, by simp [h.fvalid]⟩

theorem clearRxBuf (h : Running s) : Running s.clearRxBuf :=
  { h with rxBuf_wf := rfl, rxBuf_below := rfl, rxCnt_le := by simp }

theorem setRxChk (h : Running s) (c : Byte) : Running { s with rxChk := c } := { h with }

theorem popped (h : Running s) (q : List Byte) : Running (s.popped q) := { h with }

/-- An append below `CAP` (R157). -/
theorem append (h : Running s) (hroom : s.rxCnt.toNat < Config.cap) (b : Byte) : Running (s.append b) where
  busy := h.busy
  fvalid := h.fvalid
  op := h.op
  rxBuf_wf := Memory.wf_write h.rxBuf_wf _ _
  rxBuf_below := by
    rw [State.rxCnt_append hroom]
    exact Memory.below_write (Memory.below_mono h.rxBuf_below (Nat.le_succ _)) (Nat.lt_succ_self _)
  rxCnt_le := by rw [State.rxCnt_append hroom]; exact hroom
  operands := h.operands
  clock := ⟨le_rfl, h.clock.2⟩

/-- A completion without a frame to view (R274). -/
theorem complete (h : Running s) (code : Res) : Inv (State.complete code { s with fvalid := false }) :=
  ⟨by simp [Coherent], ⟨h.rxBuf_wf, h.rxBuf_below, h.rxCnt_le, by simp⟩, h.operands, ⟨h.clock.1, by simp⟩,
    by simp [ViewOk]⟩

/-- A completion with a whole frame (R164, R202). -/
theorem complete_frame (h : Running s) (hw : WholeFrame s) {code : Res} (hcode : code ∈ viewOutcomes) :
    Inv (State.complete code { s with fvalid := true }) :=
  ⟨by simp [Coherent], ⟨h.rxBuf_wf, h.rxBuf_below, h.rxCnt_le, by simp⟩, h.operands, ⟨h.clock.1, by simp⟩,
    fun _ => ⟨rfl, hcode, hw⟩⟩

/-- The end of a decode (R150, R200): `OK_FRAME` needs the whole frame. -/
theorem decodeDone (h : Running s) {code : Res} (hw : code = .okFrame → WholeFrame s) : Inv (s.decodeDone code) := by
  rcases s.decodeDone_cases code h.op with ⟨-, e⟩ | ⟨-, hc, -, e⟩ | ⟨hawait, -, e⟩ <;> rw [e]
  · by_cases hc : code = .okFrame
    · subst hc
      exact h.complete_frame (hw rfl) (by decide)
    · rw [decide_eq_false hc]
      exact h.complete code
  · exact h.complete_frame (hw hc) (by decide)
  · have hr : Running { s with fvalid := false, phase := .check } := { h with fvalid := rfl }
    exact hr.inv (by simp) (fun _ => hawait) (by simp)

/-- A complete frame in the buffer (R161 to R164). -/
theorem finishFrame (h : Running s) (hall : s.rxCnt.toNat = s.lenField + Config.overhead) : Inv s.finishFrame := by
  rcases s.finishFrame_cases with ⟨-, e⟩ | ⟨-, -, -, e⟩ | ⟨hlen, -, e⟩ <;> rw [e]
  · exact h.clearRxBuf.decodeDone (by simp)
  · exact (h.setRxChk _).clearRxBuf.decodeDone (by simp)
  · exact (h.setRxChk _).decodeDone fun _ => ⟨Nat.one_le_iff_ne_zero.mpr hlen, hall, rfl⟩

end Running

/-- `total()` with two bytes buffered (R155). -/
theorem State.total_of_two_le {s : State} (h : 2 ≤ s.rxCnt.toNat) : s.total = s.lenField + Config.overhead := by
  rw [State.total, if_neg (by omega)]

theorem State.total_of_lt_two {s : State} (h : s.rxCnt.toNat < 2) : s.total = Config.overhead := by
  rw [State.total, if_pos h, Nat.zero_add]

/-- The length field stays once both its bytes are in (R156). -/
theorem State.lenField_append {s : State} (hwf : Memory.wf rxUnlisted s.rxBuf = true) (htwo : 2 ≤ s.rxCnt.toNat)
    (hroom : s.rxCnt.toNat < Config.cap) (b : Byte) : (s.append b).lenField = s.lenField := by
  have hbyte : ∀ i < 2, (s.append b).rxByte i = s.rxByte i := by
    intro i hi
    have hne : i ≠ s.rxCnt.toNat := by omega
    exact (rxByte_write hwf hroom b i).trans (if_neg hne)
  simp only [State.lenField, hbyte 0 (by omega), hbyte 1 (by omega)]

/-- The appended byte leaves an incomplete frame no more than complete; only the second byte of the length field can
make it too large (R157, R160). -/
theorem State.rxCnt_append_le_total {s : State} (hwf : Memory.wf rxUnlisted s.rxBuf = true)
    (hlt : s.rxCnt.toNat < s.total) (htotal : s.total ≤ Config.cap) (b : Byte) :
    (s.append b).rxCnt.toNat ≤ (s.append b).total ∧
      ((s.append b).rxCnt.toNat ≠ 2 → (s.append b).total ≤ Config.cap) := by
  have hroom : s.rxCnt.toNat < Config.cap := by omega
  have hcnt := State.rxCnt_append hroom b
  have hover : Config.overhead = 3 := rfl
  have hcap : Config.cap = 1800 := rfl
  rcases Nat.lt_or_ge (s.append b).rxCnt.toNat 2 with hshort | hlong
  · rw [State.total_of_lt_two hshort]
    omega
  · rw [State.total_of_two_le hlong]
    rcases Nat.lt_or_ge s.rxCnt.toNat 2 with hsecond | htwo
    · omega
    · rw [State.lenField_append hwf htwo hroom b]
      rw [State.total_of_two_le htwo] at hlt htotal
      omega

/-! ### Every turn keeps a safe state safe -/

/-- What follows an append in COLLECT (R156, R273). -/
theorem inv_afterStore_append {s : State} (h : Running s) (hphase : s.phase = .collect)
    (hlt : s.rxCnt.toNat < s.total) (htotal : s.total ≤ Config.cap) (b : Byte) : Inv (s.append b).afterStore := by
  have hr : Running (s.append b) := h.append (by omega) b
  obtain ⟨hle, hfits⟩ := State.rxCnt_append_le_total h.rxBuf_wf hlt htotal b
  have hover : Config.overhead = 3 := rfl
  rcases (s.append b).afterStore_cases with ⟨-, -, e⟩ | ⟨-, hall, e⟩ | ⟨hsmall, hmore, e⟩ <;> rw [e]
  · exact hr.clearRxBuf.decodeDone (by simp)
  · have htwo : 2 ≤ (s.append b).rxCnt.toNat := by
      by_contra hshort
      rw [State.total_of_lt_two (by omega)] at hall
      omega
    exact hr.finishFrame (hall.trans (State.total_of_two_le htwo))
  · refine hr.inv (by simp [hphase]) (by simp [hphase]) fun _ => ⟨by omega, ?_⟩
    by_cases htwo : (s.append b).rxCnt.toNat = 2
    · have hcnt : (s.append b).rxCnt = 2 := BitVec.eq_of_toNat_eq htwo
      rw [State.total_of_two_le htwo.ge]
      exact Nat.le_of_not_lt fun hbig => hsmall ⟨hcnt, hbig⟩
    · exact hfits htwo

theorem inv_huntStep {s : State} (h : Inv s) (hb : s.busy = true) : Inv s.huntStep := by
  have hr := running_of_inv h hb
  rcases s.huntStep_cases with ⟨-, e⟩ | ⟨b, q, -, -, e⟩ | ⟨q, -, e⟩ <;> rw [e]
  · exact hr.decodeDone (by simp)
  · exact h
  · have hc : Running { (s.popped q).clearRxBuf with lastProg := s.now, phase := .collect } :=
      { (hr.popped q).clearRxBuf with clock := ⟨le_rfl, hr.clock.2⟩ }
    refine hc.inv (by simp) (by simp) fun _ => ?_
    rw [State.total_of_lt_two (by simp)]
    simp [Config.overhead, Config.cap]

theorem inv_collectStep {s t : State} (h : Inv s) (hb : s.busy = true) (hphase : s.phase = .collect)
    (hstep : s.collectStep = .next t) : Inv t := by
  have hr := running_of_inv h hb
  obtain ⟨-, ⟨-, -, -, hcollect⟩, -⟩ := h
  obtain ⟨hlt, htotal⟩ := hcollect hphase
  rcases State.collectStep_next hstep with ⟨b, q, -, -, rfl⟩ | ⟨-, -, -, rfl⟩ | ⟨-, -, -, rfl⟩
  · exact inv_afterStore_append (hr.popped q) hphase hlt htotal b
  · exact hr.clearRxBuf.decodeDone (by simp)
  · exact hr.inv (by simp [hphase]) (by simp [hphase]) hcollect

theorem inv_checkStep {s t : State} (h : Inv s) (hb : s.busy = true) (hstep : s.checkStep = .next t) : Inv t := by
  have hr := running_of_inv h hb
  obtain ⟨-, ⟨-, rfl⟩ | ⟨-, rfl⟩⟩ := State.checkStep_next hstep
  · exact hr.complete .timedOut
  · have hr' : Running { s with phase := .hunt } := { hr with }
    exact hr'.inv (by simp) (by simp) (by simp)

theorem inv_microStep {s t : State} (h : Inv s) (hstep : s.microStep = .next t) : Inv t := by
  rcases State.microStep_next hstep with ⟨-, rfl⟩ | ⟨hb, -, -, rfl⟩ | ⟨hb, -, hphase, hc⟩ | ⟨hb, -, -, hc⟩
  · exact h
  · exact inv_huntStep h hb
  · exact inv_collectStep h hb hphase hc
  · exact inv_checkStep h hb hc

theorem inv_receive {s t : State} {bytes : List Byte} (h : Inv s) (hr : s.receive bytes = .next t) : Inv t :=
  State.drain_keeps (fun _ _ => inv_microStep) _ (s := s.arrive bytes) h hr

theorem CommandEffect.inv {s t : State} (h : Inv s) (hidle : s.busy = false) (he : CommandEffect s t) : Inv t := by
  obtain ⟨⟨hop, hphase, -⟩, ⟨hwf, hbelow, hle, -⟩, hargs, ⟨hprog, -⟩, hview⟩ := h
  have hop' : s.op = .none := hop.mpr hidle
  have hphase' : s.phase = .idle := hphase.mpr hidle
  cases he with
  | answered hcode =>
    refine ⟨⟨hop, hphase, by simp [hphase']⟩, ⟨hwf, hbelow, hle, by simp [hphase']⟩, hargs,
      ⟨hprog, by simp [hop']⟩, fun hfv => ?_⟩
    obtain ⟨-, -, hw⟩ := hview hfv
    have hleaves : [Res.ok, .encodeTooLong, .illegalCommand] ⊆ viewOutcomes := by decide
    exact ⟨hidle, hleaves hcode, hw⟩
  | decodeIssued =>
    have hr : Running (s.issue .decode .hunt) := ⟨rfl, rfl, by simp, hwf, hbelow, hle, hargs, ⟨hprog, by simp⟩⟩
    exact hr.inv (by simp) (by simp) (by simp)
  | @awaitIssued start hstart hcomparators =>
    have hr : Running { s.issue .await .check with t0 := start } :=
      ⟨rfl, rfl, by simp, hwf, hbelow, hle, hargs, ⟨hprog, fun _ => ⟨hstart, hcomparators⟩⟩⟩
    exact hr.inv (by simp) (fun _ => rfl) (by simp)
  | tornDown =>
    exact ⟨⟨hop, hphase, by simp [hphase']⟩, ⟨rfl, rfl, by simp, by simp [hphase']⟩, hargs,
      ⟨Nat.zero_le _, by simp [hop']⟩, by simp [ViewOk]⟩

/-- No register a host can write is one the invariant speaks of while `BUSY = 0`: `T0` and `M_N` bind a running wait
only (R197, R251). -/
theorem Reg.inv_write {s : State} (h : Inv s) (hidle : s.busy = false) (r : Reg) (v : Nat) : Inv (r.write v s) := by
  obtain ⟨hcoherent, hreceive, hargs, ⟨hprog, -⟩, hview⟩ := h
  have hop : s.op ≠ .await := by simp [hcoherent.1.mpr hidle]
  have hclock : ClockOk (r.write v s) := by
    cases r <;> exact ⟨hprog, fun hawait => absurd hawait hop⟩
  cases r <;> exact ⟨hcoherent, hreceive, hargs, hclock, hview⟩

theorem inv_storeArgs {s : State} (h : Inv s) {i : Nat} {bytes : List Byte}
    (hfits : i + bytes.length ≤ Config.argCap) : Inv (s.storeArgs i bytes) := by
  obtain ⟨hcoherent, hreceive, ⟨hwf, hbelow⟩, hclock, hview⟩ := h
  obtain ⟨m, e, hm⟩ := State.storeArgs_only bytes s i
  rw [e]
  exact ⟨hcoherent, hreceive, hm hwf hbelow hfits, hclock, hview⟩

theorem HostEffect.inv {s t : State} (h : Inv s) (he : HostEffect s t) : Inv t := by
  cases he with
  | own host reads => exact h
  | register r v hidle => exact Reg.inv_write h hidle r v
  | operands hidle hfits => exact inv_storeArgs h hfits
  | command hidle heffect => exact heffect.inv h hidle

theorem inv_advance {s : State} (h : Inv s) (d : Nat) : Inv (s.advance d) := by
  obtain ⟨hcoherent, hreceive, hargs, ⟨hprog, hwait⟩, hview⟩ := h
  refine ⟨hcoherent, hreceive, hargs, ⟨?_, fun hawait => ⟨?_, (hwait hawait).2⟩⟩, hview⟩
  · exact hprog.trans (Nat.le_add_right _ _)
  · exact (hwait hawait).1.trans (Nat.le_add_right _ _)

/-- Settles O56: every clause speaks of fixed values. -/
theorem resetIsSafe : Obligations.ResetIsSafe := by
  unfold Obligations.ResetIsSafe
  decide

/-- The clock is the one piece of state the reset event keeps and the invariant reads; every stored time is 0 then. -/
theorem inv_afterReset (s : State) : Inv s.afterReset := by
  obtain ⟨hcoherent, hreceive, hargs, -, hview⟩ := resetIsSafe
  exact ⟨hcoherent, hreceive, hargs, ⟨Nat.zero_le _, by simp [State.reset]⟩, hview⟩

theorem inv_takeTurn {s t : State} {x : Turn} (h : Inv s) (hturn : s.takeTurn x = .next t) : Inv t := by
  cases x with
  | host =>
    obtain ⟨host, he⟩ := State.hostTurn_next hturn
    exact he.inv (s := { s with host := host }) h
  | sequencer => exact inv_microStep h hturn
  | arrive bytes => cases hturn; exact h
  | tick d => cases hturn; exact inv_advance h d
  | wire bytes => exact inv_receive h ((State.wireTurn_eq_receive bytes s).symm.trans hturn)
  | reset => cases hturn; exact inv_afterReset s
  | call lines => cases hturn; exact h

/-- Settles O57: every turn keeps the invariant, and so does taking the turn off the schedule. -/
theorem stepKeepsSafe : Obligations.StepKeepsSafe := by
  intro s t h hstep
  obtain ⟨turns, drawn, e⟩ := step_eq_takeTurn s
  exact inv_takeTurn (s := { s with turns := turns, freeTurns := drawn }) h (e.symm.trans hstep)

/-! ### What no instruction writes -/

/-- Operands, match registers, `CTRL`, `ARGBUF`, the clock, the host and the schedule are as before. -/
def OperandsKept (s t : State) : Prop :=
  t.args = s.args ∧ t.matchRegs = s.matchRegs ∧ t.chkEn = s.chkEn ∧ t.argBuf = s.argBuf ∧ t.now = s.now ∧
    t.host = s.host ∧ t.turns = s.turns ∧ t.freeTurns = s.freeTurns ∧ t.freeReads = s.freeReads ∧
    t.resets = s.resets

theorem Untouched.operandsKept {s t : State} (h : Untouched s t) : OperandsKept s t := by
  obtain ⟨hnow, hargs, hmatch, hctrl, -, hbuf, -, -, hhost⟩ := h
  exact ⟨hargs, hmatch, hctrl, hbuf, hnow, hhost⟩

theorem CommandEffect.operandsKept {s t : State} (h : CommandEffect s t) : OperandsKept s t := by
  cases h <;> simp [OperandsKept]

theorem exec_operandsKept {i : Instr} {s t : State} (h : exec i s = .next t) : OperandsKept s t := by
  rcases exec_next h with ⟨bytes, hr⟩ | ⟨-, he⟩
  · exact (State.receive_only hr).1.operandsKept
  · exact he.operandsKept

/-- Settles O58: a frame is read by micro-steps, which touch none of these, and no command's effect does. -/
theorem noInstructionWritesOperands : Obligations.NoInstructionWritesOperands := by
  intro i s t h
  obtain ⟨hargs, hmatch, hctrl, hbuf, hnow, hhost, hturns, hdrawn, hreads, hresets⟩ := exec_operandsKept h
  exact ⟨hargs, hmatch, hctrl, hbuf, State.argByte_congr hbuf hresets, hnow, hhost, hturns, hdrawn, hreads, hresets⟩

/-! ### The streams and the clock -/

/-- The bytes that arrive at a turn (R40). -/
def Turn.arrivals : Turn → List Byte
  | .arrive bytes => bytes
  | .wire bytes => bytes
  | _ => []

/-- How many bytes a turn may take off the head of `RXQ` (R40, R70). -/
def Turn.mayRead : Turn → Nat → Prop
  | .wire _, _ => True
  | .sequencer, k => k ≤ 1
  | _, k => k = 0

/-- By how much a turn advances `NOW` (R42). -/
def Turn.ticks : Turn → Nat
  | .tick d => d
  | _ => 0

theorem Turn.ticks_eq_zero {x : Turn} (h : ∀ d, x ≠ .tick d) : x.ticks = 0 := by
  cases x with
  | tick d => exact absurd rfl (h d)
  | host | sequencer | arrive | wire | reset | call => rfl

/-- A turn that neither brings bytes nor belongs to the sequencer leaves `RXQ` alone. -/
theorem Turn.no_arrivals_no_reads {x : Turn} (harrive : ∀ bytes, x ≠ .arrive bytes) (hwire : ∀ bytes, x ≠ .wire bytes)
    (hseq : x ≠ .sequencer) : x.arrivals = [] ∧ ∀ k, x.mayRead k → k = 0 := by
  cases x with
  | arrive bytes => exact absurd rfl (harrive bytes)
  | wire bytes => exact absurd rfl (hwire bytes)
  | sequencer => exact absurd rfl hseq
  | host | tick | reset | call => exact ⟨rfl, fun _ hk => hk⟩

/-- `TXQ` and `ENCOUT` are extended at their tails (R41, R43). -/
def RecordsGrow (s t : State) : Prop := ∃ a b, t.txq = s.txq ++ a ∧ t.encOut = s.encOut ++ b

theorem RecordsGrow.of_eq {s t : State} (htx : t.txq = s.txq) (henc : t.encOut = s.encOut) : RecordsGrow s t :=
  ⟨[], [], by simp [htx], by simp [henc]⟩

theorem Untouched.recordsGrow {s t : State} (h : Untouched s t) : RecordsGrow s t := by
  obtain ⟨-, -, -, -, -, -, htx, henc, -⟩ := h
  exact .of_eq htx henc

theorem CommandEffect.recordsGrow {s t : State} (h : CommandEffect s t) : RecordsGrow s t := by
  cases h with
  | answered _ htx henc =>
    obtain ⟨sent, rfl⟩ := htx
    obtain ⟨made, rfl⟩ := henc
    exact ⟨sent, made, rfl, rfl⟩
  | decodeIssued | awaitIssued | tornDown => exact .of_eq rfl rfl

theorem CommandEffect.rxq_eq {s t : State} (h : CommandEffect s t) : t.rxq = s.rxq := by
  cases h <;> rfl

/-- The host extends the records by its commands alone, and reaches neither the clock nor `RXQ` (R40, R42). -/
theorem HostEffect.streams {s t : State} (h : HostEffect s t) :
    RecordsGrow s t ∧ t.now = s.now ∧ t.rxq = s.rxq := by
  cases h with
  | own host reads => exact ⟨.of_eq rfl rfl, rfl, rfl⟩
  | register r v _ => cases r <;> exact ⟨.of_eq rfl rfl, rfl, rfl⟩
  | @operands i bytes _ _ =>
    obtain ⟨m, e, -⟩ := State.storeArgs_only bytes s i
    rw [e]
    exact ⟨.of_eq rfl rfl, rfl, rfl⟩
  | command _ he =>
    obtain ⟨-, -, -, -, hnow, -⟩ := he.operandsKept
    exact ⟨he.recordsGrow, hnow, he.rxq_eq⟩

/-- What a turn may do to the records, the clock and `RXQ` (R40 to R43). -/
def StreamsMove (x : Turn) (s t : State) : Prop :=
  (x ≠ .reset → RecordsGrow s t) ∧ t.now = s.now + x.ticks ∧
    ∃ k, x.mayRead k ∧ t.rxq = (s.rxq ++ x.arrivals).drop k

theorem State.takeTurn_streams {s t : State} {x : Turn} (h : s.takeTurn x = .next t) : StreamsMove x s t := by
  cases x with
  | host =>
    obtain ⟨host, he⟩ := State.hostTurn_next h
    obtain ⟨hrec, hnow, hrxq⟩ := he.streams
    exact ⟨fun _ => hrec, hnow, 0, rfl, by simpa [Turn.arrivals] using hrxq⟩
  | sequencer =>
    obtain ⟨hun, k, hk, hrxq⟩ := State.microStep_only h
    exact ⟨fun _ => hun.recordsGrow, hun.1, k, hk, by simpa [Turn.arrivals] using hrxq⟩
  | arrive bytes => cases h; exact ⟨fun _ => .of_eq rfl rfl, rfl, 0, rfl, rfl⟩
  | tick d => cases h; exact ⟨fun _ => .of_eq rfl rfl, rfl, 0, rfl, by simp [Turn.arrivals]⟩
  | wire bytes =>
    obtain ⟨hun, k, hrxq⟩ := State.receive_only ((State.wireTurn_eq_receive bytes s).symm.trans h)
    exact ⟨fun _ => hun.recordsGrow, hun.1, k, trivial, hrxq⟩
  | reset => cases h; exact ⟨fun hne => absurd rfl hne, rfl, 0, rfl, by simp [Turn.arrivals]⟩
  | call lines => cases h; exact ⟨fun _ => .of_eq rfl rfl, rfl, 0, rfl, by simp [Turn.arrivals]⟩

theorem step_streams {s t : State} (h : step s = .next t) : StreamsMove s.nextTurn.1 s t := by
  obtain ⟨turns, drawn, e⟩ := step_eq_takeTurn s
  exact State.takeTurn_streams (s := { s with turns := turns, freeTurns := drawn }) (e.symm.trans h)

/-- Settles O59: what a turn does to the streams and the clock, read off for each kind of turn. -/
theorem streamsAndClockMoveForward : Obligations.StreamsAndClockMoveForward := by
  intro s t h
  obtain ⟨hrecords, hnow, k, hk, hrxq⟩ := step_streams h
  refine ⟨hrecords, ?tick, ?noTick, ?arrive, ?wire, ?sequencer, ?other⟩
  case tick => intro d hx; rw [hnow, hx]; rfl
  case noTick => intro hx; rw [hnow, Turn.ticks_eq_zero hx, Nat.add_zero]
  case arrive =>
    intro bytes hx
    rw [hx] at hk hrxq
    obtain rfl : k = 0 := hk
    exact hrxq
  case wire =>
    intro bytes hx
    rw [hx] at hrxq
    exact ⟨k, hrxq⟩
  case sequencer =>
    intro hx
    rw [hx] at hk hrxq
    exact ⟨k, hk, by simpa [Turn.arrivals] using hrxq⟩
  case other =>
    intro harrive hwire hseq
    obtain ⟨hnone, hzero⟩ := Turn.no_arrivals_no_reads harrive hwire hseq
    rw [hrxq, hnone, hzero k hk, List.append_nil, List.drop_zero]

/-! ### When a frame becomes valid -/

/-- The operation has ended with an outcome that delivers a frame (R164, R202). -/
def Received (s : State) : Prop := s.busy = false ∧ (s.res = .okFrame ∨ s.res = .matched)

theorem State.decodeDone_received {s : State} {code : Res} (hop : s.op ≠ .none)
    (h : (s.decodeDone code).fvalid = true) : Received (s.decodeDone code) := by
  rcases s.decodeDone_cases code hop with ⟨-, e⟩ | ⟨-, -, -, e⟩ | ⟨-, -, e⟩ <;> rw [e] at h ⊢
  · exact ⟨rfl, .inl (of_decide_eq_true h)⟩
  · exact ⟨rfl, .inr rfl⟩
  · cases h

theorem State.finishFrame_received {s : State} (hop : s.op ≠ .none) (h : s.finishFrame.fvalid = true) :
    Received s.finishFrame := by
  rcases s.finishFrame_cases with ⟨-, e⟩ | ⟨-, -, -, e⟩ | ⟨-, -, e⟩ <;> rw [e] at h ⊢ <;>
    exact State.decodeDone_received hop h

theorem State.afterStore_received {s : State} (hop : s.op ≠ .none) (hfv : s.fvalid = false)
    (h : s.afterStore.fvalid = true) : Received s.afterStore := by
  rcases s.afterStore_cases with ⟨-, -, e⟩ | ⟨-, -, e⟩ | ⟨-, -, e⟩ <;> rw [e] at h ⊢
  · exact State.decodeDone_received hop h
  · exact State.finishFrame_received hop h
  · simp [hfv] at h

theorem State.huntStep_received {s : State} (hop : s.op ≠ .none) (hfv : s.fvalid = false)
    (h : s.huntStep.fvalid = true) : Received s.huntStep := by
  rcases s.huntStep_cases with ⟨-, e⟩ | ⟨b, q, -, -, e⟩ | ⟨q, -, e⟩ <;> rw [e] at h ⊢
  · exact State.decodeDone_received hop h
  · simp [hfv] at h
  · simp [hfv] at h

theorem State.collectStep_received {s t : State} (hop : s.op ≠ .none) (hfv : s.fvalid = false)
    (hstep : s.collectStep = .next t) (h : t.fvalid = true) : Received t := by
  rcases State.collectStep_next hstep with ⟨b, q, -, -, rfl⟩ | ⟨-, -, -, rfl⟩ | ⟨-, -, -, rfl⟩
  · exact State.afterStore_received (s := (s.popped q).append b) hop hfv h
  · exact State.decodeDone_received hop h
  · simp [hfv] at h

/-- A micro-step that makes a frame valid ends a running operation with a receipt. -/
theorem State.microStep_received {s t : State} (hstep : s.microStep = .next t) (hfv : s.fvalid = false)
    (h : t.fvalid = true) : s.busy = true ∧ Received t := by
  rcases State.microStep_next hstep with ⟨-, rfl⟩ | ⟨hb, hop, -, rfl⟩ | ⟨hb, hop, -, hc⟩ | ⟨hb, -, -, hc⟩
  · simp [hfv] at h
  · exact ⟨hb, State.huntStep_received hop hfv h⟩
  · exact ⟨hb, State.collectStep_received hop hfv hc h⟩
  · obtain ⟨-, ⟨-, rfl⟩ | ⟨-, rfl⟩⟩ := State.checkStep_next hc <;> simp [hfv] at h

/-- What a row of micro-steps from `s` has come to: it runs only an operation that ran in `s`, and a frame is valid
only by that operation's receipt. -/
def ReceivedSince (s u : State) : Prop :=
  (u.busy = true → s.busy = true) ∧ (u.fvalid = true → s.busy = true ∧ Received u)

theorem ReceivedSince.refl {s : State} (hfv : s.fvalid = false) : ReceivedSince s s :=
  ⟨id, fun hv => by simp [hfv] at hv⟩

/-- Once the frame is valid the operation has ended, and the sequencer rests. -/
theorem ReceivedSince.microStep {s u v : State} (h : ReceivedSince s u) (hstep : u.microStep = .next v) :
    ReceivedSince s v := by
  obtain ⟨hbusy, hvalid⟩ := h
  cases hu : u.busy with
  | false =>
    obtain rfl : u = v := by simpa [State.microStep_idle hu] using hstep
    exact ⟨hbusy, hvalid⟩
  | true =>
    have hufv : u.fvalid = false := by
      by_contra hne
      have hrest : u.busy = false := (hvalid (by simpa using hne)).2.1
      simp [hu] at hrest
    exact ⟨fun _ => hbusy hu, fun hv => ⟨hbusy hu, (State.microStep_received hstep hufv hv).2⟩⟩

theorem State.receive_received {s t : State} {bytes : List Byte} (hr : s.receive bytes = .next t)
    (hfv : s.fvalid = false) (h : t.fvalid = true) : s.busy = true ∧ Received t := by
  have hsince : ReceivedSince (s.arrive bytes) t :=
    State.drain_keeps (fun _ _ => ReceivedSince.microStep) _ (ReceivedSince.refl hfv) hr
  exact hsince.2 h

theorem HostEffect.fvalid_of_fvalid {s t : State} (he : HostEffect s t) (h : t.fvalid = true) : s.fvalid = true := by
  cases he with
  | own host reads => exact h
  | register r v _ => cases r <;> exact h
  | @operands i bytes _ _ =>
    obtain ⟨m, e, -⟩ := State.storeArgs_only bytes s i
    rw [e] at h
    exact h
  | command _ hc =>
    cases hc with
    | answered => exact h
    | decodeIssued | awaitIssued | tornDown => cases h

theorem State.takeTurn_received {s t : State} {x : Turn} (hturn : s.takeTurn x = .next t) (hfv : s.fvalid = false)
    (h : t.fvalid = true) :
    s.busy = true ∧ Received t ∧ (x = .sequencer ∨ ∃ bytes, x = .wire bytes) := by
  cases x with
  | host =>
    obtain ⟨host, he⟩ := State.hostTurn_next hturn
    have := he.fvalid_of_fvalid h
    simp [hfv] at this
  | sequencer =>
    obtain ⟨hb, hr⟩ := State.microStep_received hturn hfv h
    exact ⟨hb, hr, .inl rfl⟩
  | wire bytes =>
    rw [State.takeTurn, State.wireTurn_eq_receive] at hturn
    obtain ⟨hb, hr⟩ := State.receive_received hturn hfv h
    exact ⟨hb, hr, .inr ⟨bytes, rfl⟩⟩
  | arrive bytes => cases hturn; simp [hfv] at h
  | tick d => cases hturn; simp [hfv] at h
  | reset => cases hturn; cases h
  | call lines => cases hturn; simp [hfv] at h

/-- Settles O60: no turn but one with micro-steps raises `FVALID`, and a micro-step raises it by a receipt alone. -/
theorem frameBecomesValidOnlyByReceipt : Obligations.FrameBecomesValidOnlyByReceipt := by
  intro s t h hfv ht
  obtain ⟨turns, drawn, e⟩ := step_eq_takeTurn s
  obtain ⟨hb, ⟨hidle, hres⟩, hturn⟩ := State.takeTurn_received (e.symm.trans h) hfv ht
  exact ⟨hb, hidle, hres, hturn⟩

/-! ### The view registers and `ARGBUF` -/

/-- In a safe state the length field of a valid frame counts its type byte, so that one can be taken off it (R92,
R170). -/
theorem payloadLen_of_inv {s : State} (h : Inv s) (hfv : s.fvalid = true) :
    (be16 (s.rxByte 0) (s.rxByte 1) - 1).toNat = (be16 (s.rxByte 0) (s.rxByte 1)).toNat - 1 := by
  obtain ⟨-, -, -, -, hview⟩ := h
  obtain ⟨-, -, hlen, -⟩ := hview hfv
  exact BitVec.toNat_sub_of_le (BitVec.le_def.mpr hlen)

/-- Settles O29: both registers are read-only, and the valid frame of a safe state has a length field of 1 or more. -/
theorem viewRegisters : Obligations.ViewRegisters := by
  intro s hinv hb
  have htype := State.hostRead_rdata (n := 21) (r := .fType) hb rfl
  have hlen := State.hostRead_rdata (n := 22) (r := .fLen) hb rfl
  refine ⟨?writes, ?valid, ?notValid⟩
  case writes =>
    exact fun v => ⟨State.hostWrite_ignored (r := .fType) hb (by decide) rfl rfl,
      State.hostWrite_ignored (r := .fLen) hb (by decide) rfl rfl⟩
  case valid =>
    intro hfv
    rw [htype, hlen, Reg.read, Reg.read, if_pos hfv, if_pos hfv]
    exact ⟨rfl, payloadLen_of_inv hinv hfv⟩
  case notValid =>
    intro hfv
    simp [htype, hlen, Reg.read, hfv]

theorem State.hostWriteArgBuf_idle {s : State} (hb : s.busy = false) (i : Nat) (bytes : List Byte) :
    s.hostWriteArgBuf i bytes =
      if i + bytes.length ≤ Config.argCap then .next (s.storeArgs i bytes) else .fault .argBufIndex := by
  simp [State.hostWriteArgBuf, hb]

theorem State.hostReadArgBuf_idle {s : State} (hb : s.busy = false) (i : Nat) :
    s.hostReadArgBuf i =
      if i < Config.argCap then .next (s.returnRead (s.argByte i).toNat) else .fault .argBufIndex := by
  simp [State.hostReadArgBuf, hb]

/-- Settles O32: a write stores its bytes and nothing else, and an access is answered exactly inside `ARGCAP`. -/
theorem operandMemory : Obligations.OperandMemory := by
  refine ⟨?write, ?unwritten, ?inside, ?beyond, ?read, ?readBeyond⟩
  case write =>
    intro s t i bytes h
    obtain ⟨-, -, rfl⟩ := State.hostWriteArgBuf_next h
    constructor
    · obtain ⟨m, e, -⟩ := State.storeArgs_only bytes s i
      rw [e]
    · intro j
      rw [State.argByte_storeArgs]
      by_cases hj : i ≤ j <;> cases bytes[j - i]? <;> simp [hj, Option.filter]
  case unwritten => intro s i h; rw [State.argByte, h, Option.getD_none]
  case inside =>
    intro s i bytes hb hfits
    exact ⟨s.storeArgs i bytes, (State.hostWriteArgBuf_idle hb i bytes).trans (if_pos hfits)⟩
  case beyond =>
    intro s i bytes hb hbeyond
    exact (State.hostWriteArgBuf_idle hb i bytes).trans (if_neg (Nat.not_le.mpr hbeyond))
  case read =>
    intro s i hb hi
    exact (State.hostReadArgBuf_idle hb i).trans (if_pos hi)
  case readBeyond =>
    intro s i hb hi
    exact (State.hostReadArgBuf_idle hb i).trans (if_neg (Nat.not_lt.mpr hi))

/-! ### Reset -/

theorem State.rxByte_of_empty {s : State} (h : s.rxBuf = []) (i : Nat) : s.rxByte i = 0x00 := by
  simp [State.rxByte, h]

/-- An `ARGBUF` byte nothing has written reads as the free value of the last reset (U9; log 6). -/
theorem State.argByte_of_empty {s : State} (h : s.argBuf = []) (i : Nat) :
    s.argByte i = Config.argBufUnwritten s.resets i := by
  simp [State.argByte, h]

theorem reset_matchRegs_zero : ∀ i : Fin 4,
    State.reset.matchRegs.off[i] = 0 ∧ State.reset.matchRegs.val[i] = 0 := by
  decide

/-- Settles O8: both memories are empty after the event, and every other clause is one field of it. -/
theorem resetEventValues : Obligations.ResetEventValues := by
  rintro s t rfl
  exact ⟨State.rxByte_of_empty rfl, rfl, rfl, rfl, rfl, rfl, rfl, rfl, rfl, rfl, rfl, rfl, rfl,
    ⟨rfl, rfl, rfl, rfl, rfl, rfl, rfl⟩, ⟨rfl, rfl, reset_matchRegs_zero⟩, State.argByte_of_empty rfl,
    rfl, rfl, rfl, rfl⟩

/-- The operand and match registers, 3 to 19, read 0 right after reset (R39, R48). -/
theorem reset_hostRead_operands (n : Nat) (hlo : 3 ≤ n) (hhi : n ≤ 19) :
    (State.reset.hostRead n).host.rdata = 0 := by
  interval_cases n <;> rfl

/-- Settles O9: both memories are empty, and every other clause is one field or one register. -/
theorem resetStateValues : Obligations.ResetStateValues :=
  ⟨State.rxByte_of_empty rfl, rfl, rfl, rfl, rfl, rfl, rfl, rfl, reset_hostRead_operands,
    State.argByte_of_empty rfl, rfl, rfl, rfl, rfl⟩

/-- Settles O10: the arrival fills the empty stream, and the tick counts from 0. -/
theorem anyInitialStreamAndClock : Obligations.AnyInitialStreamAndClock := by
  intro q n
  simp [State.takeTurns, State.takeTurn, State.arrive, State.advance, State.reset]

end Sys2Proof.Machine

/-! PROOF. The receive stream: what a micro-step leaves alone, frames as rows of micro-steps, and reads while busy. -/

namespace Sys2Proof.Machine

/-! ### One micro-step -/

/-- Settles O43: the part of the block no micro-step touches, and a drop of at most one byte. -/
theorem microStepFrame : Obligations.MicroStepFrame := by
  intro s t h
  obtain ⟨huntouched, k, hk, hrxq⟩ := State.microStep_only h
  refine ⟨?_, huntouched⟩
  cases hq : s.rxq with
  | nil => left; simp [hrxq, hq]
  | cons b q => interval_cases k <;> simp [hrxq, hq]

/-! ### A frame as micro-steps -/

/-- A bound on the micro-steps a running operation takes before `RXQ` is read: one for each byte, and one CHECK before
each byte at most (R198, R203). -/
def State.pending (s : State) : Nat := 2 * s.rxq.length + if s.phase = .check then 1 else 0

theorem State.le_pending (s : State) : 2 * s.rxq.length ≤ s.pending := Nat.le_add_right _ _

theorem State.pending_le (s : State) : s.pending ≤ 2 * s.rxq.length + 1 := by
  unfold State.pending
  split <;> omega

/-- A micro-step with bytes to read takes one of them, or is the CHECK of a wait, which leaves CHECK (R152, R156,
R198). -/
theorem State.microStep_reads {s t : State} (hb : s.busy = true) (hq : s.rxq ≠ []) (h : s.microStep = .next t) :
    (∃ b, s.rxq = b :: t.rxq) ∨ (s.phase = .check ∧ t.phase ≠ .check ∧ t.rxq = s.rxq) := by
  rcases State.microStep_next h with ⟨hidle, -⟩ | ⟨-, -, -, rfl⟩ | ⟨-, -, -, hstep⟩ | ⟨-, -, hphase, hstep⟩
  · simp [hidle] at hb
  · left
    rcases s.huntStep_cases with ⟨hnil, -⟩ | ⟨b, q, hcons, -, e⟩ | ⟨q, hcons, e⟩
    · exact absurd hnil hq
    · exact ⟨b, by rw [e, hcons, State.popped_rxq]⟩
    · exact ⟨Config.start, by rw [e, hcons]; rfl⟩
  · left
    rcases State.collectStep_next hstep with ⟨b, q, hcons, -, rfl⟩ | ⟨hnil, -⟩ | ⟨hnil, -⟩
    · exact ⟨b, by rw [(State.afterStore_only _).2, hcons]; rfl⟩
    · exact absurd hnil hq
    · exact absurd hnil hq
  · right
    rcases (State.checkStep_next hstep).2 with ⟨-, rfl⟩ | ⟨-, rfl⟩
    · exact ⟨hphase, by simp, rfl⟩
    · exact ⟨hphase, by simp, rfl⟩

theorem State.pending_microStep_lt {s t : State} (hb : s.busy = true) (hq : s.rxq ≠ []) (h : s.microStep = .next t) :
    t.pending < s.pending := by
  rcases State.microStep_reads hb hq h with ⟨b, hcons⟩ | ⟨hcheck, hleft, hrxq⟩
  · have hlength : s.rxq.length = t.rxq.length + 1 := by rw [hcons, List.length_cons]
    have ht := t.pending_le
    have hs := s.le_pending
    omega
  · simp [State.pending, hcheck, hleft, hrxq]

/-- While the operation runs and `RXQ` has bytes, a row of micro-steps takes one, and goes on from its answer or stops
with its stop. -/
theorem State.drain_running {s : State} (hb : s.busy = true) (hq : s.rxq ≠ []) (n : Nat) :
    (∃ u, s.microStep = .next u ∧ State.drain (n + 1) s = State.drain n u) ∨
    ((∀ u, s.microStep ≠ .next u) ∧ State.drain (n + 1) s = s.microStep) := by
  cases hm : s.microStep with
  | next u => exact .inl ⟨u, rfl, State.drain_step hb hq hm⟩
  | fault f => exact .inr ⟨by simp, by simp [State.drain, hb, hq, hm]⟩
  | refused r => exact .inr ⟨by simp, by simp [State.drain, hb, hq, hm]⟩

theorem State.drain_eq_microSteps (n : Nat) (s : State) : ∃ m, State.drain n s = s.microSteps m := by
  induction n generalizing s with
  | zero => exact ⟨0, rfl⟩
  | succ n ih =>
    by_cases hstop : s.busy = false ∨ s.rxq = []
    · exact ⟨0, State.drain_stop hstop⟩
    · obtain ⟨hb, hq⟩ : s.busy = true ∧ s.rxq ≠ [] := by simpa using hstop
      rcases State.drain_running hb hq n with ⟨u, hu, e⟩ | ⟨-, e⟩
      · obtain ⟨m, hm⟩ := ih u
        exact ⟨m + 1, by rw [e, hm, State.microSteps, hu]⟩
      · exact ⟨1, by rw [e, State.microSteps_one]⟩

/-- A row of micro-steps with fuel enough, when it answers, has read `RXQ` or ended the operation. -/
theorem State.drain_reads {n : Nat} {s t : State} (hfuel : s.pending ≤ n) (h : State.drain n s = .next t) :
    t.busy = false ∨ t.rxq = [] := by
  induction n generalizing s with
  | zero =>
    obtain rfl : s = t := by simpa [State.drain] using h
    have hbytes := s.le_pending
    exact .inr (List.eq_nil_of_length_eq_zero (by omega))
  | succ n ih =>
    by_cases hstop : s.busy = false ∨ s.rxq = []
    · rw [State.drain_stop hstop, Host.Outcome.next.injEq] at h
      exact h ▸ hstop
    · obtain ⟨hb, hq⟩ : s.busy = true ∧ s.rxq ≠ [] := by simpa using hstop
      rcases State.drain_running hb hq n with ⟨u, hu, e⟩ | ⟨hno, e⟩
      · have hless := State.pending_microStep_lt hb hq hu
        exact ih (by omega) (e ▸ h)
      · exact absurd (e ▸ h) (hno t)

theorem State.pending_arrive_le_drainFuel (s : State) (bytes : List Byte) :
    (s.arrive bytes).pending ≤ drainFuel (s.rxq.length + bytes.length) := by
  simpa [drainFuel] using (s.arrive bytes).pending_le

/-- Settles O46: the frame's bytes arrive, and `drainFuel` bounds the micro-steps that read them. -/
theorem frameIsMicroSteps : Obligations.FrameIsMicroSteps := by
  intro s i len type body hframe
  rw [exec_frame hframe]
  exact ⟨State.drain_eq_microSteps _ _, fun t => State.drain_reads (s.pending_arrive_le_drainFuel _)⟩

/-- Settles O45: an idle sequencer takes no micro-step, so the bytes stay where they arrive. -/
theorem frameWaitsWhileIdle : Obligations.FrameWaitsWhileIdle := by
  intro s i len type body hb hframe
  exact (exec_frame hframe s).trans (State.drain_stop (.inl hb))

/-! ### Reads while an operation runs -/

/-- `STATUS` is read at any time (R257). -/
theorem State.hostRead_status (s : State) : s.hostRead 2 = s.returnRead s.status := rfl

theorem State.hostRead_busy {s : State} (hb : s.busy = true) {n : Nat} (hn : n ≠ 2) : s.hostRead n = s.returnFree := by
  simp [State.hostRead, hn, hb]

theorem State.hostReadRxBuf_busy {s : State} (hb : s.busy = true) (i : Nat) : s.hostReadRxBuf i = s.returnFree := by
  simp [State.hostReadRxBuf, hb]

theorem State.hostReadArgBuf_busy {s : State} (hb : s.busy = true) (i : Nat) :
    s.hostReadArgBuf i = .next s.returnFree := by
  simp [State.hostReadArgBuf, hb]

/-- Settles O25: every read but that of `STATUS` returns the next free value (U7; log 8). -/
theorem busyReads : Obligations.BusyReads := by
  intro s hb
  exact ⟨s.hostRead_status, fun _ => State.hostRead_busy hb, State.hostReadRxBuf_busy hb, State.hostReadArgBuf_busy hb⟩

end Sys2Proof.Machine

/-! PROOF. The encodings: decode and encode agree, the bytes of a frame and of the four payload layouts, a placed
instruction is run, and every frame is answered. -/

namespace Sys2Proof

/-! ### Decode and encode -/

/-- Bytes on the wire are an instruction when one frame takes them all (R90, R97). -/
theorem decode_wire_eq_ok_iff {bytes : List Byte} {i : Instr} :
    decode (.wire bytes) = .ok i ↔ decodeFrame bytes = .ok (i, []) := by
  simp only [decode]
  split
  · next j hj => simp [hj]
  · next j b rest hj => simp [hj]
  · next e he => simp [he]

/-- The bytes of a frame decode to the row of its type (R96, R111). -/
theorem decode_wireBytes {len : Half} {body : List Byte} (type : Byte) (h : body.length = len.toNat) :
    decode (.wire (wireBytes len type body)) = .ok (frameOf len type body) := by
  have hread := decodeFrame_wireBytes len type body [] h
  rw [List.append_nil] at hread
  exact decode_wire_eq_ok_iff.mpr hread

/-- A command is read back from its opcode (R106, R107). -/
theorem decode_encode_of_command {i : Instr} (h : i.frameParts = none) : decode (encode i) = .ok i := by
  cases i with
  | cmdEncode | cmdDecode | sendCommand | awaitMatch | awaitMatchT0 | teardown => rfl
  | frame | atCommand | atResponse | txRequest | modemStatus => cases h

/-- A well-formed frame is read back from its bytes (R90, R92). -/
theorem decode_encode_of_frame {i : Instr} {len : Half} {type : Byte} {body : List Byte}
    (h : i.frameParts = some (len, type, body)) (hw : i.wellFormed = true) : decode (encode i) = .ok i := by
  rw [encode_of_frameParts h, decode_wireBytes type (body_length_of_wellFormed h hw), ← eq_frameOf h hw]

/-- Settles O5: an instruction is a command or a frame, and each is read back. -/
theorem decodeOfEncode : Obligations.DecodeOfEncode := by
  intro i hw
  cases hparts : i.frameParts with
  | none => exact decode_encode_of_command hparts
  | some parts => exact decode_encode_of_frame hparts hw

/-- Settles O6: a command byte that decodes is an opcode, and bytes that decode are one whole frame. -/
theorem encodeOfDecode : Obligations.EncodeOfDecode := by
  intro e i h
  cases e with
  | command c =>
    obtain ⟨hencode, hw, -⟩ := decodeCommand_ok h
    exact ⟨hencode, hw⟩
  | wire bytes =>
    obtain ⟨len, type, body, hfits, hbytes, rfl⟩ := decodeFrame_ok (decode_wire_eq_ok_iff.mp h)
    refine ⟨?_, frameOf_wellFormed hfits⟩
    rw [encode_of_frameParts (frameOf_frameParts len type body), hbytes, List.append_nil]

/-- Settles O7: the length and the bytes one by one. -/
theorem wireBytesLayout : Obligations.WireBytesLayout :=
  fun len type body hfits => ⟨Laws.EncodedSize.of_frame len type body hfits, wireBytes_eq len type body⟩

/-- Settles O4: each word is evaluated. -/
theorem specWordsDecode : Obligations.SpecWordsDecode :=
  ⟨rfl, rfl, rfl, rfl, rfl, rfl, rfl, rfl, rfl, rfl, rfl⟩

/-- A table word that decodes places an encoding that decodes (R96, R106). -/
theorem decodeTableWord_eq_some {nbits w : Nat} {i : Instr} (h : decodeTableWord nbits w = some i) :
    ∃ e, tableEncoding nbits w = some e ∧ decode e = .ok i := by
  unfold decodeTableWord at h
  split at h
  · cases h
  · next e he =>
    split at h
    · next j hj => cases h; exact ⟨e, he, hj⟩
    · cases h

/-! ### The byte order of the payload fields -/

/-- The address is sent as two halves, the more significant first (R61). -/
theorem u32be_append (hi lo : Half) : u32be (hi ++ lo) = u16be hi ++ u16be lo := by
  have hhi (start : Nat) (h : 16 ≤ start) : (hi ++ lo).extractLsb' start 8 = hi.extractLsb' (start - 16) 8 :=
    BitVec.extractLsb'_append_eq_of_le h
  have hlo (start : Nat) (h : start + 8 ≤ 16) : (hi ++ lo).extractLsb' start 8 = lo.extractLsb' start 8 :=
    BitVec.extractLsb'_append_eq_of_add_le h
  rw [u32be, hhi 24 (by decide), hhi 16 (by decide), hlo 8 (by decide), hlo 0 (by decide)]
  rfl

theorem exists_be16 (n : Half) : ∃ h l, n = be16 h l := ⟨_, _, (be16_bytes n).symm⟩

theorem exists_append_halves (n : BitVec 32) : ∃ hi lo : Half, n = hi ++ lo :=
  ⟨_, _, (BitVec.extractLsb'_append_extractLsb' (w := 16) (len := 16)).symm⟩

end Sys2Proof

namespace Sys2Proof.Machine

open Sys2Proof.Safety

/-! ### The payload layouts -/

/-- The TX Request payload, byte by byte, with its fields as pairs and fours of bytes (R102). -/
theorem TxRequestPayload.bytes_mk (f a0 a1 a2 a3 d0 d1 s0 s1 protocol options : Byte) (data : List Byte) :
    TxRequestPayload.bytes ⟨f, be16 a0 a1 ++ be16 a2 a3, be16 d0 d1, be16 s0 s1, protocol, options, data⟩ =
      f :: a0 :: a1 :: a2 :: a3 :: d0 :: d1 :: s0 :: s1 :: protocol :: options :: data := by
  simp [TxRequestPayload.bytes, u32be_append, u16be_be16]

theorem AtCommandPayload.ofBytes_eq_some_iff (p : AtCommandPayload) (bs : List Byte) :
    AtCommandPayload.ofBytes bs = some p ↔ p.bytes = bs := by
  refine ⟨fun h => ?_, fun h => h ▸ rfl⟩
  unfold AtCommandPayload.ofBytes at h
  split at h <;> cases h
  rfl

theorem AtResponsePayload.ofBytes_eq_some_iff (p : AtResponsePayload) (bs : List Byte) :
    AtResponsePayload.ofBytes bs = some p ↔ p.bytes = bs := by
  refine ⟨fun h => ?_, fun h => h ▸ rfl⟩
  unfold AtResponsePayload.ofBytes at h
  split at h <;> cases h
  rfl

theorem ModemStatusPayload.ofBytes_eq_some_iff (p : ModemStatusPayload) (bs : List Byte) :
    ModemStatusPayload.ofBytes bs = some p ↔ p.bytes = bs := by
  refine ⟨fun h => ?_, fun h => h ▸ rfl⟩
  unfold ModemStatusPayload.ofBytes at h
  split at h <;> cases h
  rfl

/-- Every address and port is made of bytes, so laying out and reading meet on those bytes. -/
theorem TxRequestPayload.ofBytes_eq_some_iff (p : TxRequestPayload) (bs : List Byte) :
    TxRequestPayload.ofBytes bs = some p ↔ p.bytes = bs := by
  constructor
  · intro h
    unfold TxRequestPayload.ofBytes at h
    split at h <;> cases h
    exact TxRequestPayload.bytes_mk ..
  · rintro rfl
    obtain ⟨f, addr, destPort, sourcePort, protocol, options, data⟩ := p
    obtain ⟨hi, lo, rfl⟩ := exists_append_halves addr
    obtain ⟨a0, a1, rfl⟩ := exists_be16 hi
    obtain ⟨a2, a3, rfl⟩ := exists_be16 lo
    obtain ⟨d0, d1, rfl⟩ := exists_be16 destPort
    obtain ⟨s0, s1, rfl⟩ := exists_be16 sourcePort
    rw [TxRequestPayload.bytes_mk]
    rfl

/-- Settles O17: layout by layout. -/
theorem payloadLayoutsReadBack : Obligations.PayloadLayoutsReadBack :=
  ⟨AtCommandPayload.ofBytes_eq_some_iff, AtResponsePayload.ofBytes_eq_some_iff,
    ModemStatusPayload.ofBytes_eq_some_iff, TxRequestPayload.ofBytes_eq_some_iff⟩

/-! ### An encoded frame is an instruction -/

/-- What `encode` returns decodes to the row of its type, with the payload and the checksum as its body (R133). -/
theorem decode_frameBytes (type : Byte) {payload : List Byte} (h : payload.length ≤ Config.maxPay) :
    decode (.wire (frameBytes type payload)) =
      .ok (frameOf (BitVec.ofNat 16 (payload.length + 1)) type (payload ++ [checksum type payload])) := by
  have hmax : payload.length ≤ 0xFFFE := h
  refine decode_wireBytes type ?_
  rw [List.length_append, List.length_singleton, BitVec.toNat_ofNat, Nat.mod_eq_of_lt (by omega)]

theorem AtCommandPayload.bytes_length (p : AtCommandPayload) : p.bytes.length = 3 + p.param.length := by
  simp only [AtCommandPayload.bytes, List.length_cons]
  omega

/-- Settles O16: a parameter of at most 0xFFFB bytes leaves the payload within `MAXPAY`. -/
theorem sentFrameIsAtCommand : Obligations.SentFrameIsAtCommand := by
  intro p hparam
  have hlength : p.bytes.length + 1 = 4 + p.param.length := by rw [p.bytes_length]; omega
  have hmax : p.bytes.length ≤ Config.maxPay := by
    rw [Config.maxPay]
    omega
  refine ⟨?_, (p.ofBytes_eq_some_iff _).mpr rfl⟩
  rw [decode_frameBytes _ hmax, hlength, frameOf, if_pos rfl]

/-! ### The step runs a placed instruction -/

/-- A write of an opcode to `CMD` runs its command (R250). -/
theorem issueCommand_of_decode {c : Byte} {i : Instr} (h : decodeCommand c = .ok i) (s : State) :
    issueCommand c s = exec i s := by
  simp only [issueCommand, h]

/-- The bytes of an instruction that arrive together run it (R90; log 3). -/
theorem State.wireTurn_of_decode {bytes : List Byte} {i : Instr} (h : decode (.wire bytes) = .ok i) (s : State) :
    s.wireTurn bytes = exec i s := by
  simp only [State.wireTurn, h]

/-- The step from a state with an encoding placed runs the instruction it decodes to (log 2). -/
theorem step_place {e : Encoding} {i : Instr} (h : decode e = .ok i) (s : State) : step (s.place e) = exec i s := by
  cases e with
  | command c =>
    calc step (s.place (.command c))
        = issueCommand (BitVec.ofNat 8 c.toNat) s := step_of_turns_cons (t := .host) (ts := s.turns) rfl
      _ = issueCommand c s := by rw [BitVec.ofNat_toNat, BitVec.setWidth_eq]
      _ = exec i s := issueCommand_of_decode h s
  | wire bytes =>
    calc step (s.place (.wire bytes))
        = s.wireTurn bytes := step_of_turns_cons (t := .wire bytes) (ts := s.turns) rfl
      _ = exec i s := State.wireTurn_of_decode h s

/-- Settles O3: the word's encoding is what is placed. -/
theorem placedInstructionRuns : Obligations.PlacedInstructionRuns := by
  intro s nbits w i h
  obtain ⟨e, he, hdecode⟩ := decodeTableWord_eq_some h
  rw [State.withFetchWord, he]
  exact step_place hdecode s

/-! ### Every frame is answered -/

/-- A safe state that collects has room for a byte and no progress after `NOW`, so COLLECT has no fault (R157, R42). -/
theorem collectStep_answers {s : State} (h : Inv s) (hphase : s.phase = .collect) : ∃ t, s.collectStep = .next t := by
  obtain ⟨-, ⟨-, -, -, hcollect⟩, -, ⟨hprog, -⟩, -⟩ := h
  obtain ⟨hlt, htotal⟩ := hcollect hphase
  unfold State.collectStep
  split
  · next b q hq =>
    have hroom : (s.popped q).rxCnt.toNat < Config.cap := hlt.trans_le htotal
    rw [State.storeByte_next b hroom]
    exact ⟨_, rfl⟩
  · rw [State.elapsedSince, if_pos hprog]
    dsimp only
    split <;> exact ⟨_, rfl⟩

/-- The wait of a safe state began no later than `NOW`, so CHECK is not refused (R197, U8). -/
theorem checkStep_answers {s : State} (h : Inv s) (hop : s.op = .await) : ∃ t, s.checkStep = .next t := by
  obtain ⟨-, -, -, ⟨-, hwait⟩, -⟩ := h
  rw [State.checkStep, State.elapsedSince, if_pos (hwait hop).1]
  dsimp only
  split <;> exact ⟨_, rfl⟩

/-- In a safe state a running operation is in a phase that has a micro-step (R38), and that micro-step answers. -/
theorem microStep_answers {s : State} (h : Inv s) : ∃ t, s.microStep = .next t := by
  cases hb : s.busy with
  | false => exact ⟨s, State.microStep_idle hb⟩
  | true =>
    obtain ⟨-, hidle, hcheck⟩ := h.1
    have hop : s.op ≠ .none := (running_of_inv h hb).op
    cases hphase : s.phase with
    | idle => exact absurd (hidle.mp hphase) (by simp [hb])
    | hunt => exact ⟨_, State.microStep_hunt hb hop hphase⟩
    | collect =>
      rw [State.microStep_collect hb hop hphase]
      exact collectStep_answers h hphase
    | check =>
      rw [State.microStep_check hb (hcheck hphase) hphase]
      exact checkStep_answers h (hcheck hphase)

theorem receive_answers {s : State} (h : Inv s) (bytes : List Byte) : ∃ t, s.receive bytes = .next t := by
  have hstep : ∀ u : State, Inv u → ∃ v, u.microStep = .next v ∧ Inv v := by
    intro u hu
    obtain ⟨v, hv⟩ := microStep_answers hu
    exact ⟨v, hv, inv_microStep hu hv⟩
  obtain ⟨t, ht, -⟩ := State.drain_total hstep (drainFuel (s.rxq.length + bytes.length)) (s := s.arrive bytes) h
  exact ⟨t, ht⟩

/-- Settles O47: a frame is read by micro-steps, each of which answers from a safe state and keeps it safe. -/
theorem everyFrameCompletes : Obligations.EveryFrameCompletes := by
  intro s i h hframe
  obtain ⟨⟨len, type, body⟩, hparts⟩ := Option.ne_none_iff_exists'.mp hframe
  rw [exec_frame hparts]
  exact receive_answers h _

end Sys2Proof.Machine

/-! PROOF. The framer: the checksum as a sum of bytes, what `encode` returns, ENCODE, and the detection of a changed
byte. -/

namespace Sys2Proof.Machine

/-! ### The checksum as a sum of bytes -/

theorem toNat_sum_bytes (bytes : List Byte) : bytes.sum.toNat = (bytes.map BitVec.toNat).sum % 256 := by
  induction bytes with
  | nil => rfl
  | cons b bytes ih =>
    rw [List.sum_cons, BitVec.toNat_add, ih, List.map_cons, List.sum_cons, Nat.add_mod_mod]

/-- The checksum in the ring of bytes: 0xFF minus the sum of type and payload (R130). -/
theorem checksum_eq_sub_sum (type : Byte) (payload : List Byte) :
    checksum type payload = 0xFF - (type :: payload).sum := by
  rw [checksum, List.sum_eq_foldl, List.foldl_cons, zero_add]

/-- The verification identity in the ring of bytes (R131). -/
theorem eq_checksum_iff_sum (c type : Byte) (payload : List Byte) :
    c = checksum type payload ↔ (type :: payload ++ [c]).sum = 0xFF := by
  rw [checksum_eq_sub_sum, List.sum_append, List.sum_singleton, eq_sub_iff_add_eq']

/-- Settles O11: the sum in the ring of bytes is the sum of the numbers mod 256. -/
theorem checksumIsComplementOfSum : Obligations.ChecksumIsComplementOfSum := by
  intro type payload
  have hff : (0xFF : Byte).toNat = 0xFF := rfl
  rw [checksum_eq_sub_sum, BitVec.toNat_sub, toNat_sum_bytes, List.map_cons, List.sum_cons, hff]
  omega

/-- Settles O12: the identity in the ring of bytes, read as numbers mod 256. -/
theorem checksumVerification : Obligations.ChecksumVerification := by
  intro c type payload
  have hsum : (type :: payload ++ [c]).sum.toNat =
      (type.toNat + (payload.map BitVec.toNat).sum + c.toNat) % 256 := by
    rw [toNat_sum_bytes, List.map_append, List.sum_append, List.map_cons, List.sum_cons, List.map_singleton,
      List.sum_singleton]
  rw [eq_checksum_iff_sum, ← BitVec.toNat_inj, hsum]
  rfl

/-! ### What `encode` returns, and ENCODE -/

theorem encodeFrame_of_le (type : Byte) {payload : List Byte} (h : payload.length ≤ Config.maxPay) :
    encodeFrame type payload = some (frameBytes type payload) := if_pos h

theorem encodeFrame_of_lt (type : Byte) {payload : List Byte} (h : Config.maxPay < payload.length) :
    encodeFrame type payload = none := if_neg h.not_ge

/-- The length field of an encoded frame does not wrap: `MAXPAY + 1` fits 16 bits (R133). -/
theorem toNat_frameLength {n : Nat} (h : n ≤ Config.maxPay) : (BitVec.ofNat 16 (n + 1)).toNat = n + 1 := by
  have hmax : n ≤ 0xFFFE := h
  rw [BitVec.toNat_ofNat, Nat.mod_eq_of_lt (by omega)]

/-- An encoded frame byte by byte (R133). -/
theorem frameBytes_eq (type : Byte) {payload : List Byte} (h : payload.length ≤ Config.maxPay) :
    frameBytes type payload =
      [Config.start, BitVec.ofNat 8 ((payload.length + 1) / 256), BitVec.ofNat 8 ((payload.length + 1) % 256), type]
        ++ payload ++ [checksum type payload] := by
  rw [frameBytes, wireBytes_eq, toNat_frameLength h]
  rfl

/-- Settles O13: the bytes one by one within `MAXPAY`, and no value beyond it (U3). -/
theorem encodeFrameLayout : Obligations.EncodeFrameLayout := by
  intro type payload
  refine ⟨fun h => ⟨_, encodeFrame_of_le type h, frameBytes_eq type h, ?_⟩, encodeFrame_of_lt type⟩
  rw [frameBytes_eq type h]
  simp only [List.length_append, List.length_cons, List.length_nil]
  omega

@[simp] theorem State.argBytes_length (s : State) (n : Nat) : (s.argBytes n).length = n := by
  rw [State.argBytes, List.length_map, List.length_range]

/-- An `ARG_LEN` of at most `MAXPAY` lets ENCODE append the frame of its operands (R134). -/
theorem execEncode_of_le {s : State} (hidle : s.busy = false) (h : s.args.len.toNat ≤ Config.maxPay) :
    execEncode s =
      .next { s.encPush (frameBytes s.args.type (s.argBytes s.args.len.toNat)) with res := .ok } := by
  rw [execEncode, whenIdle_idle hidle, if_neg h.not_gt]

/-- An `ARG_LEN` above `MAXPAY` is refused with `ENCODE_TOO_LONG` (R134). -/
theorem execEncode_of_lt {s : State} (hidle : s.busy = false) (h : Config.maxPay < s.args.len.toNat) :
    execEncode s = .next { s with res := .encodeTooLong } := by
  rw [execEncode, whenIdle_idle hidle, if_pos h]

/-- 0xFFFF is the one 16-bit length above `MAXPAY` (R133, R134). -/
theorem le_maxPay_of_ne {n : Half} (h : n ≠ 0xFFFF) : n.toNat ≤ Config.maxPay := by
  rw [Config.maxPay]
  bv_omega

/-- A write of an opcode to register 0, `CMD`, runs its command (R250). -/
theorem State.hostWrite_of_decode {v : Nat} {i : Instr} (h : decodeCommand (BitVec.ofNat 8 v) = .ok i) (s : State) :
    s.hostWrite 0 v = exec i s := by
  rw [State.hostWrite, if_pos rfl, issueCommand_of_decode h]

/-- Settles O14: 0xFFFF is the one length ENCODE answers with `ENCODE_TOO_LONG`. -/
theorem encodeResult : Obligations.EncodeResult := by
  intro s hidle
  refine ⟨State.hostWrite_of_decode rfl s, fun hlen => ?_, fun hlen => ?_⟩
  · have hmax := le_maxPay_of_ne hlen
    exact ⟨_, encodeFrame_of_le _ (by rwa [State.argBytes_length]), execEncode_of_le hidle hmax⟩
  · exact execEncode_of_lt hidle (by rw [hlen]; decide)

/-! ### One changed byte -/

/-- `decode_quiet` of a whole frame that fits the receive buffer: only its checksum decides, and what stands behind the
frame is left (R168). -/
theorem decodeQuiet_wireBytes (chkEn : Bool) {len : Half} (type c : Byte) {payload : List Byte} (rest : List Byte)
    (hlen : len.toNat = payload.length + 1) (hcap : len.toNat + Config.overhead ≤ Config.cap) :
    decodeQuiet chkEn (wireBytes len type (payload ++ [c]) ++ rest) =
      if chkEn && decide (c ≠ checksum type payload) then ⟨.checksumMismatch, rest, none⟩
      else ⟨.okFrame, rest, some ⟨type, payload⟩⟩ := by
  have htake : (type :: (payload ++ c :: rest)).take len.toNat = type :: payload := by
    rw [hlen, List.take_succ_cons, List.take_left]
  have hdrop : (type :: (payload ++ c :: rest)).drop len.toNat = c :: rest := by
    rw [hlen, List.drop_succ_cons, List.drop_left]
  rw [wireBytes_eq, List.cons_append, decodeQuiet, afterMarker, if_pos rfl]
  simp only [List.cons_append, List.append_assoc, List.nil_append, decodeBehind, be16_bytes, hcap.not_gt, if_false,
    hdrop, htake]

/-- Another byte in one place makes another sum. -/
theorem sum_set_ne {bytes : List Byte} {k : Nat} (hk : k < bytes.length) {b : Byte} (hb : b ≠ bytes[k]) :
    (bytes.set k b).sum ≠ bytes.sum := by
  rw [List.sum_set', dif_pos hk, Ne, add_eq_left, neg_add_eq_zero]
  exact hb.symm

/-- Two or more bytes are a type, a payload and a checksum byte. -/
theorem exists_type_payload_checksum {bytes : List Byte} {n : Nat} (h : bytes.length = n + 2) :
    ∃ type payload c, bytes = type :: payload ++ [c] ∧ payload.length = n := by
  obtain ⟨type, body, rfl⟩ := List.exists_cons_of_length_eq_add_one h
  have hbody : body.length = n + 1 := Nat.succ.inj h
  have hne : body ≠ [] := List.ne_nil_of_length_eq_add_one hbody
  refine ⟨type, body.dropLast, body.getLast hne, ?_, by rw [List.length_dropLast, hbody, Nat.add_sub_cancel]⟩
  rw [List.cons_append, List.dropLast_append_getLast]

/-- A frame whose type, payload and checksum byte do not sum to 0xFF is a mismatch on a quiet stream (R131, R163). -/
theorem decodeQuiet_of_sum_ne {bytes : List Byte} {n : Nat} (hlength : bytes.length = n + 2) (hn : n ≤ Config.maxRxPay)
    (hsum : bytes.sum ≠ 0xFF) :
    decodeQuiet true (Config.start :: u16be (BitVec.ofNat 16 (n + 1)) ++ bytes) = ⟨.checksumMismatch, [], none⟩ := by
  obtain ⟨type, payload, c, rfl, rfl⟩ := exists_type_payload_checksum hlength
  have hlen := toNat_frameLength (hn.trans (by decide))
  have hcap : (BitVec.ofNat 16 (payload.length + 1)).toNat + Config.overhead ≤ Config.cap := by
    rw [hlen]
    exact Nat.add_le_add_right hn 4
  have hread := decodeQuiet_wireBytes true type c [] hlen hcap
  rw [List.append_nil] at hread
  refine hread.trans (if_pos ?_)
  rw [Bool.true_and, decide_eq_true_eq, Ne, eq_checksum_iff_sum]
  exact hsum

/-- Settles O53: the frame's bytes sum to 0xFF, so with one of them changed they do not. -/
theorem oneChangedByteIsDetected : Obligations.OneChangedByteIsDetected := by
  intro type payload k b hmax hk hb
  have hlength : (type :: payload ++ [checksum type payload]).length = payload.length + 2 := by
    rw [List.length_append, List.length_cons, List.length_singleton]
  have hklen : k < (type :: payload ++ [checksum type payload]).length := hlength ▸ hk
  have hvalid := (eq_checksum_iff_sum _ type payload).mp rfl
  have hchanged : b ≠ (type :: payload ++ [checksum type payload])[k] := by
    rintro rfl
    exact hb (List.getElem?_eq_getElem hklen).symm
  exact decodeQuiet_of_sum_ne (List.length_set.trans hlength) hmax (hvalid ▸ sum_set_ne hklen hchanged)

end Sys2Proof.Machine

/-! PROOF. The deframer: the end of a decode, its micro-steps, the transitions of `PHASE`, whole frames inside a DECODE,
and a DECODE on a quiet stream. -/

namespace Sys2Proof.Machine

open Sys2Proof.Safety

/-! ### The end of a decode -/

theorem State.decodeDone_of_decode {s : State} (hop : s.op = .decode) (code : Res) :
    s.decodeDone code = State.complete code { s with fvalid := decide (code = .okFrame) } := by
  simp only [State.decodeDone, hop]

theorem State.decodeDone_of_match {s : State} (hop : s.op = .await) (hmatch : s.matches = true) :
    s.decodeDone .okFrame = State.complete .matched { s with fvalid := true } := by
  simp [State.decodeDone, hop, State.correlate, hmatch]

/-- A wait drops every outcome but a frame that matches (R201). -/
theorem State.decodeDone_of_drop {s : State} {code : Res} (hop : s.op = .await)
    (hdrop : code ≠ .okFrame ∨ s.matches = false) :
    s.decodeDone code = { s with fvalid := false, phase := .check } := by
  rcases hdrop with hcode | hno
  · simp [State.decodeDone, hop, State.correlate, hcode]
  · simp [State.decodeDone, hop, State.correlate, hno]

/-- Settles O40: the three ends are the branches of `decode_done` and `correlate`. -/
theorem endOfDecode : Obligations.EndOfDecode := by
  intro s code
  refine ⟨fun hop => State.decodeDone_of_decode hop code, ?_, State.decodeDone_of_drop⟩
  rintro hop rfl hmatch
  exact State.decodeDone_of_match hop hmatch

section MicroStepEnds

variable {s u : State} {code : Res} (hstep : s.op ≠ .none → s.microStep = .next (u.decodeDone code))
  (hkeep : u.op = s.op)

include hstep hkeep

/-- A micro-step that ends the decode of a DECODE completes it (R150). -/
theorem State.microStep_completes (hop : s.op = .decode) :
    s.microStep = .next (State.complete code { u with fvalid := decide (code = .okFrame) }) := by
  rw [hstep (by simp [hop]), State.decodeDone_of_decode (hkeep.trans hop)]

/-- A micro-step that ends the decode of a wait with another outcome than a match goes on to CHECK (R201). -/
theorem State.microStep_drops (hop : s.op = .await) (hdrop : code ≠ .okFrame ∨ u.matches = false) :
    s.microStep = .next { u with fvalid := false, phase := .check } := by
  rw [hstep (by simp [hop]), State.decodeDone_of_drop (hkeep.trans hop) hdrop]

/-- A frame that matches ends the wait (R202). -/
theorem State.microStep_matches (hop : s.op = .await) (hcode : code = .okFrame) (hmatch : u.matches = true) :
    s.microStep = .next (State.complete .matched { u with fvalid := true }) := by
  rw [hstep (by simp [hop]), hcode, State.decodeDone_of_match (hkeep.trans hop) hmatch]

end MicroStepEnds

/-! ### The issue of DECODE, and the copy of the view -/

theorem exec_cmdDecode_of_idle {s : State} (hidle : s.busy = false) :
    exec .cmdDecode s = .next (s.issue .decode .hunt) :=
  whenIdle_idle hidle _

/-- Settles O19: 0x02 is the opcode of DECODE, and an idle block accepts it. -/
theorem decodeIssue : Obligations.DecodeIssue :=
  fun s hidle => ⟨State.hostWrite_of_decode rfl s, exec_cmdDecode_of_idle hidle⟩

theorem State.view_of_fvalid {s : State} (h : s.fvalid = true) : s.view = some ⟨s.frameType, s.framePayload⟩ :=
  if_pos h

theorem State.view_of_not_fvalid {s : State} (h : s.fvalid = false) : s.view = none := by
  simp [State.view, h]

@[simp] theorem State.framePayload_length (s : State) : s.framePayload.length = s.payloadLen := by
  simp [State.framePayload]

/-- Payload byte `i` is byte `3 + i` of the buffer (R170). -/
theorem State.framePayload_getElem? {s : State} {i : Nat} (h : i < s.payloadLen) :
    s.framePayload[i]? = some (s.rxByte (3 + i)) := by
  simp [State.framePayload, h]

theorem State.copyView_of_some {s : State} {f : LogicalFrame} (hidle : s.busy = false) (h : s.view = some f) :
    s.copyView = .next { s with host := { s.host with frame := some f } } := by
  simp only [State.copyView, hidle, h]

theorem State.copyView_of_none {s : State} (hidle : s.busy = false) (h : s.view = none) :
    s.copyView = .refused .noFrameToView := by
  simp only [State.copyView, hidle, h]

/-- Settles O30: the copied frame is the view, which there is while `FVALID = 1`. -/
theorem copyOfTheView : Obligations.CopyOfTheView := by
  intro s hidle
  refine ⟨fun hvalid => ?valid, fun hnot => ?invalid⟩
  case valid =>
    exact ⟨_, State.copyView_of_some hidle (State.view_of_fvalid hvalid), rfl, s.framePayload_length,
      fun _ => State.framePayload_getElem?⟩
  case invalid => exact State.copyView_of_none hidle (State.view_of_not_fvalid hnot)

/-! ### The micro-step HUNT -/

theorem State.huntStep_empty {s : State} (h : s.rxq = []) : s.huntStep = s.decodeDone .noStartDelimiter := by
  simp only [State.huntStep, h]

theorem State.huntStep_discard {s : State} {b : Byte} {q : List Byte} (h : s.rxq = b :: q) (hb : b ≠ Config.start) :
    s.huntStep = s.popped q := by
  simp only [State.huntStep, h, hb, if_false]

theorem State.huntStep_marker {s : State} {q : List Byte} (h : s.rxq = Config.start :: q) :
    s.huntStep = { (s.popped q).clearRxBuf with lastProg := s.now, phase := .collect } := by
  simp only [State.huntStep, h, if_true]

/-- Settles O34: the stream is empty, or its next byte is the start marker or not. -/
theorem huntMicroStep : Obligations.HuntMicroStep := by
  intro s hb hphase
  have hhunt : s.op ≠ .none → s.microStep = .next s.huntStep := fun hop => State.microStep_hunt hb hop hphase
  have hempty (hq : s.rxq = []) : s.op ≠ .none → s.microStep = .next (s.decodeDone .noStartDelimiter) :=
    State.huntStep_empty hq ▸ hhunt
  refine ⟨fun hq hop => ?decode, fun hq hop => ?await, fun b q hq hne hop => ?discard, fun q hq hop => ?marker⟩
  case decode => exact State.microStep_completes (hempty hq) rfl hop
  case await => exact State.microStep_drops (hempty hq) rfl hop (.inl (by decide))
  case discard => exact (hhunt hop).trans (congrArg _ (State.huntStep_discard hq hne))
  case marker => exact (hhunt hop).trans (congrArg _ (State.huntStep_marker hq))

/-! ### The micro-step COLLECT -/

/-- COLLECT on an empty stream looks at the time since the last progress, strictly (R159, R7). -/
theorem State.collectStep_empty {s : State} (hq : s.rxq = []) (hclock : s.lastProg ≤ s.now) :
    s.collectStep =
      .next (if s.args.inact < s.now - s.lastProg then s.clearRxBuf.decodeDone .frameTimeout else s) := by
  simp only [State.collectStep, hq, State.elapsedSince, hclock, if_true, gt_iff_lt]
  split <;> rfl

/-- Settles O38: the micro-step with nothing to read compares the elapsed time with `ARG_INACT`. -/
theorem collectTimesOut : Obligations.CollectTimesOut := by
  intro s hb hphase hop hq hclock
  have hcollect := (State.microStep_collect hb hop hphase).trans (State.collectStep_empty hq hclock)
  have hlate (h : s.args.inact < s.now - s.lastProg) :
      s.op ≠ .none → s.microStep = .next (s.clearRxBuf.decodeDone .frameTimeout) :=
    fun _ => by rw [hcollect, if_pos h]
  refine ⟨fun h hdecode => ?decode, fun h hawait => ?await, fun h => ?early⟩
  case decode => exact State.microStep_completes (hlate h) rfl hdecode
  case await => exact State.microStep_drops (hlate h) rfl hawait (.inl (by decide))
  case early => rw [hcollect, if_neg h.not_gt]

/-- COLLECT with a byte to take and room for it (R156, R157). -/
theorem State.microStep_byte {s : State} {b : Byte} {q : List Byte} (hb : s.busy = true) (hop : s.op ≠ .none)
    (hphase : s.phase = .collect) (hroom : s.rxCnt.toNat < Config.cap) (hq : s.rxq = b :: q) :
    s.microStep = .next ((s.popped q).append b).afterStore := by
  have hstore : (s.popped q).storeByte b = .next ((s.popped q).append b) := State.storeByte_next b hroom
  rw [State.microStep_collect hb hop hphase]
  simp only [State.collectStep, hq, hstore]

theorem State.afterStore_oversized {s : State} (hcnt : s.rxCnt = 2) (hbig : Config.cap < s.lenField + Config.overhead) :
    s.afterStore = s.clearRxBuf.decodeDone .frameTooLarge := if_pos ⟨hcnt, hbig⟩

theorem State.afterStore_incomplete {s : State} (hfits : ¬ (s.rxCnt = 2 ∧ Config.cap < s.lenField + Config.overhead))
    (hmore : s.rxCnt.toNat ≠ s.total) : s.afterStore = s := by
  rw [State.afterStore, if_neg hfits, if_neg hmore]

/-- A whole frame is never looked at for its size: it has three bytes or more (R155, R158). -/
theorem State.afterStore_complete {s : State} (hall : s.rxCnt.toNat = s.lenField + Config.overhead) :
    s.afterStore = s.finishFrame := by
  have hover : Config.overhead = 3 := rfl
  have hcnt : s.rxCnt ≠ 2 := by
    intro h
    rw [h, hover] at hall
    have : (2 : Half).toNat = 2 := rfl
    omega
  have htotal : s.rxCnt.toNat = s.total := hall.trans (State.total_of_two_le (by omega)).symm
  rw [State.afterStore, if_neg (fun h => hcnt h.1), if_pos htotal]

/-- Settles O35: a safe state that collects has room, and the write leaves the other bytes alone. -/
theorem collectMicroStepStores : Obligations.CollectMicroStepStores := by
  intro s u b q hinv hb hphase hq hu
  have hrun := running_of_inv hinv hb
  obtain ⟨-, ⟨hwf, -, -, hcollect⟩, -⟩ := hinv
  obtain ⟨hlt, htotal⟩ := hcollect hphase
  have hroom : s.rxCnt.toNat < Config.cap := hlt.trans_le htotal
  obtain rfl : u = (s.popped q).append b := hu
  refine ⟨rxByte_write hwf hroom b, State.rxCnt_append (s := s.popped q) hroom b, fun hfits hmore => ?_⟩
  rw [State.microStep_byte hb hrun.op hphase hroom hq, State.afterStore_incomplete hfits hmore]

/-- The second byte of the length field: both are in the buffer, and what follows is decided there (R156, R160). -/
theorem State.microStep_secondByte {s : State} {h l : Byte} {q : List Byte} (hb : s.busy = true) (hop : s.op ≠ .none)
    (hphase : s.phase = .collect) (hcnt : s.rxCnt = 1) (hbuf : s.rxBuf = Memory.write rxUnlisted [] 0 h)
    (hq : s.rxq = l :: q) :
    Holds ((s.popped q).append l) [h, l] ∧ s.microStep = .next ((s.popped q).append l).afterStore :=
  have hfirst : Holds s [h] := Holds.store (Holds.of_clear (s := s.clearRxBuf) rfl rfl) (Nat.zero_lt_succ _) h hbuf hcnt
  Holds.collect hb hop hphase hfirst hq (by simp [Config.cap])

/-- A length field of 1798 or more ends the decode at its second byte (R160). -/
theorem State.microStep_oversized {s : State} {h l : Byte} {q : List Byte} (hb : s.busy = true) (hop : s.op ≠ .none)
    (hphase : s.phase = .collect) (hcnt : s.rxCnt = 1) (hbuf : s.rxBuf = Memory.write rxUnlisted [] 0 h)
    (hq : s.rxq = l :: q) (hbig : 1798 ≤ (be16 h l).toNat) :
    s.microStep =
      .next (State.decodeDone .frameTooLarge { s with rxq := q, rxBuf := [], rxCnt := 0, lastProg := s.now }) := by
  obtain ⟨hheld, hstep⟩ := State.microStep_secondByte hb hop hphase hcnt hbuf hq
  have htwo : ((s.popped q).append l).rxCnt = 2 := by
    rw [State.append_rxCnt, State.popped_rxCnt, hcnt]
    rfl
  rw [hstep, State.afterStore_oversized htwo ?_]
  · rfl
  · have hcap : Config.cap = 1800 := rfl
    have hover : Config.overhead = 3 := rfl
    rw [hheld.lenField]
    omega

/-- Settles O36: with both bytes of the length field in, 1797 is the largest that is collected. -/
theorem oversizedFrameEnds : Obligations.OversizedFrameEnds := by
  intro s h l q hb hphase hcnt hbuf hq
  have hends (hbig : 1798 ≤ (be16 h l).toNat) (hop : s.op ≠ .none) :=
    State.microStep_oversized hb hop hphase hcnt hbuf hq hbig
  refine ⟨fun hbig hop => ?decode, fun hbig hop => ?await, fun hfits hop => ?collected⟩
  case decode => exact State.microStep_completes (hends hbig) rfl hop
  case await => exact State.microStep_drops (hends hbig) rfl hop (.inl (by decide))
  case collected =>
    obtain ⟨hheld, hstep⟩ := State.microStep_secondByte hb hop hphase hcnt hbuf hq
    have hmiddle : [h, l].length < (be16 h l).toNat + 3 ∧ (be16 h l).toNat + 3 ≤ 1800 :=
      ⟨by simp, by omega⟩
    rw [hstep, Holds.afterStore_middle hheld (.inr ⟨h, l, [], rfl, hmiddle⟩)]
    simp [State.append, State.popped, hcnt]

/-! ### The end of a frame -/

theorem State.finishFrame_badLength {s : State} (hlen : s.lenField = 0) :
    s.finishFrame = s.clearRxBuf.decodeDone .badLength := if_pos hlen

theorem State.finishFrame_mismatch {s : State} (hlen : s.lenField ≠ 0) (hchk : s.chkEn = true)
    (hdiff : checksum s.frameType s.framePayload ≠ s.wireChecksum) :
    s.finishFrame =
      (State.clearRxBuf { s with rxChk := checksum s.frameType s.framePayload }).decodeDone .checksumMismatch := by
  simp [State.finishFrame, hlen, hchk, hdiff]

theorem State.finishFrame_ok {s : State} (hlen : s.lenField ≠ 0)
    (hgood : s.chkEn = false ∨ checksum s.frameType s.framePayload = s.wireChecksum) :
    s.finishFrame = State.decodeDone .okFrame { s with rxChk := checksum s.frameType s.framePayload } := by
  rcases hgood with hoff | heq
  · simp [State.finishFrame, hlen, hoff]
  · simp [State.finishFrame, hlen, heq]

/-- Settles O37: the last byte's micro-step runs `finish_frame()`, whose outcome goes to `decode_done`. -/
theorem frameCompletion : Obligations.FrameCompletion := by
  rintro s u v b q hb hphase hroom hq hu rfl hall
  obtain rfl : u = (s.popped q).append b := hu
  have hlast : s.op ≠ .none → s.microStep = .next ((s.popped q).append b).finishFrame := by
    intro hop
    rw [State.microStep_byte hb hop hphase hroom hq, State.afterStore_complete hall]
  refine ⟨fun hlen => ?badLength, fun hlen hchk hdiff => ?mismatch, fun hlen hgood => ?frame⟩
  case badLength =>
    rw [State.finishFrame_badLength hlen] at hlast
    exact ⟨State.microStep_completes hlast rfl, fun hop => State.microStep_drops hlast rfl hop (.inl (by decide))⟩
  case mismatch =>
    rw [State.finishFrame_mismatch hlen hchk hdiff] at hlast
    exact ⟨State.microStep_completes hlast rfl, fun hop => State.microStep_drops hlast rfl hop (.inl (by decide))⟩
  case frame =>
    rw [State.finishFrame_ok hlen hgood] at hlast
    exact ⟨State.microStep_completes hlast rfl, fun hop => State.microStep_matches hlast rfl hop rfl,
      fun hop hno => State.microStep_drops hlast rfl hop (.inr hno)⟩

/-! ### The transitions of `PHASE` -/

/-- The operation runs in a phase. -/
def RunsIn (p : Phase) (t : State) : Prop := t.busy = true ∧ t.phase = p

/-- The operation has ended. -/
def Ended (t : State) : Prop := t.busy = false ∧ t.phase = .idle

/-- Where the end of a decode leaves the sequencer (R150, R200). -/
theorem State.decodeDone_phase {s : State} (hb : s.busy = true) (hop : s.op ≠ .none) (code : Res) :
    (s.op = .decode ∧ Ended (s.decodeDone code)) ∨ (s.op = .await ∧ RunsIn .check (s.decodeDone code)) ∨
    (s.op = .await ∧ code = .okFrame ∧ Ended (s.decodeDone code) ∧ (s.decodeDone code).res = .matched) := by
  rcases s.decodeDone_cases code hop with ⟨hd, e⟩ | ⟨ha, hcode, -, e⟩ | ⟨ha, -, e⟩ <;> rw [e]
  · exact .inl ⟨hd, rfl, rfl⟩
  · exact .inr (.inr ⟨ha, hcode, ⟨rfl, rfl⟩, rfl⟩)
  · exact .inr (.inl ⟨ha, hb, rfl⟩)

/-- From HUNT (R167, R205): on in HUNT or into COLLECT, or the end of the decode without a frame. -/
theorem State.huntStep_phase {s : State} (hb : s.busy = true) (hop : s.op ≠ .none) (hphase : s.phase = .hunt) :
    RunsIn .hunt s.huntStep ∨ RunsIn .collect s.huntStep ∨ (s.op = .decode ∧ Ended s.huntStep) ∨
    (s.op = .await ∧ RunsIn .check s.huntStep) := by
  rcases s.huntStep_cases with ⟨-, e⟩ | ⟨b, q, -, -, e⟩ | ⟨q, -, e⟩ <;> rw [e]
  · rcases State.decodeDone_phase hb hop .noStartDelimiter with h | h | ⟨-, hcode, -⟩
    · exact .inr (.inr (.inl h))
    · exact .inr (.inr (.inr h))
    · cases hcode
  · exact .inl ⟨hb, hphase⟩
  · exact .inr (.inl ⟨hb, rfl⟩)

/-- Where COLLECT of an operation may lead (R167, R205). -/
def AfterCollect (op : Op) (t : State) : Prop :=
  RunsIn .collect t ∨ (op = .decode ∧ Ended t) ∨ (op = .await ∧ RunsIn .check t) ∨
    (op = .await ∧ Ended t ∧ t.res = .matched)

theorem State.decodeDone_afterCollect (s : State) (hb : s.busy = true) (hop : s.op ≠ .none) (code : Res) :
    AfterCollect s.op (s.decodeDone code) := by
  rcases State.decodeDone_phase hb hop code with h | h | ⟨ha, -, h⟩
  · exact .inr (.inl h)
  · exact .inr (.inr (.inl h))
  · exact .inr (.inr (.inr ⟨ha, h⟩))

theorem State.finishFrame_afterCollect (s : State) (hb : s.busy = true) (hop : s.op ≠ .none) :
    AfterCollect s.op s.finishFrame := by
  rcases s.finishFrame_cases with ⟨-, e⟩ | ⟨-, -, -, e⟩ | ⟨-, -, e⟩ <;> rw [e]
  · exact s.clearRxBuf.decodeDone_afterCollect hb hop _
  · exact (State.clearRxBuf { s with rxChk := checksum s.frameType s.framePayload }).decodeDone_afterCollect hb hop _
  · exact State.decodeDone_afterCollect { s with rxChk := checksum s.frameType s.framePayload } hb hop _

theorem State.collectStep_phase {s t : State} (hb : s.busy = true) (hop : s.op ≠ .none) (hphase : s.phase = .collect)
    (h : s.collectStep = .next t) : AfterCollect s.op t := by
  rcases State.collectStep_next h with ⟨b, q, -, -, rfl⟩ | ⟨-, -, -, rfl⟩ | ⟨-, -, -, rfl⟩
  · rcases ((s.popped q).append b).afterStore_cases with ⟨-, -, e⟩ | ⟨-, -, e⟩ | ⟨-, -, e⟩ <;> rw [e]
    · exact ((s.popped q).append b).clearRxBuf.decodeDone_afterCollect hb hop _
    · exact ((s.popped q).append b).finishFrame_afterCollect hb hop
    · exact .inl ⟨hb, hphase⟩
  · exact s.clearRxBuf.decodeDone_afterCollect hb hop _
  · exact .inl ⟨hb, hphase⟩

/-- From CHECK (R205): into HUNT, or the end of the wait at its deadline. -/
theorem State.checkStep_phase {s t : State} (hb : s.busy = true) (h : s.checkStep = .next t) :
    RunsIn .hunt t ∨ (Ended t ∧ t.res = .timedOut) := by
  rcases (State.checkStep_next h).2 with ⟨-, rfl⟩ | ⟨-, rfl⟩
  · exact .inr ⟨⟨rfl, rfl⟩, rfl⟩
  · exact .inl ⟨hb, rfl⟩

/-- Settles O44: one table for each phase a micro-step starts from. -/
theorem phaseTransitions : Obligations.PhaseTransitions := by
  intro s t hb h
  rcases State.microStep_next h with
    ⟨hidle, -⟩ | ⟨-, hop, hphase, rfl⟩ | ⟨-, hop, hphase, hstep⟩ | ⟨-, hop, hphase, hstep⟩
  · simp [hidle] at hb
  · rcases State.huntStep_phase hb hop hphase with ⟨ht, hp⟩ | ⟨ht, hp⟩ | ⟨hd, ht, hp⟩ | ⟨ha, ht, hp⟩
    · simp [hphase, ht, hp]
    · simp [hphase, ht, hp]
    · simp [hphase, hd, ht, hp]
    · simp [hphase, ha, ht, hp]
  · rcases State.collectStep_phase hb hop hphase hstep with
      ⟨ht, hp⟩ | ⟨hd, ht, hp⟩ | ⟨ha, ht, hp⟩ | ⟨ha, ⟨ht, hp⟩, hres⟩
    · simp [hphase, ht, hp]
    · simp [hphase, hd, ht, hp]
    · simp [hphase, ha, ht, hp]
    · simp [hphase, ha, ht, hp, hres]
  · rcases State.checkStep_phase hb hstep with ⟨ht, hp⟩ | ⟨⟨ht, hp⟩, hres⟩
    · simp [hphase, ht, hp]
    · simp [hphase, hop, ht, hp, hres]

/-! ### A whole frame inside a DECODE -/

/-- A row of `k` micro-steps leads from one state to another, and so does the reading of `RXQ` that has as many to
take. -/
def Reads (k : Nat) (s t : State) : Prop :=
  s.microSteps k = .next t ∧ ∀ n, State.drain (n + k) s = State.drain n t

theorem Reads.refl (t : State) : Reads 0 t t := ⟨rfl, fun _ => rfl⟩

/-- A micro-step with a byte to read, and a row behind it. -/
theorem Reads.step {s u t : State} {k : Nat} (hb : s.busy = true) (hq : s.rxq ≠ []) (hstep : s.microStep = .next u)
    (h : Reads k u t) : Reads (k + 1) s t := by
  obtain ⟨hsteps, hdrain⟩ := h
  refine ⟨?_, fun n => ?_⟩
  · rw [State.microSteps, hstep]
    exact hsteps
  · rw [← Nat.add_assoc, State.drain_step hb hq hstep, hdrain]

/-- When a row of at most `LEN + 4` micro-steps ends the operation, a frame that arrives does. -/
theorem exec_of_reads {s t : State} {i : Instr} {len : Half} {type : Byte} {body : List Byte} {k : Nat}
    (hparts : i.frameParts = some (len, type, body)) (hw : i.wellFormed = true) (hk : k ≤ len.toNat + 4)
    (hreads : Reads k (s.arrive (wireBytes len type body)) t) (hend : t.busy = false) : exec i s = .next t := by
  obtain ⟨-, hdrain⟩ := hreads
  have hlength := wireBytes_length len type body (body_length_of_wellFormed hparts hw)
  obtain ⟨n, hn⟩ : ∃ n, drainFuel (s.rxq.length + (wireBytes len type body).length) = n + k :=
    Nat.exists_eq_add_of_le' (by rw [hlength, drainFuel]; omega)
  rw [exec_frame hparts, State.receive, hn, hdrain, State.drain_stop (.inl hend)]

theorem Holds.rxByte_behind {s : State} {bs : List Byte} (h : Holds s bs) {k : Nat} (hk : bs.length ≤ k) :
    s.rxByte k = 0x00 := by
  obtain ⟨-, -, -, -, hread⟩ := h
  rw [hread, List.getElem?_eq_none hk, Option.getD_none]

theorem Holds.rxCnt_eq {s : State} {bs : List Byte} (h : Holds s bs) : s.rxCnt.toNat = bs.length := by
  obtain ⟨-, -, hcnt, -⟩ := h
  exact hcnt

theorem State.arrive_rxq_of_empty {s : State} (hq : s.rxq = []) (bytes : List Byte) :
    (s.arrive bytes).rxq = bytes ++ [] := by
  simp [hq]

/-- Settles O48: the frame is read to its last byte, and `finish_frame()` finds nothing wrong with it. -/
theorem goodFrameIsDelivered : Obligations.GoodFrameIsDelivered := by
  intro s i len type c payload hb hop hphase hq hparts hw hmax hgood
  have hlength : payload.length + 1 = len.toNat := by simpa using body_length_of_wellFormed hparts hw
  have hbytes := State.arrive_rxq_of_empty hq (wireBytes len type (payload ++ [c]))
  have hrun : s.op ≠ .none := by simp [hop]
  obtain ⟨u, hheld, htype, hpayload, hcheck, hlen, hu, hreads⟩ :=
    State.frame_run_payload (s := s.arrive _) hb hrun hphase hbytes hlength hmax
  replace hu : ∃ buf cnt, u = { s with rxq := [], rxBuf := buf, rxCnt := cnt, lastProg := s.now, phase := .collect } :=
    ⟨_, _, hu⟩
  obtain ⟨buf, cnt, rfl⟩ := hu
  have hfinish := State.finishFrame_ok (hlen.trans_ne (by omega))
    (hgood.imp_right fun h => by rw [htype, hpayload, hcheck, h])
  rw [htype, hpayload, State.decodeDone_of_decode (by exact hop)] at hfinish
  rw [hfinish] at hreads
  have hheldLength : (BitVec.ofNat 8 (len.toNat / 256) :: BitVec.ofNat 8 (len.toNat % 256) :: type ::
      (payload ++ [c])).length = len.toNat + 3 := by simp; omega
  refine ⟨_, exec_of_reads hparts hw le_rfl hreads rfl, rfl, rfl, rfl, rfl, rfl, hlen, htype, hpayload, hcheck,
    hheld.rxCnt_eq.trans hheldLength, fun k hk => hheld.rxByte_behind (hheldLength.trans_le hk), rfl, rfl, rfl, ?_⟩
  rw [← hq]
  rfl

/-- The first byte of the length field (R156). -/
theorem State.microStep_firstByte {s : State} {h : Byte} {q : List Byte} (hb : s.busy = true) (hop : s.op ≠ .none)
    (hphase : s.phase = .collect) (hcnt : s.rxCnt = 0) (hbuf : s.rxBuf = []) (hq : s.rxq = h :: q) :
    s.microStep =
      .next { s with rxq := q, rxBuf := Memory.write rxUnlisted [] 0 h, rxCnt := 1, lastProg := s.now } := by
  obtain ⟨hheld, hstep⟩ := Holds.collect hb hop hphase (Holds.of_clear hbuf hcnt) hq (Nat.zero_lt_succ _)
  rw [hstep, Holds.afterStore_middle hheld (.inl (by simp))]
  simp [State.append, State.popped, hcnt, hbuf]

/-- A frame with a length field of 1798 or more, from HUNT: three micro-steps read its marker and its length field, and
the bytes from its type on stay in `RXQ` (R160). -/
theorem State.oversized_run {s : State} {len : Half} {type : Byte} {body rest : List Byte} (hb : s.busy = true)
    (hop : s.op ≠ .none) (hphase : s.phase = .hunt) (hq : s.rxq = wireBytes len type body ++ rest)
    (hbig : 1798 ≤ len.toNat) :
    Reads 3 s (State.decodeDone .frameTooLarge
      { s with rxq := type :: body ++ rest, rxBuf := [], rxCnt := 0, lastProg := s.now, phase := .collect }) := by
  rw [wireBytes_eq] at hq
  have hlen : be16 (BitVec.ofNat 8 (len.toNat / 256)) (BitVec.ofNat 8 (len.toNat % 256)) = len := be16_bytes len
  generalize BitVec.ofNat 8 (len.toNat / 256) = h, BitVec.ofNat 8 (len.toNat % 256) = l at hq hlen
  have hmarker : s.microStep = .next
      { s with rxq := h :: l :: type :: body ++ rest, rxBuf := [], rxCnt := 0, lastProg := s.now, phase := .collect } :=
    (State.microStep_hunt hb hop hphase).trans (congrArg _ (State.huntStep_marker hq))
  have hfirst := State.microStep_firstByte
    (s := { s with rxq := h :: l :: type :: body ++ rest, rxBuf := [], rxCnt := 0, lastProg := s.now,
                   phase := .collect })
    hb hop rfl rfl rfl rfl
  have hsecond := State.microStep_oversized
    (s := { s with rxq := l :: type :: body ++ rest, rxBuf := Memory.write rxUnlisted [] 0 h, rxCnt := 1,
                   lastProg := s.now, phase := .collect })
    hb hop rfl rfl rfl rfl (hlen ▸ hbig)
  exact .step hb (by simp [hq]) hmarker <| .step hb (List.cons_ne_nil _ _) hfirst <|
    .step hb (List.cons_ne_nil _ _) hsecond <| .refl _

/-- Settles O49: `finish_frame()` finds the length field 0 or the checksum wrong, or the length field ends the decode
before. -/
theorem badFrameIsReported : Obligations.BadFrameIsReported := by
  intro s i len type body hb hop hphase hq hparts hw
  have hlength := body_length_of_wellFormed hparts hw
  have hbytes := State.arrive_rxq_of_empty hq (wireBytes len type body)
  have hrun : s.op ≠ .none := by simp [hop]
  refine ⟨fun hzero => ?badLength, fun payload c hbody hmax hchk hdiff => ?mismatch, fun hbig => ?tooLarge⟩
  case badLength =>
    obtain ⟨u, h, l, hbe, hheld, hu, hreads⟩ := State.frame_run (s := s.arrive _) hb hrun hphase hbytes hlength
      (by simp [hzero])
    rw [State.finishFrame_badLength (by rw [hheld.lenField, hbe, hzero]; rfl),
      State.decodeDone_of_decode (by rw [hu]; exact hop), hu] at hreads
    exact (exec_of_reads hparts hw le_rfl hreads rfl).trans (by rw [← hq]; rfl)
  case mismatch =>
    subst hbody
    obtain ⟨u, -, htype, hpayload, hcheck, hlen, hu, hreads⟩ :=
      State.frame_run_payload (s := s.arrive _) hb hrun hphase hbytes (by simpa using hlength) hmax
    have hne : checksum u.frameType u.framePayload ≠ u.wireChecksum := by
      rw [htype, hpayload, hcheck]
      exact hdiff.symm
    rw [State.finishFrame_mismatch (by rw [hlen, ← hlength]; simp) (by rw [hu]; exact hchk) hne, htype, hpayload,
      State.decodeDone_of_decode (by rw [hu]; exact hop), hu] at hreads
    exact (exec_of_reads hparts hw le_rfl hreads rfl).trans (by rw [← hq]; rfl)
  case tooLarge =>
    have hreads := State.oversized_run (s := s.arrive _) hb hrun hphase hbytes hbig
    rw [State.decodeDone_of_decode (by exact hop)] at hreads
    exact (exec_of_reads hparts hw (by omega) hreads rfl).trans (by rw [List.append_nil]; rfl)

/-! ### `decode_quiet`, case by case -/

theorem decodeQuiet_nil (chkEn : Bool) : decodeQuiet chkEn [] = ⟨.noStartDelimiter, [], none⟩ := rfl

theorem decodeQuiet_discard (chkEn : Bool) {b : Byte} (hb : b ≠ Config.start) (q : List Byte) :
    decodeQuiet chkEn (b :: q) = decodeQuiet chkEn q := by
  simp [decodeQuiet, afterMarker, hb]

theorem decodeQuiet_marker (chkEn : Bool) (q : List Byte) :
    decodeQuiet chkEn (Config.start :: q) = decodeBehind chkEn q := rfl

theorem decodeBehind_oversized (chkEn : Bool) {h l : Byte} (q : List Byte)
    (hbig : Config.cap < (be16 h l).toNat + Config.overhead) :
    decodeBehind chkEn (h :: l :: q) = ⟨.frameTooLarge, q, none⟩ := if_pos hbig

theorem decodeBehind_badLength (chkEn : Bool) {h l : Byte} (c : Byte) (q : List Byte) (hzero : (be16 h l).toNat = 0) :
    decodeBehind chkEn (h :: l :: c :: q) = ⟨.badLength, q, none⟩ := by
  simp [decodeBehind, hzero, Config.overhead, Config.cap]

theorem decodeBehind_frame (chkEn : Bool) {h l : Byte} (type c : Byte) {payload : List Byte} (q : List Byte)
    (hlen : (be16 h l).toNat = payload.length + 1) (hcap : (be16 h l).toNat + Config.overhead ≤ Config.cap) :
    decodeBehind chkEn (h :: l :: (type :: payload ++ [c]) ++ q) =
      if chkEn && decide (c ≠ checksum type payload) then ⟨.checksumMismatch, q, none⟩
      else ⟨.okFrame, q, some ⟨type, payload⟩⟩ := by
  rw [← decodeQuiet_wireBytes chkEn type c q hlen hcap, wireBytes, u16be_be16]
  rfl

/-- A stream that ends inside a frame gives `FRAME_TIMEOUT` (R159, R168). -/
theorem Holds.decodeBehind_incomplete {s : State} {held : List Byte} (hheld : Holds s held)
    (hlt : s.rxCnt.toNat < s.total) (hfits : s.total ≤ Config.cap) (chkEn : Bool) :
    decodeBehind chkEn held = ⟨.frameTimeout, [], none⟩ := by
  match held, hheld with
  | [], _ => rfl
  | [_], _ => rfl
  | h :: l :: r, hheld =>
    rw [hheld.total] at hlt hfits
    rw [hheld.rxCnt_eq, List.length_cons, List.length_cons] at hlt
    have hdrop : r.drop (be16 h l).toNat = [] := List.drop_eq_nil_of_le (by omega)
    simp only [decodeBehind, Config.overhead, hfits.not_gt, if_false, hdrop]

/-! ### A DECODE on a quiet stream -/

/-- The operation has ended with a result of `decode_quiet`; the length field of a valid frame counts its type byte. -/
structure Delivered (r : QuietResult) (s : State) : Prop where
  busy : s.busy = false
  res : s.res = r.res
  left : s.rxq = r.left
  view : s.view = r.frame
  lenField : s.fvalid = true → 1 ≤ s.lenField

/-- A DECODE to which nothing more arrives and whose result will be `r`: the bytes it has buffered and those still in
`RXQ` give `r`, or it has ended with it. -/
inductive Quiet (r : QuietResult) (s : State) : Prop
  | hunting (hb : s.busy = true) (hop : s.op = .decode) (hphase : s.phase = .hunt)
      (hr : decodeQuiet s.chkEn s.rxq = r)
  | collecting {held : List Byte} (hb : s.busy = true) (hop : s.op = .decode) (hphase : s.phase = .collect)
      (hclock : s.lastProg ≤ s.now) (hlt : s.rxCnt.toNat < s.total) (hfits : s.total ≤ Config.cap)
      (hheld : Holds s held) (hr : decodeBehind s.chkEn (held ++ s.rxq) = r)
  | ended (h : Delivered r s)

theorem Delivered.of_failure {s : State} {code : Res} (hop : s.op = .decode) (hcode : code ≠ .okFrame) :
    Delivered ⟨code, s.rxq, none⟩ (s.decodeDone code) := by
  rw [State.decodeDone_of_decode hop, decide_eq_false hcode]
  exact ⟨rfl, rfl, rfl, rfl, fun h => by cases h⟩

theorem Delivered.of_frame {s : State} (hop : s.op = .decode) (hlen : s.lenField ≠ 0) :
    Delivered ⟨.okFrame, s.rxq, some ⟨s.frameType, s.framePayload⟩⟩ (s.decodeDone .okFrame) := by
  rw [State.decodeDone_of_decode hop]
  exact ⟨rfl, rfl, rfl, rfl, fun _ => Nat.one_le_iff_ne_zero.mpr hlen⟩

theorem Quiet.of_issue (s : State) : Quiet (decodeQuiet s.chkEn s.rxq) (s.issue .decode .hunt) :=
  .hunting rfl rfl rfl rfl

theorem Quiet.delivered {r : QuietResult} {s : State} (h : Quiet r s) (hend : s.busy = false) : Delivered r s := by
  cases h with
  | hunting hb => simp [hb] at hend
  | collecting hb => simp [hb] at hend
  | ended h => exact h

/-- HUNT looks at the stream as `decode_quiet` does (R152). -/
theorem Quiet.huntStep {r : QuietResult} {s : State} (hb : s.busy = true) (hop : s.op = .decode)
    (hphase : s.phase = .hunt) (hr : decodeQuiet s.chkEn s.rxq = r) : Quiet r s.huntStep := by
  subst hr
  rcases s.huntStep_cases with ⟨hq, e⟩ | ⟨b, q, hq, hne, e⟩ | ⟨q, hq, e⟩ <;> rw [e]
  · have h := Delivered.of_failure (code := .noStartDelimiter) hop (by decide)
    rw [hq] at h ⊢
    exact .ended h
  · exact .hunting hb hop hphase (by rw [hq, decodeQuiet_discard _ hne]; rfl)
  · refine .collecting (held := []) hb hop rfl le_rfl ?_ ?_ (.of_clear rfl rfl) (by rw [hq, decodeQuiet_marker]; rfl)
    · exact Nat.zero_lt_succ _
    · simp [State.total, Config.overhead, Config.cap]

/-- A complete frame that fits is answered as `decode_quiet` answers it (R161 to R164). -/
theorem Delivered.finishFrame {s : State} {held : List Byte} (hop : s.op = .decode) (hheld : Holds s held)
    (hall : s.rxCnt.toNat = s.lenField + Config.overhead) (hfits : s.lenField + Config.overhead ≤ Config.cap) :
    Delivered (decodeBehind s.chkEn (held ++ s.rxq)) s.finishFrame := by
  have hlength : held.length = s.lenField + 3 := hheld.rxCnt_eq.symm.trans hall
  match held, hheld, hlength with
  | h :: l :: body, hheld, hlength =>
    have hlen := hheld.lenField
    rw [hlen] at hfits
    have hbody : body.length = s.lenField + 1 := by simpa using hlength
    rcases Nat.eq_zero_or_pos s.lenField with hzero | hpos
    · obtain ⟨c, rfl⟩ := List.length_eq_one_iff.mp (hbody.trans (by rw [hzero]))
      have hread := decodeBehind_badLength s.chkEn c s.rxq (hlen.symm.trans hzero)
      rw [State.finishFrame_badLength hzero]
      exact hread ▸ Delivered.of_failure (s := s.clearRxBuf) hop (by decide)
    · obtain ⟨n, hn⟩ := Nat.exists_eq_add_of_lt hpos
      obtain ⟨type, payload, c, rfl, rfl⟩ := exists_type_payload_checksum (bytes := body) (n := n) (by omega)
      have hcount : (be16 h l).toNat = payload.length + 1 := by omega
      obtain ⟨htype, hpayload, hcheck⟩ := hheld.frame hcount
      have hread := decodeBehind_frame s.chkEn type c s.rxq hcount hfits
      rcases s.finishFrame_cases with ⟨hzero, -⟩ | ⟨-, hchk, hdiff, e⟩ | ⟨hne, hgood, e⟩
      · omega
      · rw [htype, hpayload, hcheck] at hdiff
        rw [if_pos (by simpa [hchk] using hdiff.symm)] at hread
        rw [e, hread]
        exact Delivered.of_failure (s := State.clearRxBuf { s with rxChk := checksum s.frameType s.framePayload }) hop
          (by decide)
      · rw [htype, hpayload, hcheck] at hgood
        rw [if_neg (by rcases hgood with h | h <;> simp [h])] at hread
        rw [e, hread, ← htype, ← hpayload]
        exact Delivered.of_frame (s := { s with rxChk := checksum s.frameType s.framePayload }) hop hne

theorem State.total_of_complete {s : State} (hall : s.rxCnt.toNat = s.total) :
    s.total = s.lenField + Config.overhead := by
  rcases Nat.lt_or_ge s.rxCnt.toNat 2 with hshort | htwo
  · rw [State.total_of_lt_two hshort, Config.overhead] at hall
    omega
  · exact State.total_of_two_le htwo

/-- A frame that passes the oversize test fits, whichever byte was stored last (R160). -/
theorem State.total_le_of_not_oversized {s : State}
    (hsmall : ¬ (s.rxCnt = 2 ∧ s.lenField + Config.overhead > Config.cap))
    (hlater : s.rxCnt.toNat ≠ 2 → s.total ≤ Config.cap) : s.total ≤ Config.cap := by
  by_cases htwo : s.rxCnt.toNat = 2
  · have hcnt : s.rxCnt = 2 := BitVec.eq_of_toNat_eq htwo
    rw [State.total_of_two_le htwo.ge]
    exact Nat.le_of_not_lt fun hbig => hsmall ⟨hcnt, hbig⟩
  · exact hlater htwo

/-- What follows an append keeps to the result (R156, R158, R160). -/
theorem Quiet.afterStore {s : State} {held q : List Byte} {b : Byte} (hb : s.busy = true) (hop : s.op = .decode)
    (hphase : s.phase = .collect) (hlt : s.rxCnt.toNat < s.total) (hfits : s.total ≤ Config.cap)
    (hheld : Holds s held) :
    Quiet (decodeBehind s.chkEn (held ++ b :: q)) ((s.popped q).append b).afterStore := by
  have hroom : held.length < Config.cap := by rw [← hheld.rxCnt_eq]; omega
  have hheld' : Holds ((s.popped q).append b) (held ++ [b]) := Holds.store hheld hroom b rfl rfl
  obtain ⟨hwf, -⟩ := hheld
  obtain ⟨hle, hfits'⟩ := State.rxCnt_append_le_total (s := s.popped q) hwf hlt hfits b
  rw [List.append_cons]
  rcases ((s.popped q).append b).afterStore_cases with ⟨htwo, hbig, e⟩ | ⟨hsmall, hall, e⟩ | ⟨hsmall, hmore, e⟩ <;>
    rw [e]
  case inl =>
    have hlength : (held ++ [b]).length = 2 := hheld'.rxCnt_eq.symm.trans (congrArg BitVec.toNat htwo)
    obtain ⟨h, l, hpair⟩ := List.length_eq_two.mp hlength
    rw [hpair] at hheld' ⊢
    rw [hheld'.lenField] at hbig
    have hread := decodeBehind_oversized s.chkEn q hbig
    exact .ended (hread ▸ Delivered.of_failure (s := ((s.popped q).append b).clearRxBuf) hop (by decide))
  case inr.inl =>
    have htotal := State.total_of_complete hall
    have hroom' := State.total_le_of_not_oversized hsmall hfits'
    exact .ended (Delivered.finishFrame (s := (s.popped q).append b) hop hheld' (hall.trans htotal) (htotal ▸ hroom'))
  case inr.inr =>
    exact .collecting hb hop hphase le_rfl (lt_of_le_of_ne hle hmore)
      (State.total_le_of_not_oversized hsmall hfits') hheld' rfl

/-- Every micro-step keeps to the result (R168). -/
theorem Quiet.microStep {r : QuietResult} {s t : State} (h : Quiet r s) (hstep : s.microStep = .next t) :
    Quiet r t := by
  cases h with
  | hunting hb hop hphase hr =>
    rw [State.microStep_hunt hb (by simp [hop]) hphase, Host.Outcome.next.injEq] at hstep
    exact hstep ▸ Quiet.huntStep hb hop hphase hr
  | @collecting held hb hop hphase hclock hlt hfits hheld hr =>
    rw [State.microStep_collect hb (by simp [hop]) hphase] at hstep
    rcases State.collectStep_next hstep with ⟨b, q, hq, -, rfl⟩ | ⟨hq, -, -, rfl⟩ | ⟨-, -, -, rfl⟩
    · rw [hq] at hr
      exact hr ▸ Quiet.afterStore hb hop hphase hlt hfits hheld
    · rw [hq, List.append_nil, hheld.decodeBehind_incomplete hlt hfits] at hr
      have hend := Delivered.of_failure (s := s.clearRxBuf) (code := .frameTimeout) hop (by decide)
      rw [State.clearRxBuf_rxq, hq] at hend
      exact hr ▸ .ended hend
    · exact .collecting hb hop hphase hclock hlt hfits hheld hr
  | ended h =>
    rw [State.microStep_idle h.busy, Host.Outcome.next.injEq] at hstep
    exact hstep ▸ .ended h

/-- The time that passes does not enter the result. -/
theorem Quiet.advance {r : QuietResult} {s : State} (h : Quiet r s) (d : Nat) : Quiet r (s.advance d) := by
  cases h with
  | hunting hb hop hphase hr => exact .hunting hb hop hphase hr
  | collecting hb hop hphase hclock hlt hfits hheld hr =>
    exact .collecting hb hop hphase (hclock.trans (Nat.le_add_right _ _)) hlt hfits hheld hr
  | ended h => exact .ended ⟨h.busy, h.res, h.left, h.view, h.lenField⟩

/-- The turns of a schedule without arrivals: micro-steps and clock advances (R168). -/
def Turn.isQuiet (x : Turn) : Prop := x = .sequencer ∨ ∃ d, x = .tick d

theorem Quiet.takeTurn {r : QuietResult} {s t : State} {x : Turn} (h : Quiet r s) (hx : x.isQuiet)
    (hturn : s.takeTurn x = .next t) : Quiet r t := by
  rcases hx with rfl | ⟨d, rfl⟩
  · exact h.microStep hturn
  · cases hturn
    exact h.advance d

theorem State.takeTurns_cons {s u : State} {x : Turn} (h : s.takeTurn x = .next u) (ts : List Turn) :
    s.takeTurns (x :: ts) = u.takeTurns ts := by
  simp only [State.takeTurns, h]

theorem State.takeTurns_cons_next {s t : State} {x : Turn} {ts : List Turn} (h : s.takeTurns (x :: ts) = .next t) :
    ∃ u, s.takeTurn x = .next u ∧ u.takeTurns ts = .next t := by
  rw [State.takeTurns] at h
  split at h
  · next u hu => exact ⟨u, hu, h⟩
  · cases h
  · cases h

theorem Quiet.takeTurns {r : QuietResult} {ts : List Turn} {s t : State} (h : Quiet r s) (hts : ∀ x ∈ ts, x.isQuiet)
    (hturns : s.takeTurns ts = .next t) : Quiet r t := by
  induction ts generalizing s with
  | nil => cases hturns; exact h
  | cons x ts ih =>
    obtain ⟨u, hu, hrest⟩ := State.takeTurns_cons_next hturns
    obtain ⟨hx, hts⟩ := List.forall_mem_cons.mp hts
    exact ih (h.takeTurn hx hu) hts hrest

/-! ### Some quiet schedule ends it -/

/-- Some schedule of micro-steps and clock advances ends the operation. -/
def CanEnd (s : State) : Prop :=
  ∃ (ts : List Turn) (t : State), (∀ x ∈ ts, x.isQuiet) ∧ s.takeTurns ts = .next t ∧ t.busy = false

theorem CanEnd.of_idle {s : State} (h : s.busy = false) : CanEnd s := ⟨[], s, by simp, rfl, h⟩

theorem CanEnd.of_takeTurn {s u : State} {x : Turn} (hx : x.isQuiet) (hturn : s.takeTurn x = .next u)
    (h : CanEnd u) : CanEnd s := by
  obtain ⟨ts, t, hts, hrest, hend⟩ := h
  exact ⟨x :: ts, t, List.forall_mem_cons.mpr ⟨hx, hts⟩, (State.takeTurns_cons hturn ts).trans hrest, hend⟩

/-- Every byte of the stream is read by a micro-step (R152, R156). -/
theorem Quiet.microStep_reads {r : QuietResult} {s : State} (h : Quiet r s) (hb : s.busy = true) (hq : s.rxq ≠ []) :
    ∃ t, s.microStep = .next t ∧ s.rxq.length = t.rxq.length + 1 := by
  have hanswers : s.phase ≠ .check ∧ ∃ t, s.microStep = .next t := by
    cases h with
    | hunting _ hop hphase => exact ⟨by simp [hphase], _, State.microStep_hunt hb (by simp [hop]) hphase⟩
    | collecting _ hop hphase _ hlt hfits =>
      obtain ⟨b, q, hcons⟩ := List.exists_cons_of_ne_nil hq
      exact ⟨by simp [hphase], _, State.microStep_byte hb (by simp [hop]) hphase (hlt.trans_le hfits) hcons⟩
    | ended h => simp [h.busy] at hb
  obtain ⟨hphase, t, ht⟩ := hanswers
  rcases State.microStep_reads hb hq ht with ⟨b, hcons⟩ | ⟨hcheck, -⟩
  · exact ⟨t, ht, by rw [hcons, List.length_cons]⟩
  · exact absurd hcheck hphase

theorem State.decodeDone_busy_of_decode {s : State} (hop : s.op = .decode) (code : Res) :
    (s.decodeDone code).busy = false := by
  rw [State.decodeDone_of_decode hop]
  rfl

theorem State.finishFrame_busy_of_decode {s : State} (hop : s.op = .decode) : s.finishFrame.busy = false := by
  rcases s.finishFrame_cases with ⟨-, e⟩ | ⟨-, -, -, e⟩ | ⟨-, -, e⟩ <;> rw [e] <;>
    exact State.decodeDone_busy_of_decode (by exact hop) _

/-- On an empty stream HUNT ends at once, and COLLECT once `ARG_INACT` has passed (R153, R159). -/
theorem Quiet.canEnd_of_empty {r : QuietResult} {s : State} (h : Quiet r s) (hq : s.rxq = []) : CanEnd s := by
  cases h with
  | hunting hb hop hphase =>
    have hstep : s.microStep = .next (s.decodeDone .noStartDelimiter) := by
      rw [State.microStep_hunt hb (by simp [hop]) hphase, State.huntStep_empty hq]
    exact .of_takeTurn (.inl rfl) hstep (.of_idle (State.decodeDone_busy_of_decode hop _))
  | collecting hb hop hphase hclock =>
    have hlate : s.args.inact < (s.advance (s.args.inact + 1)).now - s.lastProg := by
      rw [State.advance_now]
      omega
    have hclock' : s.lastProg ≤ (s.advance (s.args.inact + 1)).now := hclock.trans (Nat.le_add_right _ _)
    have hstep : (s.advance (s.args.inact + 1)).microStep = .next _ :=
      (State.microStep_collect (s := s.advance _) hb (by simp [hop]) hphase).trans
        (State.collectStep_empty (s := s.advance _) hq hclock')
    refine .of_takeTurn (.inr ⟨s.args.inact + 1, rfl⟩) rfl (.of_takeTurn (.inl rfl) hstep (.of_idle ?_))
    rw [State.advance_args, State.advance_lastProg, if_pos hlate]
    exact State.decodeDone_busy_of_decode (s := (s.advance (s.args.inact + 1)).clearRxBuf) hop _
  | ended h => exact .of_idle h.busy

/-- The stream is read byte by byte, and then the operation ends. -/
theorem Quiet.canEnd {r : QuietResult} {s : State} (h : Quiet r s) : CanEnd s := by
  induction hn : s.rxq.length generalizing s with
  | zero => exact h.canEnd_of_empty (List.eq_nil_of_length_eq_zero hn)
  | succ n ih =>
    cases hb : s.busy with
    | false => exact .of_idle hb
    | true =>
      obtain ⟨t, ht, hlength⟩ := h.microStep_reads hb (List.ne_nil_of_length_eq_add_one hn)
      exact .of_takeTurn (.inl rfl) ht (ih (h.microStep ht) (by omega))

/-- The state DECODE answers with is its issue. -/
theorem eq_issue_of_exec_cmdDecode {s t : State} (hidle : s.busy = false) (h : exec .cmdDecode s = .next t) :
    t = s.issue .decode .hunt := by
  rw [exec_cmdDecode_of_idle hidle, Host.Outcome.next.injEq] at h
  exact h.symm

/-- Settles O51: `Quiet` holds at the issue and at every quiet turn, and some quiet turns end the operation. -/
theorem quietDecode : Obligations.QuietDecode := by
  intro s s1 hidle hissue
  obtain rfl := eq_issue_of_exec_cmdDecode hidle hissue
  refine ⟨fun ts t hts hturns hend => ?_, (Quiet.of_issue s).canEnd⟩
  have h := ((Quiet.of_issue s).takeTurns hts hturns).delivered hend
  exact ⟨h.res, h.left, h.view⟩

/-! ### The round trip through the deframer -/

/-- An encoded frame is that of its operands, and these were within `MAXPAY` (R133, U3). -/
theorem eq_frameBytes_of_encodeFrame {type : Byte} {payload bytes : List Byte}
    (h : encodeFrame type payload = some bytes) :
    payload.length ≤ Config.maxPay ∧ bytes = frameBytes type payload := by
  rcases Nat.lt_or_ge Config.maxPay payload.length with hlong | hmax
  · rw [encodeFrame_of_lt type hlong] at h
    cases h
  · rw [encodeFrame_of_le type hmax, Option.some.injEq] at h
    exact ⟨hmax, h.symm⟩

/-- `decode_quiet` of an encoded frame that fits delivers it, whether or not the checksum is looked at (R174). -/
theorem decodeQuiet_frameBytes (chkEn : Bool) (type : Byte) {payload : List Byte}
    (hfits : payload.length ≤ Config.maxRxPay) :
    decodeQuiet chkEn (frameBytes type payload) = ⟨.okFrame, [], some ⟨type, payload⟩⟩ := by
  have hlen := toNat_frameLength (hfits.trans (by decide))
  have hcap : (BitVec.ofNat 16 (payload.length + 1)).toNat + Config.overhead ≤ Config.cap := by
    rw [hlen]
    exact Nat.add_le_add_right hfits 4
  have hread := decodeQuiet_wireBytes chkEn type (checksum type payload) [] hlen hcap
  rw [List.append_nil] at hread
  rw [frameBytes, hread, if_neg (by simp)]

/-- `decode_quiet` of an encoded frame that does not fit leaves it from its type on (R160, R174). -/
theorem decodeQuiet_frameBytes_oversized (chkEn : Bool) (type : Byte) {payload : List Byte}
    (hmax : payload.length ≤ Config.maxPay) (hbig : Config.maxRxPay < payload.length) :
    decodeQuiet chkEn (frameBytes type payload) =
      ⟨.frameTooLarge, type :: (payload ++ [checksum type payload]), none⟩ := by
  rw [frameBytes, wireBytes_eq, decodeQuiet_marker]
  refine decodeBehind_oversized chkEn _ ?_
  rw [be16_bytes, toNat_frameLength hmax]
  exact Nat.add_lt_add_right hbig 4

/-- A frame that stands in `RXQ` at the issue of DECODE ends the operation by micro-steps alone. -/
theorem microSteps_end_of_frame {s : State} {len : Half} {type : Byte} {body : List Byte} (hb : s.busy = true)
    (hop : s.op = .decode) (hphase : s.phase = .hunt) (hq : s.rxq = wireBytes len type body)
    (hbody : body.length = len.toNat) : ∃ n t, s.microSteps n = .next t ∧ t.busy = false := by
  have hrun : s.op ≠ .none := by simp [hop]
  have hq' : s.rxq = wireBytes len type body ++ [] := hq.trans (List.append_nil _).symm
  rcases Nat.lt_or_ge 1797 len.toNat with hbig | hfits
  · obtain ⟨hsteps, -⟩ := State.oversized_run hb hrun hphase hq' hbig
    exact ⟨_, _, hsteps, State.decodeDone_busy_of_decode (by exact hop) _⟩
  · obtain ⟨u, h, l, -, -, hu, hsteps, -⟩ := State.frame_run hb hrun hphase hq' hbody hfits
    exact ⟨_, _, hsteps, State.finishFrame_busy_of_decode (by rw [hu]; exact hop)⟩

theorem State.view_eq_some {s : State} {f : LogicalFrame} (h : s.view = some f) :
    s.fvalid = true ∧ f = ⟨s.frameType, s.framePayload⟩ := by
  cases hvalid : s.fvalid with
  | false => rw [State.view_of_not_fvalid hvalid] at h; cases h
  | true => exact ⟨rfl, Option.some.inj (h.symm.trans (State.view_of_fvalid hvalid))⟩

/-- The host reads the delivered frame's type and length from the view registers (R37, R170). -/
theorem Delivered.viewRegisters {r : QuietResult} {s : State} {f : LogicalFrame} (h : Delivered r s)
    (hframe : r.frame = some f) :
    (s.hostRead 21).host.rdata = f.type.toNat ∧ (s.hostRead 22).host.rdata = f.payload.length := by
  obtain ⟨hvalid, rfl⟩ := State.view_eq_some (h.view.trans hframe)
  rw [State.hostRead_rdata (r := .fType) h.busy rfl, State.hostRead_rdata (r := .fLen) h.busy rfl, Reg.read, Reg.read,
    if_pos hvalid, if_pos hvalid, State.framePayload_length]
  exact ⟨rfl, BitVec.toNat_sub_of_le (BitVec.le_def.mpr (h.lenField hvalid))⟩

theorem Delivered.fvalid_of_none {r : QuietResult} {s : State} (h : Delivered r s) (hframe : r.frame = none) :
    s.fvalid = false := by
  cases hvalid : s.fvalid with
  | false => rfl
  | true =>
    have hview := h.view
    simp [State.view_of_fvalid hvalid, hframe] at hview

/-- Settles O52: the frame's micro-steps end the operation, and however it ends it has the result of `decode_quiet`. -/
theorem roundTripThroughDeframer : Obligations.RoundTripThroughDeframer := by
  intro s s1 type payload bytes hidle hencode hq hissue
  obtain rfl := eq_issue_of_exec_cmdDecode hidle hissue
  obtain ⟨hmax, rfl⟩ := eq_frameBytes_of_encodeFrame hencode
  refine ⟨?ends, fun ts t hts hturns hend => ⟨fun hfits => ?delivered, fun hbig => ?tooLarge⟩⟩
  case ends =>
    exact microSteps_end_of_frame (s := s.issue .decode .hunt) rfl rfl rfl hq (by simp [toNat_frameLength hmax])
  case delivered =>
    have h := ((Quiet.of_issue s).takeTurns hts hturns).delivered hend
    rw [hq, decodeQuiet_frameBytes _ _ hfits] at h
    exact ⟨h.res, h.left, h.view, h.viewRegisters rfl⟩
  case tooLarge =>
    have h := ((Quiet.of_issue s).takeTurns hts hturns).delivered hend
    rw [hq, decodeQuiet_frameBytes_oversized _ _ hmax hbig] at h
    exact ⟨h.res, h.fvalid_of_none rfl⟩

end Sys2Proof.Machine

/-! PROOF. The correlator: SEND_COMMAND, the issue of a wait, its deadline test, the predicate of the match unit, and
frames and silence inside a wait. -/

namespace Sys2Proof.Machine

open Sys2Proof.Safety

/-! ### The predicate of the match unit -/

/-- The predicate in terms of the type and the payload (R193, R194). -/
theorem State.matches_iff (s : State) : s.matches = true ↔
    s.frameType = s.matchRegs.type ∧ ∀ i : Fin 4, i.val < s.matchRegs.n.toNat →
      s.framePayload[(s.matchRegs.off[i]).toNat]? = some s.matchRegs.val[i] := by
  have hall : (s.comparator 0 && s.comparator 1 && s.comparator 2 && s.comparator 3) = true ↔
      ∀ i : Fin 4, s.comparator i = true := by
    simp [Fin.forall_fin_succ, and_assoc]
  rw [State.matches, Bool.and_eq_true, decide_eq_true_eq, hall]
  exact and_congr_right' (forall_congr' s.comparator_iff)

/-- Settles O41: it is the equation for the predicate, comparator by comparator. -/
theorem predicateMeaning : Obligations.PredicateMeaning :=
  fun s _ => s.matches_iff

/-- An AT response with given characters and status, by payload offsets 1 to 3 (R100). -/
theorem AtResponsePayload.exists_ofBytes_iff (bs : List Byte) (c0 c1 st : Byte) :
    (∃ p, AtResponsePayload.ofBytes bs = some p ∧ p.cmdChar0 = c0 ∧ p.cmdChar1 = c1 ∧ p.status = st) ↔
      bs[1]? = some c0 ∧ bs[2]? = some c1 ∧ bs[3]? = some st := by
  match bs with
  | [] | [_] | [_, _] | [_, _, _] => simp [AtResponsePayload.ofBytes]
  | _ :: _ :: _ :: _ :: _ => simp [AtResponsePayload.ofBytes]

/-- A Modem Status with a given indicator, by payload offset 0 (R101). -/
theorem ModemStatusPayload.exists_ofBytes_iff (bs : List Byte) (k : Byte) :
    (∃ p, ModemStatusPayload.ofBytes bs = some p ∧ p.statusCode = k) ↔ bs[0]? = some k := by
  cases bs <;> simp [ModemStatusPayload.ofBytes]

/-- Settles O42: the active comparators are the compared offsets of the two layouts. -/
theorem sourcePredicates : Obligations.SourcePredicates := by
  refine ⟨fun s c0 c1 st x y hregs => ?response, fun s k x1 x2 x3 y1 y2 y3 hregs => ?status⟩
  case response =>
    rw [State.matches_iff, AtResponsePayload.exists_ofBytes_iff, hregs]
    simp [Fin.forall_fin_succ]
  case status =>
    rw [State.matches_iff, ModemStatusPayload.exists_ofBytes_iff, hregs]
    simp

/-! ### SEND_COMMAND -/

/-- An `ARG_LEN` that leaves the payload within `MAXPAY` lets SEND_COMMAND send the frame of its operands (R190). -/
theorem execSendCommand_of_le {s : State} (hidle : s.busy = false) (h : 3 + s.args.len.toNat ≤ Config.maxPay) :
    execSendCommand s = .next
      { s.txPush (frameBytes Config.typeAtCommand (s.commandPayload s.args.len.toNat).bytes) with res := .ok } := by
  rw [execSendCommand, whenIdle_idle hidle, if_neg h.not_gt]

/-- A longer one is answered `ENCODE_TOO_LONG` (R191). -/
theorem execSendCommand_of_lt {s : State} (hidle : s.busy = false) (h : Config.maxPay < 3 + s.args.len.toNat) :
    execSendCommand s = .next { s with res := .encodeTooLong } := by
  rw [execSendCommand, whenIdle_idle hidle, if_pos h]

theorem State.commandPayload_length (s : State) (n : Nat) : (s.commandPayload n).bytes.length = n + 3 := by
  rw [AtCommandPayload.bytes_length, State.commandPayload, State.argBytes_length, Nat.add_comm]

/-- How many bytes an encoded frame has, and the two of its length field (R133). -/
theorem frameBytes_header (type : Byte) {payload : List Byte} (h : payload.length ≤ Config.maxPay) :
    (frameBytes type payload).length = payload.length + 5 ∧
    (frameBytes type payload)[1]? = some (BitVec.ofNat 8 ((payload.length + 1) / 256)) ∧
    (frameBytes type payload)[2]? = some (BitVec.ofNat 8 ((payload.length + 1) % 256)) := by
  rw [frameBytes_eq type h]
  exact ⟨by simp, rfl, rfl⟩

/-- Settles O15: three bytes of payload stand before the parameter, so `MAXPAY` leaves it 0xFFFB. -/
theorem sendCommandResult : Obligations.SendCommandResult := by
  intro s hidle
  have hmax : Config.maxPay = 0xFFFE := rfl
  have hlength := s.commandPayload_length s.args.len.toNat
  refine ⟨State.hostWrite_of_decode rfl s, fun hlen => ?sent, fun hlong => ?tooLong⟩
  case sent =>
    have hfits : (s.commandPayload s.args.len.toNat).bytes.length ≤ Config.maxPay := by omega
    obtain ⟨hcount, hhigh, hlow⟩ := frameBytes_header Config.typeAtCommand hfits
    rw [hlength] at hcount hhigh hlow
    exact ⟨_, encodeFrame_of_le _ hfits, hcount, hhigh, hlow, execSendCommand_of_le hidle (by omega)⟩
  case tooLong => exact execSendCommand_of_lt hidle (by omega)

/-! ### The issue of a wait, and the micro-step CHECK -/

theorem State.badComparators_of_le {s : State} (h : s.matchRegs.n.toNat ≤ 4) : s.badComparators = false :=
  decide_eq_false h.not_gt

/-- Settles O20: with at most four comparators an idle block issues the wait. -/
theorem awaitMatchIssue : Obligations.AwaitMatchIssue := by
  intro s hidle hn
  refine ⟨State.hostWrite_of_decode rfl s, (whenIdle_idle hidle _).trans ?_⟩
  rw [State.badComparators_of_le hn]
  rfl

/-- AWAIT_MATCH_T0 with at most four comparators: `T0` decides (R197, U8). -/
theorem exec_awaitMatchT0 {s : State} (hidle : s.busy = false) (hn : s.matchRegs.n.toNat ≤ 4) :
    exec .awaitMatchT0 s = if s.now < s.t0 then .refused .startAfterNow else .next (s.issue .await .check) := by
  refine (whenIdle_idle hidle _).trans ?_
  rw [State.badComparators_of_le hn, if_neg Bool.false_ne_true]

/-- A wait whose `T0` does not lie after `NOW` (R197). -/
structure Waiting (s : State) : Prop where
  busy : s.busy = true
  op : s.op = .await
  clock : s.t0 ≤ s.now

/-- CHECK compares the elapsed time with `ARG_TO`, strictly (R198, R7). -/
theorem Waiting.microStep_check {s : State} (h : Waiting s) (hphase : s.phase = .check) :
    s.microStep = .next (if s.args.timeout < s.now - s.t0 then State.complete .timedOut { s with fvalid := false }
      else { s with phase := .hunt }) := by
  rw [State.microStep_check h.busy h.op hphase, State.checkStep, State.elapsedSince, if_pos h.clock]
  dsimp only
  split <;> rfl

/-- A deadline that has passed ends the wait (R203). -/
theorem Waiting.microStep_late {s : State} (h : Waiting s) (hphase : s.phase = .check)
    (hlate : s.args.timeout < s.now - s.t0) :
    s.microStep = .next (State.complete .timedOut { s with fvalid := false }) := by
  rw [h.microStep_check hphase, if_pos hlate]

/-- A deadline that has not passed lets a decode begin (R198). -/
theorem Waiting.microStep_inTime {s : State} (h : Waiting s) (hphase : s.phase = .check)
    (htime : s.now - s.t0 ≤ s.args.timeout) : s.microStep = .next { s with phase := .hunt } := by
  rw [h.microStep_check hphase, if_neg htime.not_gt]

/-- Settles O39: the deadline has passed or not. -/
theorem checkMicroStep : Obligations.CheckMicroStep := by
  intro s hb hphase hop hclock
  have hwait : Waiting s := ⟨hb, hop, hclock⟩
  exact ⟨hwait.microStep_late hphase, hwait.microStep_inTime hphase⟩

/-- Settles O21: the start lies after `NOW` or not, and a wait that was issued begins in CHECK. -/
theorem awaitMatchT0Issue : Obligations.AwaitMatchT0Issue := by
  intro s hidle hn
  have hexec := exec_awaitMatchT0 hidle hn
  refine ⟨State.hostWrite_of_decode rfl s, fun hclock => ?issued, fun hclock hlate => ?late, fun hafter => ?refused⟩
  case issued => exact hexec.trans (if_neg hclock.not_gt)
  case late =>
    have hwait : Waiting (s.issue .await .check) := ⟨rfl, rfl, hclock⟩
    exact hwait.microStep_late rfl hlate
  case refused => exact hexec.trans (if_pos hafter)

/-! ### A whole frame inside a wait -/

/-- What the buffer's frame reads as when it holds a whole wire frame (R65, R164). -/
theorem Holds.wireFrame {s : State} {len : Half} {type c : Byte} {payload : List Byte}
    (h : Holds s (BitVec.ofNat 8 (len.toNat / 256) :: BitVec.ofNat 8 (len.toNat % 256) :: type :: (payload ++ [c])))
    (hlength : payload.length + 1 = len.toNat) :
    s.lenField = len.toNat ∧ s.frameType = type ∧ s.framePayload = payload ∧ s.wireChecksum = c ∧
      s.rxCnt.toNat = len.toNat + 3 ∧ ∀ k, len.toNat + 3 ≤ k → s.rxByte k = 0x00 := by
  have hbytes : (BitVec.ofNat 8 (len.toNat / 256) :: BitVec.ofNat 8 (len.toNat % 256) :: type ::
      (payload ++ [c])).length = len.toNat + 3 := by simp; omega
  obtain ⟨htype, hpayload, hcheck⟩ := h.frame (by rw [be16_bytes, hlength])
  exact ⟨by rw [h.lenField, be16_bytes], htype, hpayload, hcheck, h.rxCnt_eq.trans hbytes,
    fun k hk => h.rxByte_behind (hbytes.trans_le hk)⟩

/-- A good frame on the stream, from HUNT: `LEN + 4` micro-steps buffer it and end the decode with `OK_FRAME`
(R164). -/
theorem State.goodFrame_run {s : State} {len : Half} {type c : Byte} {payload : List Byte} (hb : s.busy = true)
    (hop : s.op ≠ .none) (hphase : s.phase = .hunt) (hq : s.rxq = wireBytes len type (payload ++ [c]))
    (hlength : payload.length + 1 = len.toNat) (hmax : len.toNat ≤ 1797)
    (hgood : s.chkEn = false ∨ c = checksum type payload) :
    ∃ u buf cnt, u = { s with rxq := [], rxBuf := buf, rxCnt := cnt, lastProg := s.now, phase := .collect,
                              rxChk := checksum type payload } ∧
      Holds u (BitVec.ofNat 8 (len.toNat / 256) :: BitVec.ofNat 8 (len.toNat % 256) :: type :: (payload ++ [c])) ∧
      Reads (len.toNat + 4) s (u.decodeDone .okFrame) := by
  obtain ⟨v, hheld, htype, hpayload, hcheck, hlen, hv, hreads⟩ :=
    State.frame_run_payload hb hop hphase (hq.trans (List.append_nil _).symm) hlength hmax
  have hchk : v.chkEn = s.chkEn := by rw [hv]
  have hgood' : v.chkEn = false ∨ checksum v.frameType v.framePayload = v.wireChecksum := by
    rw [htype, hpayload, hcheck, hchk]
    exact hgood.imp_right Eq.symm
  rw [State.finishFrame_ok (hlen.trans_ne (by omega)) hgood', htype, hpayload] at hreads
  have hu : ({ v with rxChk := checksum type payload } : State) =
      { s with rxq := [], rxBuf := v.rxBuf, rxCnt := v.rxCnt, lastProg := s.now, phase := .collect,
               rxChk := checksum type payload } :=
    congrArg (fun w : State => { w with rxChk := checksum type payload }) hv
  exact ⟨_, _, _, hu, hheld.congr rfl rfl, hreads⟩

/-- A good frame that arrives while a wait in time is in CHECK on an empty stream: one micro-step more (R198). -/
theorem Waiting.goodFrame_run {s : State} {len : Half} {type c : Byte} {payload : List Byte} (h : Waiting s)
    (hphase : s.phase = .check) (hq : s.rxq = []) (htime : s.now - s.t0 ≤ s.args.timeout)
    (hlength : payload.length + 1 = len.toNat) (hmax : len.toNat ≤ 1797)
    (hgood : s.chkEn = false ∨ c = checksum type payload) :
    ∃ u buf cnt, u = { s with rxq := [], rxBuf := buf, rxCnt := cnt, lastProg := s.now, phase := .collect,
                              rxChk := checksum type payload } ∧
      Holds u (BitVec.ofNat 8 (len.toNat / 256) :: BitVec.ofNat 8 (len.toNat % 256) :: type :: (payload ++ [c])) ∧
      Reads (len.toNat + 5) (s.arrive (wireBytes len type (payload ++ [c]))) (u.decodeDone .okFrame) := by
  have harrive : s.arrive (wireBytes len type (payload ++ [c])) =
      { s with rxq := wireBytes len type (payload ++ [c]) } := by
    rw [State.arrive, hq, List.nil_append]
  have hwait : Waiting { s with rxq := wireBytes len type (payload ++ [c]) } := ⟨h.busy, h.op, h.clock⟩
  obtain ⟨u, buf, cnt, hu, hheld, hreads⟩ :=
    State.goodFrame_run (s := { s with rxq := wireBytes len type (payload ++ [c]), phase := .hunt })
      h.busy (by simp [h.op]) rfl rfl hlength hmax hgood
  rw [harrive]
  exact ⟨u, buf, cnt, hu, hheld, hreads.step h.busy (List.cons_ne_nil _ _) (hwait.microStep_inTime hphase htime)⟩

/-- When a row of micro-steps, no longer than `drainFuel` allows for the frame's bytes, reads `RXQ` or ends the
operation, a frame that arrives does. -/
theorem exec_of_reads_stop {s t : State} {i : Instr} {len : Half} {type : Byte} {body : List Byte} {k : Nat}
    (hparts : i.frameParts = some (len, type, body)) (hw : i.wellFormed = true) (hk : k ≤ 2 * (len.toNat + 4) + 1)
    (hreads : Reads k (s.arrive (wireBytes len type body)) t) (hstop : t.busy = false ∨ t.rxq = []) :
    exec i s = .next t := by
  obtain ⟨-, hdrain⟩ := hreads
  have hlength := wireBytes_length len type body (body_length_of_wellFormed hparts hw)
  obtain ⟨n, hn⟩ : ∃ n, drainFuel (s.rxq.length + (wireBytes len type body).length) = n + k :=
    Nat.exists_eq_add_of_le' (by rw [hlength, drainFuel]; omega)
  rw [exec_frame hparts, State.receive, hn, hdrain, State.drain_stop hstop]

/-- The end of a decode writes the flags, `PHASE` and `OP` alone (R150). -/
theorem State.decodeDone_flagsOnly {s : State} (hop : s.op ≠ .none) (code : Res) :
    ∃ res fvalid busy phase op, s.decodeDone code =
      { s with res := res, fvalid := fvalid, busy := busy, phase := phase, op := op } := by
  rcases s.decodeDone_cases code hop with ⟨-, e⟩ | ⟨-, -, -, e⟩ | ⟨-, -, e⟩
  · exact ⟨_, _, _, _, _, e⟩
  · exact ⟨_, _, _, _, _, e⟩
  · exact ⟨_, _, _, _, _, e⟩

/-- Settles O50: CHECK starts the decode, the frame is read to its last byte, and the predicate decides. -/
theorem frameInsideWait : Obligations.FrameInsideWait := by
  intro s i len type c payload hb hop hphase hq hclock htime _ hparts hw hmax hgood
  have hlength : payload.length + 1 = len.toNat := by simpa using body_length_of_wellFormed hparts hw
  obtain ⟨u, buf, cnt, hu, hheld, hreads⟩ :=
    Waiting.goodFrame_run ⟨hb, hop, hclock⟩ hphase hq htime hlength hmax hgood
  have huop : u.op = .await := by rw [hu]; exact hop
  have hmatches : u.matches = true ↔ type = s.matchRegs.type ∧ ∀ k : Fin 4, k.val < s.matchRegs.n.toNat →
      payload[(s.matchRegs.off[k]).toNat]? = some s.matchRegs.val[k] := by
    obtain ⟨-, htype, hpayload, -⟩ := hheld.wireFrame hlength
    have hregs : u.matchRegs = s.matchRegs := by rw [hu]
    rw [State.matches_iff, htype, hpayload, hregs]
  have hempty : (u.decodeDone .okFrame).rxq = [] := by rw [State.decodeDone_rxq, hu]
  have hexec := exec_of_reads_stop hparts hw (by omega) hreads (.inr hempty)
  have hbuffer : Holds (u.decodeDone .okFrame) _ := hheld.congr (by simp) (by simp)
  obtain ⟨hlen, htype, hpayload, hchk, hcnt, hbehind⟩ := hbuffer.wireFrame hlength
  refine ⟨_, hexec, hempty, hlen, htype, hpayload, hchk, hcnt, hbehind, by rw [State.decodeDone_rxChk, hu],
    by rw [State.decodeDone_lastProg, hu], ?others, fun hyes => ?matched, fun hno => ?dropped⟩
  case others =>
    obtain ⟨res, fvalid, busy, phase, op, hflags⟩ := State.decodeDone_flagsOnly (s := u) (by simp [huop]) .okFrame
    rw [hflags, hu, ← hq]
  case matched =>
    rw [State.decodeDone_of_match huop (hmatches.mpr hyes)]
    exact ⟨rfl, rfl, rfl, rfl, rfl⟩
  case dropped =>
    rw [← hmatches, Bool.not_eq_true] at hno
    rw [State.decodeDone_of_drop huop (.inr hno), hu]
    exact ⟨rfl, rfl, hb, rfl, hop⟩

/-! ### Silence inside a wait -/

/-- On an empty stream, with `ARG_INACT` passed since the last progress, a decode inside a wait ends at its next
micro-step, and CHECK follows (R153, R159, R201). -/
theorem microStep_silent {s : State} (h : Inv s) (hb : s.busy = true) (hop : s.op = .await) (hq : s.rxq = [])
    (hsilent : s.args.inact < s.now - s.lastProg) (hphase : s.phase ≠ .check) :
    ∃ buf cnt, s.microStep = .next { s with rxBuf := buf, rxCnt := cnt, fvalid := false, phase := .check } := by
  obtain ⟨⟨-, hidle, -⟩, -, -, ⟨hprog, -⟩, -⟩ := h
  have hrun : s.op ≠ .none := by simp [hop]
  cases hp : s.phase with
  | idle => simp [hidle.mp hp] at hb
  | check => exact absurd hp hphase
  | hunt =>
    refine ⟨s.rxBuf, s.rxCnt, ?_⟩
    rw [State.microStep_hunt hb hrun hp, State.huntStep_empty hq, State.decodeDone_of_drop hop (.inl (by decide))]
  | collect =>
    refine ⟨[], 0, ?_⟩
    rw [State.microStep_collect hb hrun hp, State.collectStep_empty hq hprog, if_pos hsilent,
      State.decodeDone_of_drop (by exact hop) (.inl (by decide))]
    rfl

theorem State.microSteps_two {s u : State} (h : s.microStep = .next u) : s.microSteps 2 = u.microStep := by
  rw [State.microSteps, h]
  exact u.microSteps_one

/-- A silent wait of a safe state whose times have all passed ends within two micro-steps (R204). -/
theorem microSteps_silent {s : State} (h : Inv s) (hb : s.busy = true) (hop : s.op = .await) (hq : s.rxq = [])
    (hlate : s.args.timeout < s.now - s.t0) (hsilent : s.args.inact < s.now - s.lastProg) :
    ∃ t, s.microSteps 2 = .next t ∧ t.res = .timedOut ∧ t.busy = false ∧ t.fvalid = false ∧ t.rxq = [] := by
  have hclock : s.t0 ≤ s.now := by omega
  by_cases hphase : s.phase = .check
  · have hfirst := Waiting.microStep_late ⟨hb, hop, hclock⟩ hphase hlate
    have hends := (State.microSteps_two hfirst).trans (State.microStep_idle rfl)
    exact ⟨_, hends, rfl, rfl, rfl, hq⟩
  · obtain ⟨buf, cnt, hfirst⟩ := microStep_silent h hb hop hq hsilent hphase
    have hwait : Waiting { s with rxBuf := buf, rxCnt := cnt, fvalid := false, phase := .check } := ⟨hb, hop, hclock⟩
    have hends := (State.microSteps_two hfirst).trans (hwait.microStep_late rfl hlate)
    exact ⟨_, hends, rfl, rfl, rfl, hq⟩

/-- Settles O54: the state the ticks lead to is safe, and silent. -/
theorem silentWaitTimesOut : Obligations.SilentWaitTimesOut :=
  fun _ d h hb hop hq hlate hsilent => microSteps_silent (inv_advance h d) hb hop hq hlate hsilent

end Sys2Proof.Machine

/-! PROOF. The host sequences: lines done turn by turn, and the runs of BUILD_TCP_FRAME and of AT_QUERY up to its
wait. -/

namespace Sys2Proof.Machine

/-! ### Lines done turn by turn -/

/-- The block as it is, with the host before these lines. -/
def State.withProg (prog : List HostLine) (s : State) : State := { s with host := { s.host with prog := prog } }

theorem State.withProg_of_prog {s : State} {prog : List HostLine} (h : s.host.prog = prog) : s.withProg prog = s := by
  subst h
  rfl

/-- A register write leaves the host alone, so it does not see the host's program. -/
theorem Reg.write_withProg (r : Reg) (v : Nat) (prog : List HostLine) (s : State) :
    r.write v (s.withProg prog) = (r.write v s).withProg prog := by
  cases r <;> rfl

theorem State.takeTurns_append {s u : State} {ts : List Turn} (h : s.takeTurns ts = .next u) (us : List Turn) :
    s.takeTurns (ts ++ us) = u.takeTurns us := by
  induction ts generalizing s with
  | nil => cases h; rfl
  | cons x ts ih =>
    obtain ⟨v, hv, hrest⟩ := State.takeTurns_cons_next h
    rw [List.cons_append, State.takeTurns_cons hv, ih hrest]

/-- Doing `lines` turn by turn (R68, R109), with `rest` behind them, takes the block from `s` to `t`. -/
def HostRuns (rest lines : List HostLine) (s t : State) : Prop :=
  (s.withProg (lines ++ rest)).takeTurns (List.replicate lines.length .host) = .next (t.withProg rest)

theorem HostRuns.takeTurns {rest lines : List HostLine} {s t : State} (h : HostRuns rest lines s t)
    (hprog : s.host.prog = lines ++ rest) :
    s.takeTurns (List.replicate lines.length .host) = .next (t.withProg rest) := by
  rwa [HostRuns, State.withProg_of_prog hprog] at h

theorem HostRuns.append {rest lines lines' : List HostLine} {s u t : State} (h : HostRuns (lines' ++ rest) lines s u)
    (h' : HostRuns rest lines' u t) : HostRuns rest (lines ++ lines') s t := by
  rw [HostRuns, List.append_assoc, List.length_append, List.replicate_add, State.takeTurns_append h]
  exact h'

theorem HostRuns.of_takeTurn {rest : List HostLine} {line : HostLine} {s t : State}
    (h : (s.withProg (line :: rest)).takeTurn .host = .next (t.withProg rest)) : HostRuns rest [line] s t :=
  State.takeTurns_cons h []

/-- The line of a register write is the write (R109, R254). -/
theorem HostRuns.of_hostWrite {rest : List HostLine} {n v : Nat} {s t : State}
    (h : (s.withProg rest).hostWrite n v = .next (t.withProg rest)) : HostRuns rest [.wr n v] s t :=
  .of_takeTurn h

/-- The line of a command runs the command (R109, R250). -/
theorem HostRuns.of_exec {rest : List HostLine} {i : Instr} {s t : State} (hi : i.frameParts = none)
    (h : exec i (s.withProg rest) = .next (t.withProg rest)) : HostRuns rest [cmdLine i] s t := by
  cases i with
  | cmdEncode | cmdDecode | sendCommand | awaitMatch | awaitMatchT0 | teardown =>
    exact .of_hostWrite ((State.hostWrite_of_decode rfl _).trans h)
  | frame | atCommand | atResponse | txRequest | modemStatus => cases hi

/-! ### Operand bytes -/

/-- In every later state with this `ARGBUF` the operand bytes read back, as many as it has room for, and the bytes
behind them read as in `s` (R35; log 29). -/
def Stored (s : State) (bytes : List Byte) (argBuf : Memory) : Prop :=
  ∀ t : State, t.argBuf = argBuf → t.resets = s.resets →
    t.argBytes (bytes.take Config.argCap).length = bytes.take Config.argCap ∧
    ∀ j, t.argByte j = ((bytes.take Config.argCap)[j]?).getD (s.argByte j)

theorem Stored.argByte {s t : State} {bytes : List Byte} (h : Stored s bytes t.argBuf) (hr : t.resets = s.resets)
    (j : Nat) : t.argByte j = ((bytes.take Config.argCap)[j]?).getD (s.argByte j) :=
  (h t rfl hr).2 j

theorem Stored.argBytes {s t : State} {bytes : List Byte} (h : Stored s bytes t.argBuf) (hr : t.resets = s.resets)
    (hfits : bytes.length ≤ Config.argCap) : t.argBytes bytes.length = bytes := by
  have hbytes := (h t rfl hr).1
  rwa [List.take_of_length_le hfits] at hbytes

/-- A line that stores operand bytes changes `ARGBUF` alone (R35, R109). -/
theorem HostRuns.storeBytes {s : State} (hidle : s.busy = false) (rest : List HostLine) (bytes : List Byte) :
    ∃ m, HostRuns rest [bufLine bytes] s { s with argBuf := m } ∧ Stored s bytes m := by
  obtain ⟨m, hturn, hstored⟩ :=
    State.takeTurn_bufLine (s := s.withProg (bufLine bytes :: rest)) hidle rfl
  exact ⟨m, .of_takeTurn hturn, hstored⟩

/-! ### Rows of register writes -/

/-- What a line that writes a register other than `CMD` does to an idle block (R254). -/
def State.registerLine (s : State) : HostLine → State
  | .wr n v => (Reg.ofNumber n).elim s fun r => r.write v s
  | _ => s

/-- The line writes an existing register other than `CMD`. -/
def HostLine.writesRegister : HostLine → Bool
  | .wr n _ => n != 0 && (Reg.ofNumber n).isSome
  | _ => false

theorem HostRuns.registerLine {line : HostLine} {s : State} (hidle : s.busy = false)
    (hline : line.writesRegister = true) (rest : List HostLine) : HostRuns rest [line] s (s.registerLine line) := by
  cases line with
  | wr n v =>
    obtain ⟨hn, r, hr⟩ : n ≠ 0 ∧ ∃ r, Reg.ofNumber n = some r := by
      simpa [HostLine.writesRegister, Option.isSome_iff_exists] using hline
    refine .of_hostWrite ?_
    rw [State.hostWrite_register (by exact hidle) hn hr, Reg.write_withProg, State.registerLine, hr]
    rfl
  | _ => cases hline

theorem State.registerLine_busy (s : State) (line : HostLine) : (s.registerLine line).busy = s.busy := by
  cases line with
  | wr n v => cases h : Reg.ofNumber n <;> simp [State.registerLine, h]
  | _ => rfl

/-- A row of register writes, done one after the other. -/
theorem HostRuns.registerLines {lines : List HostLine} {s : State} (hidle : s.busy = false)
    (hlines : lines.all HostLine.writesRegister = true) (rest : List HostLine) :
    HostRuns rest lines s (lines.foldl State.registerLine s) := by
  induction lines generalizing s with
  | nil => rfl
  | cons line lines ih =>
    obtain ⟨hline, hlines⟩ : line.writesRegister = true ∧ lines.all HostLine.writesRegister = true := by
      simpa only [List.all_cons, Bool.and_eq_true] using hlines
    exact (HostRuns.registerLine hidle hline _).append (ih ((s.registerLine_busy line).trans hidle) hlines)

/-- A length line leaves in `ARG_LEN` the length it writes; the register does not cut it (log 29). -/
theorem toNat_writtenLength (n : Nat) : (BitVec.ofNat 16 (min n 0xFFFF)).toNat = min n 0xFFFF := by
  rw [BitVec.toNat_ofNat]
  omega

/-! ### BUILD_TCP_FRAME -/

theorem extractLsb'_byte_eq {w : Nat} (n : BitVec w) (k : Nat) :
    n.extractLsb' k 8 = BitVec.ofNat 8 (n.toNat / 2 ^ k) := by
  rw [BitVec.extractLsb', Nat.shiftRight_eq_div_pow]

section
variable (address : BitVec 32) (destPort sourcePort : Half) (protocol options : Byte) (data : List Byte)

/-- The frame payload byte by byte (R229). -/
theorem tcpPayload_eq :
    tcpPayload address destPort sourcePort protocol options data =
      [0x00, BitVec.ofNat 8 (address.toNat / 16777216), BitVec.ofNat 8 (address.toNat / 65536),
        BitVec.ofNat 8 (address.toNat / 256), BitVec.ofNat 8 address.toNat,
        BitVec.ofNat 8 (destPort.toNat / 256), BitVec.ofNat 8 destPort.toNat,
        BitVec.ofNat 8 (sourcePort.toNat / 256), BitVec.ofNat 8 sourcePort.toNat, protocol, options] ++ data := by
  simp [tcpPayload, TxRequestPayload.bytes, u32be, u16be, extractLsb'_byte_eq]

theorem tcpPayload_length :
    (tcpPayload address destPort sourcePort protocol options data).length = 11 + data.length := by
  rw [tcpPayload_eq, List.length_append]
  rfl

end

/-- The lines that store a payload, its type and its length for ENCODE (R230). -/
theorem HostRuns.encodeOperands {s : State} (hidle : s.busy = false) (rest : List HostLine) (type : Byte)
    (payload : List Byte) (n : Nat) :
    ∃ m, HostRuns rest [bufLine payload, .wr regArgType type.toNat, lenLine n] s
        { s with args := { s.args with type := type, len := BitVec.ofNat 16 (min n 0xFFFF) }, argBuf := m } ∧
      Stored s payload m := by
  obtain ⟨m, hbuf, hstored⟩ := HostRuns.storeBytes hidle ([.wr regArgType type.toNat, lenLine n] ++ rest) payload
  have hregs := HostRuns.registerLines (s := { s with argBuf := m })
    (lines := [.wr regArgType type.toNat, lenLine n]) hidle rfl rest
  refine ⟨m, ?_, hstored⟩
  have hrun := hbuf.append hregs
  simpa [State.registerLine, lenLine, regArgType, regArgLen, Reg.ofNumber, Reg.write] using hrun

theorem HostRuns.cmdEncode {s : State} {payload : List Byte} (hidle : s.busy = false) (rest : List HostLine)
    (hlen : s.args.len.toNat = payload.length) (hbytes : s.argBytes payload.length = payload)
    (h : payload.length ≤ Config.maxPay) : HostRuns rest [cmdLine .cmdEncode] s
      { s with encOut := s.encOut ++ frameBytes s.args.type payload, res := .ok } := by
  refine .of_exec rfl ((execEncode_of_le (s := s.withProg rest) hidle (hlen.trans_le h)).trans ?_)
  have hpayload : (s.withProg rest).argBytes (s.withProg rest).args.len.toNat = payload := by
    rw [← hbytes, ← hlen]
    rfl
  rw [hpayload]
  rfl

/-- Operands within `MAXPAY`, then ENCODE: the frame is appended to `ENCOUT` (R134, R230). -/
theorem HostRuns.encode_of_le {s : State} (hidle : s.busy = false) (rest : List HostLine) (type : Byte)
    {payload : List Byte} {n : Nat} (hn : payload.length = n) (h : n ≤ Config.maxPay) :
    ∃ m, HostRuns rest [bufLine payload, .wr regArgType type.toNat, lenLine n, cmdLine .cmdEncode] s
        { s with args := { s.args with type := type, len := BitVec.ofNat 16 (min n 0xFFFF) }, argBuf := m,
                 encOut := s.encOut ++ frameBytes type payload, res := .ok } ∧
      Stored s payload m := by
  obtain ⟨m, hoperands, hstored⟩ := HostRuns.encodeOperands hidle ([cmdLine .cmdEncode] ++ rest) type payload n
  subst hn
  have hlen := (toNat_writtenLength payload.length).trans (min_eq_left (h.trans (by decide)))
  have hbytes := hstored.argBytes (t := { s with argBuf := m }) rfl (h.trans (by decide))
  exact ⟨m, hoperands.append (.cmdEncode (by exact hidle) rest hlen hbytes h), hstored⟩

/-- Longer operands, then ENCODE: nothing is emitted (R135, R231). -/
theorem HostRuns.encode_of_lt {s : State} (hidle : s.busy = false) (rest : List HostLine) (type : Byte)
    (payload : List Byte) {n : Nat} (h : Config.maxPay < n) :
    ∃ m, HostRuns rest [bufLine payload, .wr regArgType type.toNat, lenLine n, cmdLine .cmdEncode] s
        { s with args := { s.args with type := type, len := BitVec.ofNat 16 (min n 0xFFFF) }, argBuf := m,
                 res := .encodeTooLong } ∧
      Stored s payload m := by
  obtain ⟨m, hoperands, hstored⟩ := HostRuns.encodeOperands hidle ([cmdLine .cmdEncode] ++ rest) type payload n
  have hlen := (lt_min h (by decide : Config.maxPay < 0xFFFF)).trans_eq (toNat_writtenLength n).symm
  exact ⟨m, hoperands.append (.of_exec rfl (execEncode_of_lt hidle hlen)), hstored⟩

/-- Settles O18: the layout byte by byte, and the operand lines followed by ENCODE, for which the length decides. -/
theorem tcpPayloadLayout : Obligations.TcpPayloadLayout := by
  intro address destPort sourcePort protocol options data
  have hmax : Config.maxPay = 0xFFFE := rfl
  have hlength := tcpPayload_length address destPort sourcePort protocol options data
  have hencoded (hfits : data.length ≤ 0xFFF3) := encodeFrame_of_le 0x20
    (payload := tcpPayload address destPort sourcePort protocol options data) (by omega)
  refine ⟨tcpPayload_eq .., hlength, fun hfits => ?length, fun hlong => encodeFrame_of_lt _ (by omega),
    fun s rest hidle hprog => ?run⟩
  case length =>
    refine ⟨_, hencoded hfits, ?_⟩
    rw [(frameBytes_header _ (by omega)).1]
    omega
  case run =>
    rcases Nat.lt_or_ge 0xFFF3 data.length with hlong | hfits
    · obtain ⟨m, hrun, hstored⟩ := HostRuns.encode_of_lt hidle rest Config.typeTxRequest
        (tcpPayload address destPort sourcePort protocol options data) (n := 11 + data.length) (by omega)
      exact ⟨_, hrun.takeTurns hprog, rfl, hstored.argByte rfl, fun h => by omega, fun _ => ⟨rfl, rfl⟩⟩
    · obtain ⟨m, hrun, hstored⟩ := HostRuns.encode_of_le hidle rest Config.typeTxRequest hlength (by omega)
      exact ⟨_, hrun.takeTurns hprog, rfl, hstored.argByte rfl, fun _ => ⟨rfl, _, hencoded hfits, rfl⟩,
        fun h => by omega⟩

/-! ### AT_QUERY up to its wait -/

/-- The match registers of the response predicate (R195): comparators 0 to 2 set, the fourth kept. -/
def responseRegs (c0 c1 st : Byte) (m : MatchRegs) : MatchRegs where
  type := Config.typeAtResponse
  n := 3
  off := ((m.off.set 0 1).set 1 2).set 2 3
  val := ((m.val.set 0 c0).set 1 c1).set 2 st

theorem responseRegs_comparators (c0 c1 st : Byte) (m : MatchRegs) :
    (responseRegs c0 c1 st m).off[0] = 1 ∧ (responseRegs c0 c1 st m).off[1] = 2 ∧
    (responseRegs c0 c1 st m).off[2] = 3 ∧ (responseRegs c0 c1 st m).off[3] = m.off[3] ∧
    (responseRegs c0 c1 st m).val[0] = c0 ∧ (responseRegs c0 c1 st m).val[1] = c1 ∧
    (responseRegs c0 c1 st m).val[2] = st ∧ (responseRegs c0 c1 st m).val[3] = m.val[3] := by
  simp [responseRegs]

/-- The lines that set the response predicate (R195, R221). -/
theorem HostRuns.setPredicate {s : State} (hidle : s.busy = false) (rest : List HostLine) (c0 c1 st : Byte) :
    HostRuns rest (responseLines c0 c1 st) s { s with matchRegs := responseRegs c0 c1 st s.matchRegs } := by
  have hrun := HostRuns.registerLines (lines := responseLines c0 c1 st) hidle rfl rest
  simpa [responseLines, State.registerLine, regMType, regMN, regMOff, regMVal, Reg.ofNumber, Reg.write,
    responseRegs] using hrun

/-- The lines that set the timeouts of a wait (R221). -/
theorem HostRuns.setTimeouts {s : State} (hidle : s.busy = false) (rest : List HostLine) (timeout : Nat) :
    HostRuns rest (timeoutLines timeout) s
      { s with args := { s.args with timeout := timeout, inact := Config.tInactPoll } } :=
  HostRuns.registerLines hidle rfl rest

/-- The lines that name the frame id and the command of an AT command (R221). -/
theorem HostRuns.nameCommand {s : State} (hidle : s.busy = false) (rest : List HostLine) (fid c0 c1 : Byte) :
    HostRuns rest [.wr regArgFid fid.toNat, .wr regArgCmd0 c0.toNat, .wr regArgCmd1 c1.toNat] s
      { s with args := { s.args with fid := fid, cmd0 := c0, cmd1 := c1 } } := by
  have hrun := HostRuns.registerLines (lines := [.wr regArgFid fid.toNat, .wr regArgCmd0 c0.toNat,
    .wr regArgCmd1 c1.toNat]) hidle rfl rest
  simpa [State.registerLine, regArgFid, regArgCmd0, regArgCmd1, Reg.ofNumber, Reg.write] using hrun

/-- The lines that store operand bytes and their length (R221; log 29). -/
theorem HostRuns.storeOperands {s : State} (hidle : s.busy = false) (rest : List HostLine) (bytes : List Byte) :
    ∃ m, HostRuns rest [bufLine bytes, lenLine bytes.length] s
        { s with args := { s.args with len := BitVec.ofNat 16 (min bytes.length 0xFFFF) }, argBuf := m } ∧
      Stored s bytes m := by
  obtain ⟨m, hbuf, hstored⟩ := HostRuns.storeBytes hidle ([lenLine bytes.length] ++ rest) bytes
  exact ⟨m, hbuf.append (.registerLines (by exact hidle) rfl rest), hstored⟩

theorem HostRuns.cmdSendCommand {s : State} {param : List Byte} (hidle : s.busy = false) (rest : List HostLine)
    (hlen : s.args.len.toNat = param.length) (hbytes : s.argBytes param.length = param)
    (h : 3 + param.length ≤ Config.maxPay) : HostRuns rest [cmdLine .sendCommand] s
      { s with txq := s.txq ++ frameBytes Config.typeAtCommand ([s.args.fid, s.args.cmd0, s.args.cmd1] ++ param),
               res := .ok } := by
  refine .of_exec rfl ((execSendCommand_of_le (s := s.withProg rest) hidle (by exact hlen ▸ h)).trans ?_)
  have hpayload : ((s.withProg rest).commandPayload (s.withProg rest).args.len.toNat).bytes =
      [s.args.fid, s.args.cmd0, s.args.cmd1] ++ param := by
    rw [← hbytes, ← hlen]
    rfl
  rw [hpayload]
  rfl

/-- The lines that send an AT command with frame id 1 (R221, R232). -/
theorem HostRuns.sendAtCommand {s : State} (hidle : s.busy = false) (rest : List HostLine) (c0 c1 : Byte)
    {param : List Byte} (h : param.length ≤ 0xFFFB) :
    ∃ m, HostRuns rest (sendLines c0 c1 param) s
        { s with args := { s.args with fid := Config.fidWorkflow, cmd0 := c0, cmd1 := c1,
                                       len := BitVec.ofNat 16 param.length },
                 argBuf := m, res := .ok,
                 txq := s.txq ++ frameBytes Config.typeAtCommand ([Config.fidWorkflow, c0, c1] ++ param) } ∧
      Stored s param m := by
  obtain ⟨m, hoperands, hstored⟩ := HostRuns.storeOperands (s := { s with args := { s.args with
    fid := Config.fidWorkflow, cmd0 := c0, cmd1 := c1 } }) hidle ([cmdLine .sendCommand] ++ rest) param
  have hlen := toNat_writtenLength param.length
  rw [min_eq_left (h.trans (by decide))] at hoperands hlen
  have hbytes := hstored.argBytes (t := { s with argBuf := m }) rfl (h.trans (by decide))
  have hsend := hoperands.append (.cmdSendCommand (by exact hidle) rest hlen hbytes (Nat.add_le_add_left h 3))
  exact ⟨m, (HostRuns.nameCommand hidle _ Config.fidWorkflow c0 c1).append hsend, hstored⟩

/-- Settles O55: the command is sent, the predicate is set, the timeouts are set, one after the other. -/
theorem atQuerySendsAndSetsPredicate : Obligations.AtQuerySendsAndSetsPredicate := by
  intro s c0 c1 st param timeout rest hidle hparam hprog
  obtain ⟨m, hsend, hstored⟩ :=
    HostRuns.sendAtCommand hidle (responseLines c0 c1 st ++ (timeoutLines timeout ++ rest)) c0 c1 hparam
  have hrun := (hsend.append (.setPredicate (by exact hidle) _ c0 c1 st)).append
    (.setTimeouts (by exact hidle) rest timeout)
  have hargByte (j : Nat) := hstored.argByte (t := { s with argBuf := m }) rfl j
  rw [List.take_of_length_le (hparam.trans (by decide))] at hargByte
  have hfits : ([Config.fidWorkflow, c0, c1] ++ param).length ≤ Config.maxPay := Nat.add_le_add_right hparam 3
  exact ⟨_, _, hrun.takeTurns hprog, encodeFrame_of_le _ hfits, rfl, hargByte, rfl, rfl,
    responseRegs_comparators c0 c1 st s.matchRegs⟩

end Sys2Proof.Machine

/-! PROOF. The system operations: TEARDOWN and illegal commands, writes while an operation runs, the frame of a register
write, `STATUS`, and what the host can do to the receive buffer. -/

namespace Sys2Proof.Machine

/-! ### A step that runs an instruction -/

/-- The host does the next line of its program, which is taken off first (R68). -/
theorem State.hostTurn_of_prog_cons {s : State} {line : HostLine} {rest : List HostLine}
    (h : s.host.prog = line :: rest) :
    s.hostTurn = State.hostLine line { s with host := { s.host with prog := rest } } := by
  simp only [State.hostTurn, h]

/-- Settles O1: the turn is the decided one, and a byte written to `CMD` or a frame that arrives runs what it decodes
to. -/
theorem stepRunsDecodedInstruction : Obligations.StepRunsDecodedInstruction := by
  refine ⟨fun s ts prog v i hturns hprog hdecode => ?command, fun s ts bytes i hturns hdecode => ?frame⟩
  case command =>
    calc step s
        = State.hostTurn { s with turns := ts } := step_of_turns_cons hturns
      _ = State.hostWrite 0 v { s with turns := ts, host := { s.host with prog := prog } } :=
          State.hostTurn_of_prog_cons (s := { s with turns := ts }) hprog
      _ = exec i { s with turns := ts, host := { s.host with prog := prog } } := State.hostWrite_of_decode hdecode _
  case frame =>
    calc step s
        = State.wireTurn bytes { s with turns := ts } := step_of_turns_cons hturns
      _ = exec i { s with turns := ts } := State.wireTurn_of_decode hdecode _

/-! ### TEARDOWN and illegal commands -/

theorem exec_teardown_of_idle {s : State} (hidle : s.busy = false) :
    exec .teardown s =
      .next { s.clearRxBuf with fvalid := false, rxChk := 0, lastProg := 0, t0 := 0, res := .none } :=
  whenIdle_idle hidle _

/-- Settles O22: 0x06 is the opcode of TEARDOWN, and a cleared `RXBUF` reads 0 everywhere. -/
theorem teardownResult : Obligations.TeardownResult :=
  fun s hidle =>
    ⟨State.hostWrite_of_decode rfl s, _, exec_teardown_of_idle hidle, State.rxByte_of_empty rfl, rfl⟩

theorem State.hostWrite_command (s : State) (c : Byte) : s.hostWrite 0 c.toNat = issueCommand c s := by
  rw [State.hostWrite, if_pos rfl, BitVec.ofNat_toNat, BitVec.setWidth_eq]

/-- A reserved opcode is an illegal command (R108, R251). -/
theorem issueCommand_reserved {s : State} {c : Byte} (hidle : s.busy = false) (hc : c = 0x00 ∨ 0x07 ≤ c.toNat) :
    issueCommand c s = .next s.illegalCommand := by
  simp only [issueCommand, decodeCommand_reserved hc, whenIdle_idle hidle]

theorem State.badComparators_of_lt {s : State} (h : 4 < s.matchRegs.n.toNat) : s.badComparators = true :=
  decide_eq_true h

/-- A wait with too many comparators is an illegal command (R251). -/
theorem exec_awaitMatch_illegal {s : State} (hidle : s.busy = false) (h : 4 < s.matchRegs.n.toNat) :
    exec .awaitMatch s = .next s.illegalCommand := by
  refine (whenIdle_idle hidle _).trans ?_
  rw [if_pos (State.badComparators_of_lt h)]

/-- The comparators are looked at before `T0`, so that the wait is illegal wherever `T0` lies (R251; log 10). -/
theorem exec_awaitMatchT0_illegal {s : State} (hidle : s.busy = false) (h : 4 < s.matchRegs.n.toNat) :
    exec .awaitMatchT0 s = .next s.illegalCommand :=
  (whenIdle_idle hidle _).trans (if_pos (State.badComparators_of_lt h))

/-- Settles O23: a reserved opcode decodes to no command, and both waits look at `M_N` first. -/
theorem illegalCommandOnlySetsRes : Obligations.IllegalCommandOnlySetsRes := by
  intro s hidle
  refine ⟨fun c hc => (s.hostWrite_command c).trans (issueCommand_reserved hidle hc), fun hn => ?_⟩
  have hawait := exec_awaitMatch_illegal hidle hn
  have hawaitT0 := exec_awaitMatchT0_illegal hidle hn
  exact ⟨hawait, hawaitT0, (State.hostWrite_of_decode rfl s).trans hawait,
    (State.hostWrite_of_decode rfl s).trans hawaitT0⟩

/-! ### Writes while an operation runs -/

theorem whenIdle_busy {s : State} (hb : s.busy = true) (e : Host.Outcome State Fault Refusal) :
    whenIdle s e = .refused .commandWhileBusy :=
  if_pos hb

/-- No command is accepted while `BUSY = 1` (R250, U6). -/
theorem exec_command_busy {i : Instr} {s : State} (hi : i.frameParts = none) (hb : s.busy = true) :
    exec i s = .refused .commandWhileBusy := by
  cases i with
  | cmdEncode | cmdDecode | sendCommand | awaitMatch | awaitMatchT0 | teardown => exact whenIdle_busy hb _
  | frame | atCommand | atResponse | txRequest | modemStatus => cases hi

/-- Nor is a byte that is no opcode answered with an illegal command (R256, U6). -/
theorem issueCommand_busy {s : State} (hb : s.busy = true) (c : Byte) :
    issueCommand c s = .refused .commandWhileBusy := by
  unfold issueCommand
  split
  · next i hi =>
    obtain ⟨-, -, hcommand⟩ := decodeCommand_ok hi
    exact exec_command_busy hcommand hb
  · exact whenIdle_busy hb _

theorem State.hostWrite_busy {s : State} {n : Nat} (hb : s.busy = true) (hn : n ≠ 0) (v : Nat) :
    s.hostWrite n v = .refused .writeWhileBusy := by
  simp [State.hostWrite, hn, hb]

theorem State.hostWriteArgBuf_busy {s : State} (hb : s.busy = true) (i : Nat) (bytes : List Byte) :
    s.hostWriteArgBuf i bytes = .refused .writeWhileBusy :=
  if_pos hb

/-- Settles O24: the write is to `CMD`, to another register or to `ARGBUF`. -/
theorem busyWritesAreRefused : Obligations.BusyWritesAreRefused := by
  intro s hb
  exact ⟨fun _ => issueCommand_busy hb _, fun _ v hn => State.hostWrite_busy hb hn v, State.hostWriteArgBuf_busy hb⟩

/-! ### The frame of a register write -/

/-- The number of a register (R39). -/
def Reg.number : Reg → Nat
  | .cmd => 0
  | .ctrl => 1
  | .status => 2
  | .argType => 3
  | .argFid => 4
  | .argCmd0 => 5
  | .argCmd1 => 6
  | .argLen => 7
  | .argInact => 8
  | .argTo => 9
  | .mType => 10
  | .mN => 11
  | .mOff i => 12 + i
  | .mVal i => 16 + i
  | .rxCnt => 20
  | .fType => 21
  | .fLen => 22
  | .rxChk => 23
  | .lastProg => 24
  | .t0 => 25
  | .now => 26

theorem Reg.number_of_ofNumber {n : Nat} {r : Reg} (h : Reg.ofNumber n = some r) : r.number = n := by
  unfold Reg.ofNumber at h
  split at h <;> cases h <;> rfl

/-- Two numbers name two registers (R39). -/
theorem Reg.ne_of_ofNumber {n m : Nat} {r q : Reg} (hr : Reg.ofNumber n = some r) (hq : Reg.ofNumber m = some q)
    (h : m ≠ n) : q ≠ r := by
  rintro rfl
  exact h ((Reg.number_of_ofNumber hq).symm.trans (Reg.number_of_ofNumber hr))

/-- Everything a register write can change: `CTRL`, the operand registers, the match registers and `T0` (R253, R254). -/
theorem Reg.write_only (r : Reg) (v : Nat) (s : State) :
    ∃ chkEn args matchRegs t0,
      r.write v s = { s with chkEn := chkEn, args := args, matchRegs := matchRegs, t0 := t0 } := by
  cases r <;> exact ⟨_, _, _, _, rfl⟩

/-- A register that keeps nothing of a written value reads none of what a register write changes (R254). -/
theorem Reg.read_readOnly_write {q : Reg} {v : Nat} (h : q.kept v = none) (r : Reg) (s : State) :
    q.read (r.write v s) = q.read s := by
  obtain ⟨chkEn, args, matchRegs, t0, e⟩ := r.write_only v s
  rw [e]
  cases q with
  | cmd | status | rxCnt | fType | fLen | rxChk | lastProg | now => rfl
  | ctrl | argType | argFid | argCmd0 | argCmd1 | argLen | argInact | argTo | mType | mN | mOff i | mVal i | t0 =>
    cases h

/-- A register reads the same after a write to another one. -/
theorem Reg.read_write_other {q r : Reg} (h : q ≠ r) (v : Nat) (s : State) : q.read (r.write v s) = q.read s := by
  cases q with
  | cmd | status | rxCnt | fType | fLen | rxChk | lastProg | now => exact Reg.read_readOnly_write rfl r s
  | mOff j =>
    cases r with
    | mOff i =>
      have hij : (i : Nat) ≠ j := fun hij => h (congrArg Reg.mOff (Fin.ext hij.symm))
      simp [Reg.read, Reg.write, Vector.getElem_set_ne, hij]
    | _ => rfl
  | mVal j =>
    cases r with
    | mVal i =>
      have hij : (i : Nat) ≠ j := fun hij => h (congrArg Reg.mVal (Fin.ext hij.symm))
      simp [Reg.read, Reg.write, Vector.getElem_set_ne, hij]
    | _ => rfl
  | ctrl | argType | argFid | argCmd0 | argCmd1 | argLen | argInact | argTo | mType | mN | t0 =>
    revert h
    cases r <;> simp [Reg.read, Reg.write]

/-- A write to a register other than `CMD` that is answered (R254, R256). -/
theorem State.hostWrite_register_next {s t : State} {n v : Nat} (hn : n ≠ 0) (h : s.hostWrite n v = .next t) :
    s.busy = false ∧ ((Reg.ofNumber n = none ∧ t = s) ∨ ∃ r, Reg.ofNumber n = some r ∧ t = r.write v s) := by
  cases hb : s.busy with
  | true => rw [State.hostWrite_busy hb hn] at h; cases h
  | false =>
    refine ⟨rfl, ?_⟩
    cases hr : Reg.ofNumber n with
    | some r =>
      rw [State.hostWrite_register hb hn hr] at h
      cases h
      exact .inr ⟨r, rfl, rfl⟩
    | none =>
      simp only [State.hostWrite, if_neg hn, hb, hr] at h
      cases h
      exact .inl ⟨rfl, rfl⟩

/-- After a register write the host reads the same from every other number, of a register or of none (R254). -/
theorem State.hostRead_write_other {s : State} {n m v : Nat} {r : Reg} (hb : s.busy = false)
    (hr : Reg.ofNumber n = some r) (hm : m ≠ n) :
    ((r.write v s).hostRead m).host.rdata = (s.hostRead m).host.rdata := by
  have hb' : (r.write v s).busy = false := by rw [Reg.write_busy, hb]
  cases hq : Reg.ofNumber m with
  | some q =>
    rw [State.hostRead_rdata hb' hq, State.hostRead_rdata hb hq, Reg.read_write_other (Reg.ne_of_ofNumber hr hq hm)]
  | none =>
    rw [State.hostRead_missing hb' hq, State.hostRead_missing hb hq, State.returnRead_host, State.returnRead_host]

/-- Settles O27: the number is of no register, or one register takes the value and every other reads as before. -/
theorem registerWriteFrame : Obligations.RegisterWriteFrame := by
  intro s t n v hb hn h
  obtain ⟨-, ⟨-, rfl⟩ | ⟨r, hr, rfl⟩⟩ := State.hostWrite_register_next hn h
  · exact ⟨fun _ _ => rfl, rfl, rfl, rfl, rfl, rfl, rfl, rfl, rfl, rfl, rfl, rfl, rfl⟩
  · refine ⟨fun m hm => State.hostRead_write_other hb hr hm, ?_⟩
    obtain ⟨chkEn, args, matchRegs, t0, e⟩ := r.write_only v s
    rw [e]
    exact ⟨rfl, rfl, rfl, rfl, rfl, rfl, rfl, rfl, rfl, rfl, rfl, rfl⟩

/-! ### `STATUS` -/

theorem Phase.code_lt (p : Phase) : p.code < 2 ^ 2 := by
  cases p <;> decide

/-- The fields of `STATUS` do not overlap: each is below the next one's lowest bit (R33). -/
theorem State.status_eq_fields (s : State) :
    s.status = (s.res.code <<< 4) ||| (s.phase.code <<< 2) ||| (s.fvalid.toNat <<< 1) ||| s.busy.toNat := by
  have hphase := s.phase.code_lt
  have hfvalid := s.fvalid.toNat_lt
  have hbusy : s.busy.toNat < 2 ^ 1 := s.busy.toNat_lt
  have hlow : s.fvalid.toNat <<< 1 + s.busy.toNat < 2 ^ 2 := by rw [Nat.shiftLeft_eq]; omega
  have hmid : s.phase.code <<< 2 + (s.fvalid.toNat <<< 1 + s.busy.toNat) < 2 ^ 4 := by
    rw [Nat.shiftLeft_eq s.phase.code]; omega
  rw [Nat.or_assoc, Nat.or_assoc, ← Nat.shiftLeft_add_eq_or_of_lt hbusy, ← Nat.shiftLeft_add_eq_or_of_lt hlow,
    ← Nat.shiftLeft_add_eq_or_of_lt hmid]
  simp only [State.status, Nat.shiftLeft_eq]
  omega

/-- Settles O28: `STATUS` is read at any time, and its fields stand side by side. -/
theorem statusFields : Obligations.StatusFields := by
  refine ⟨fun s => ?_, ⟨rfl, rfl, rfl, rfl⟩, rfl, rfl, rfl, rfl, rfl, rfl, rfl, rfl, rfl, rfl, rfl, rfl⟩
  rw [State.hostRead_status, State.returnRead_host, State.status_eq_fields]

/-! ### The host and the receive buffer -/

theorem State.hostReadRxBuf_idle {s : State} (hb : s.busy = false) (i : Nat) :
    s.hostReadRxBuf i = s.returnRead (s.rxByte i).toNat := by
  simp [State.hostReadRxBuf, hb]

theorem State.rxByte_of_cap_le {s : State} {i : Nat} (h : Config.cap ≤ i) : s.rxByte i = 0x00 :=
  if_neg h.not_gt

/-- Settles O31: an idle block returns the byte, which is 0 outside the buffer. -/
theorem receiveBufferReads : Obligations.ReceiveBufferReads := by
  intro s i hb
  refine ⟨State.hostReadRxBuf_idle hb i, fun hi => ?_⟩
  rw [State.hostReadRxBuf_idle hb, State.returnRead_host, State.rxByte_of_cap_le hi]
  rfl

/-- `RXBUF` and `RXCNT` are as they were. -/
def ReceiveBufferKept (s t : State) : Prop := t.rxBuf = s.rxBuf ∧ t.rxCnt = s.rxCnt

/-- `RXBUF` and `RXCNT` are cleared (R24). -/
def ReceiveBufferCleared (t : State) : Prop := t.rxBuf = [] ∧ t.rxCnt = 0

/-- TEARDOWN is the one command that touches the receive buffer (R65, R252). -/
theorem exec_command_receiveBufferKept {i : Instr} {s t : State} (hi : i.frameParts = none) (hne : i ≠ .teardown)
    (h : exec i s = .next t) : ReceiveBufferKept s t := by
  cases i with
  | cmdDecode =>
    cases (whenIdle_next h).2
    exact ⟨rfl, rfl⟩
  | cmdEncode | sendCommand | awaitMatch =>
    cases (whenIdle_next h).2
    split <;> exact ⟨rfl, rfl⟩
  | awaitMatchT0 =>
    obtain ⟨-, h⟩ := whenIdle_next h
    split at h
    · cases h; exact ⟨rfl, rfl⟩
    · split at h <;> cases h
      exact ⟨rfl, rfl⟩
  | teardown => exact absurd rfl hne
  | frame | atCommand | atResponse | txRequest | modemStatus => cases hi

theorem exec_teardown_receiveBufferCleared {s t : State} (h : exec .teardown s = .next t) :
    ReceiveBufferCleared t := by
  cases (whenIdle_next h).2
  exact ⟨rfl, rfl⟩

/-- A write to `CMD` that is answered keeps the receive buffer, unless it is of the opcode of TEARDOWN. -/
theorem issueCommand_receiveBuffer {c : Byte} {s t : State} (h : issueCommand c s = .next t) :
    ReceiveBufferKept s t ∨ (c = 0x06 ∧ ReceiveBufferCleared t) := by
  unfold issueCommand at h
  split at h
  · next i hi =>
    obtain ⟨hencode, -, hcommand⟩ := decodeCommand_ok hi
    by_cases hne : i = .teardown
    · subst hne
      cases hencode
      exact .inr ⟨rfl, exec_teardown_receiveBufferCleared h⟩
    · exact .inl (exec_command_receiveBufferKept hcommand hne h)
  · cases (whenIdle_next h).2
    exact .inl ⟨rfl, rfl⟩

/-- No register but `CMD` leads to the receive buffer; the value written to `CMD` is truncated (R254; log 13). -/
theorem State.hostWrite_receiveBuffer {n v : Nat} {s t : State} (h : s.hostWrite n v = .next t) :
    ReceiveBufferKept s t ∨ (n = 0 ∧ v % 256 = 0x06 ∧ ReceiveBufferCleared t) := by
  by_cases hn : n = 0
  · subst hn
    refine (issueCommand_receiveBuffer h).imp_right fun ⟨hc, hcleared⟩ => ⟨rfl, ?_, hcleared⟩
    exact congrArg BitVec.toNat hc
  · left
    obtain ⟨-, ⟨-, rfl⟩ | ⟨r, -, rfl⟩⟩ := State.hostWrite_register_next hn h
    · exact ⟨rfl, rfl⟩
    · obtain ⟨chkEn, args, matchRegs, t0, e⟩ := r.write_only v s
      rw [e]
      exact ⟨rfl, rfl⟩

theorem State.hostWriteArgBuf_receiveBufferKept {i : Nat} {bytes : List Byte} {s t : State}
    (h : s.hostWriteArgBuf i bytes = .next t) : ReceiveBufferKept s t := by
  obtain ⟨-, -, rfl⟩ := State.hostWriteArgBuf_next h
  obtain ⟨m, e, -⟩ := State.storeArgs_only bytes s i
  rw [e]
  exact ⟨rfl, rfl⟩

theorem State.hostRead_receiveBufferKept (s : State) (n : Nat) : ReceiveBufferKept s (s.hostRead n) := by
  cases hb : s.busy with
  | false => rw [State.hostRead_only hb]; exact ⟨rfl, rfl⟩
  | true =>
    by_cases hn : n = 2
    · subst hn; exact ⟨rfl, rfl⟩
    · rw [State.hostRead_busy hb hn]; exact ⟨rfl, rfl⟩

theorem State.hostReadRxBuf_receiveBufferKept (s : State) (i : Nat) : ReceiveBufferKept s (s.hostReadRxBuf i) := by
  cases hb : s.busy with
  | false => rw [State.hostReadRxBuf_idle hb]; exact ⟨rfl, rfl⟩
  | true => rw [State.hostReadRxBuf_busy hb]; exact ⟨rfl, rfl⟩

theorem State.hostReadArgBuf_receiveBufferKept {i : Nat} {s t : State} (h : s.hostReadArgBuf i = .next t) :
    ReceiveBufferKept s t := by
  cases hb : s.busy with
  | false =>
    rw [State.hostReadArgBuf_idle hb] at h
    split at h <;> cases h
    exact ⟨rfl, rfl⟩
  | true =>
    rw [State.hostReadArgBuf_busy hb] at h
    cases h
    exact ⟨rfl, rfl⟩

theorem State.pollStatus_receiveBufferKept (s : State) : ReceiveBufferKept s s.pollStatus := by
  unfold State.pollStatus
  split <;> exact ⟨rfl, rfl⟩

theorem State.copyView_receiveBufferKept {s t : State} (h : s.copyView = .next t) : ReceiveBufferKept s t := by
  unfold State.copyView at h
  split at h <;> cases h
  exact ⟨rfl, rfl⟩

/-- The line writes TEARDOWN to `CMD`: the value itself, or the one the host kept. -/
def HostLine.WritesTeardown (kept : Nat) (line : HostLine) : Prop :=
  (∃ v, v % 256 = 0x06 ∧ line = .wr 0 v) ∨ (kept % 256 = 0x06 ∧ line = .wrKept 0)

/-- The lines of a host program, one by one (R67, R255). -/
theorem State.hostLine_receiveBuffer {line : HostLine} {s t : State} (h : s.hostLine line = .next t) :
    ReceiveBufferKept s t ∨ (ReceiveBufferCleared t ∧ line.WritesTeardown s.host.kept) := by
  cases line with
  | wr n v =>
    refine (State.hostWrite_receiveBuffer h).imp_right fun ⟨hn, hv, hcleared⟩ => ⟨hcleared, .inl ⟨v, hv, ?_⟩⟩
    rw [hn]
  | wrKept n =>
    refine (State.hostWrite_receiveBuffer h).imp_right fun ⟨hn, hv, hcleared⟩ => ⟨hcleared, .inr ⟨hv, ?_⟩⟩
    rw [hn]
  | wrBuf bytes => exact .inl (State.hostWriteArgBuf_receiveBufferKept h)
  | wrArg i b => exact .inl (State.hostWriteArgBuf_receiveBufferKept h)
  | rd n => cases h; exact .inl (s.hostRead_receiveBufferKept n)
  | rdRxBuf i => cases h; exact .inl (s.hostReadRxBuf_receiveBufferKept i)
  | rdArgBuf i => exact .inl (State.hostReadArgBuf_receiveBufferKept h)
  | wait => cases h; exact .inl s.pollStatus_receiveBufferKept
  | copyFrame => exact .inl (State.copyView_receiveBufferKept h)
  | keep | skip | answer => cases h; exact .inl ⟨rfl, rfl⟩
  | skipUnlessMatched n =>
    cases h
    left
    split <;> exact ⟨rfl, rfl⟩

/-- Settles O33: the turn does nothing, or one line, which is taken off the program first. -/
theorem hostCannotWriteReceiveBuffer : Obligations.HostCannotWriteReceiveBuffer := by
  intro s t h
  cases hprog : s.host.prog with
  | nil =>
    rw [State.hostTurn_of_prog_nil hprog] at h
    cases h
    exact .inl ⟨rfl, rfl⟩
  | cons line rest =>
    rw [State.hostTurn_of_prog_cons hprog] at h
    refine (State.hostLine_receiveBuffer h).imp_right fun ⟨⟨hbuf, hcnt⟩, hline⟩ => ⟨hbuf, hcnt, rest, ?_⟩
    rcases hline with ⟨v, hv, rfl⟩ | ⟨hkept, rfl⟩
    · exact .inl ⟨v, hv, rfl⟩
    · exact .inr ⟨hkept, rfl⟩

end Sys2Proof.Machine
